-- ==== Sys2Proof/Word.lean ====
section
/-! DEFINITION. The word types of the sample_codec block: a memory byte and a 32-bit register or descriptor word. -/

namespace Sys2Proof

/-- One byte of the shared memory, or an 8-bit field of a descriptor (R45, R66). -/
abbrev Byte := BitVec 8

/-- A 32-bit host register or one word of a command descriptor (R23, R65). -/
abbrev Word := BitVec 32

end Sys2Proof
end

