-- ==== Sys2Proof/Config.lean ====
section
/-! DEFINITION. The implementation parameters of R8 and the free values: what the spec leaves to each block or calls
unspecified. A free value is an opaque constant with no body, applied to plain data that says which draw it is. -/

namespace Sys2Proof

/-- The one open parameter of R8, `MEM_SIZE`, held as the highest address the memory has, so that
1 ≤ `MEM_SIZE` ≤ 2^32 holds of every value of this type. It is configuration and no state (R20): no step changes it. -/
structure Config where
  lastAddress : Word
deriving DecidableEq, Repr

/-- `MEM_SIZE`: the bytes of the shared memory, addresses 0 … `MEM_SIZE` − 1 (R8, R45). -/
def Config.memSize (c : Config) : Nat := c.lastAddress.toNat + 1

/-- The default `MEM_SIZE` = 2^32 of R8. -/
def Config.standard : Config := { lastAddress := 0xFFFFFFFF }

/-- `CMD_BYTES` (R8). -/
def Config.cmdBytes : Nat := 32

/-- `MAX_CHANNELS` (R8). -/
def Config.maxChannels : Nat := 64

/-- `NUM_GAIN_BANKS` (R8). -/
def Config.numGainBanks : Nat := 16

/-- `GAIN_FRAC_BITS` (R8). -/
def Config.gainFracBits : Nat := 31

/-- `KNEE_MAX` (R8). -/
def Config.kneeMax : Int := 255

/-- `FIR_MAX_LEN` (R8). -/
def Config.firMaxLen : Nat := 65536

/-- `FIR_FRAC_BITS` (R8). -/
def Config.firFracBits : Nat := 30

/-- `FLOAT_SCALE_LOG2` (R8). -/
def Config.floatScaleLog2 : Nat := 31

/-- `LFSR_MASK` (R8). -/
def Config.lfsrMask : Word := 0x80200003

/-- `LFSR_RESET` (R8). -/
def Config.lfsrReset : Word := 0x00000001

/-- `ID_VALUE` (R8). -/
def Config.idValue : Word := 0x53434443

/-- FREE VALUE (R47, R230, U1; log entry 1). The byte that power-on number `epoch` left at address `addr`: what a byte
that nothing has written since then reads as. -/
opaque Config.powerOnByte (epoch addr : Nat) : Byte

/-- FREE VALUE (R59(b), U2; log entry 4). What the block's read number `key` of the step `draw` gets from address `addr`,
when the host wrote that byte during the run: an independent byte at each read. -/
opaque Config.racedByte (draw key addr : Nat) : Byte

/-- FREE VALUE (R59(c), U3; log entry 4). What a byte that both the host and the run wrote holds when the run ends. -/
opaque Config.raceEndByte (draw addr : Nat) : Byte

/-- FREE VALUE (R59(c), R59(d); log entry 5). What a host read during the run gets from a byte that both the host and the
run wrote. -/
opaque Config.hostRacedByte (draw addr : Nat) : Byte

/-- FREE CHOICE (R59(d), U4; log entry 5). Which of the values a byte has held a racing host read returns. -/
opaque Config.heldPick (draw addr : Nat) : Nat

/-- FREE CHOICE (R40, U5; log entry 6). Which command boundary of the run a host read of CMD_PTR, LFSR or GAIN_DATA
during the run shows. -/
opaque Config.boundaryPick (draw : Nat) : Nat

/-- FREE VALUE (R232, U7; log entry 7). What a destination byte of a command that a reset cut short holds afterwards. -/
opaque Config.cutByte (draw addr : Nat) : Byte

end Sys2Proof
end

