-- ==== Sys2Proof/Syntax.lean ====
section
/-! DEFINITION. The command set, one constructor per row of spec/opcode_table.json, with the operand fields as the
descriptor holds them; and the fault causes with their information word (R201). A field keeps every value its bits can
have, so that a command with an illegal field is a term too: WellFormed.lean says which are legal. -/

namespace Sys2Proof

/-- The fault causes of R201. -/
inductive Cause where
  | none
  | fetchAccess
  | illegalOpcode
  | reservedField
  | illegalFormat
  | illegalChannel
  | illegalParam
  | misaligned
  | access
  | firState
  | overlap
deriving DecidableEq, Repr

/-- `Fault(cause, info)` of R13: a cause and its information word. -/
structure FaultReport where
  cause : Cause
  info : Word
deriving DecidableEq, Repr

/-- A channel stream operand: base address, channel index and channels per frame (R17, R76). -/
structure Stream where
  base : Word
  ch : Byte
  nch : Byte
deriving DecidableEq, Repr

/-- MIX's FLAGS[3:0] (R72). -/
structure MixFlags where
  assign : Bool
  invert : Bool
  mute : Bool
  dither : Bool
deriving DecidableEq, Repr

/-- COMP's W5: knee, the attack and decay exponents and the gain bank (R78). -/
structure CompParams where
  knee : Byte
  attack : Byte
  decay : Byte
  bank : Byte
deriving DecidableEq, Repr

/-- A decoded command (R67, R68). `fmt` is the wire format code of R70. -/
inductive Instr where
  /-- HALT (R95). -/
  | halt
  /-- IMPORT (R116): `src` is ADDR_A, the wire source; `dst` is ADDR_B, the canonical destination. -/
  | importWire (fmt : Byte) (count src dst : Word)
  /-- EXPORT (R124): `src` is ADDR_A, the canonical source; `dst` is ADDR_B, the wire destination. -/
  | exportWire (fmt : Byte) (count src dst : Word)
  /-- SILENCE (R130): `dst` is ADDR_B, the wire destination. -/
  | silence (fmt : Byte) (count dst : Word)
  /-- MAXV (R134): `dst` is ADDR_B, the canonical destination. -/
  | maxv (fmt : Byte) (dst : Word)
  /-- MIX (R145): `shift` is W0[31:24], read as signed by R73; `volume` is W5, read as signed by R77. -/
  | mix (flags : MixFlags) (shift : Byte) (count : Word) (src dst : Stream) (volume : Word)
  /-- COMP (R160): `buf` is ADDR_A, `nch` is NCH_A. -/
  | comp (fmt : Byte) (en : Bool) (count buf : Word) (nch : Byte) (par : CompParams)
  /-- GAININIT (R165). -/
  | gaininit (bank : Byte)
  /-- FIR (R183): `buf` is the stream ADDR_A[CH_A/NCH_A], `state` is ADDR_B, the state block pointer. -/
  | fir (count : Word) (buf : Stream) (state : Word)
deriving DecidableEq, Repr

/-- The pseudo-instruction `nop` of R87. -/
def Instr.nop : Instr := .silence 0 0 0

/-- The pseudo-instruction `copy` of R87: `mix.a` with volume 1 and shift 0. -/
def Instr.copyStream (count : Word) (src dst : Stream) : Instr :=
  .mix { assign := true, invert := false, mute := false, dither := false } 0 count src dst 1

/-- The pseudo-instruction `zero` of R87: `mix.a.m` of a stream onto itself with volume 0 and shift 0. -/
def Instr.zeroStream (count : Word) (dst : Stream) : Instr :=
  .mix { assign := true, invert := false, mute := true, dither := false } 0 count dst dst 0

end Sys2Proof
end

