-- ==== Sys2Proof/Decode.lean ====
section
/-! DEFINITION. The decoder of R81 to R85, total on any bytes and rejecting by the fault the spec names, and the encoder
of the same tables (R65 to R68). -/

namespace Sys2Proof

/-! ## Bytes of a word (R66, R49(a)) -/

/-- Bits [7:0]. -/
def byte0 (w : Word) : Byte := w.extractLsb' 0 8

/-- Bits [15:8]. -/
def byte1 (w : Word) : Byte := w.extractLsb' 8 8

/-- Bits [23:16]. -/
def byte2 (w : Word) : Byte := w.extractLsb' 16 8

/-- Bits [31:24]. -/
def byte3 (w : Word) : Byte := w.extractLsb' 24 8

/-- The word {b3, b2, b1, b0}, with `b3` in bits [31:24] and `b0` in bits [7:0]. -/
def pack (b3 b2 b1 b0 : Byte) : Word := ((b3 ++ b2) ++ (b1 ++ b0) : BitVec (16 + 16))

/-- The eight words W0 … W7 of a command descriptor (R65). -/
structure Words where
  w0 : Word
  w1 : Word
  w2 : Word
  w3 : Word
  w4 : Word
  w5 : Word
  w6 : Word
  w7 : Word
deriving DecidableEq, Repr

/-- W0 … W7 in order. -/
def Words.toList (w : Words) : List Word := [w.w0, w.w1, w.w2, w.w3, w.w4, w.w5, w.w6, w.w7]

/-! ## Opcodes and reserved bits -/

/-- The nine opcodes of R67. -/
inductive Opcode where
  | halt | importWire | exportWire | silence | maxv | mix | comp | gaininit | fir
deriving DecidableEq, Repr

/-- The opcode values of R67. -/
def Opcode.code : Opcode → Byte
  | .halt => 0x00
  | .importWire => 0x01
  | .exportWire => 0x02
  | .silence => 0x03
  | .maxv => 0x04
  | .mix => 0x10
  | .comp => 0x20
  | .gaininit => 0x21
  | .fir => 0x30

/-- The opcode with a given code, none for the reserved codes of R67. -/
def Opcode.ofCode (b : Byte) : Option Opcode :=
  [Opcode.halt, .importWire, .exportWire, .silence, .maxv, .mix, .comp, .gaininit, .fir].find? (fun o => o.code == b)

/-- `reserved_mask(opc, k)` for k = 0 … 7 (R84). -/
def reservedMasks : Opcode → Words
  | .halt => ⟨0xFFFFFF00, 0xFFFFFFFF, 0xFFFFFFFF, 0xFFFFFFFF, 0xFFFFFFFF, 0xFFFFFFFF, 0xFFFFFFFF, 0xFFFFFFFF⟩
  | .importWire => ⟨0xFFFF0000, 0, 0, 0, 0xFFFFFFFF, 0xFFFFFFFF, 0xFFFFFFFF, 0xFFFFFFFF⟩
  | .exportWire => ⟨0xFFFF0000, 0, 0, 0, 0xFFFFFFFF, 0xFFFFFFFF, 0xFFFFFFFF, 0xFFFFFFFF⟩
  | .silence => ⟨0xFFFF0000, 0, 0xFFFFFFFF, 0, 0xFFFFFFFF, 0xFFFFFFFF, 0xFFFFFFFF, 0xFFFFFFFF⟩
  | .maxv => ⟨0xFFFF0000, 0xFFFFFFFF, 0xFFFFFFFF, 0, 0xFFFFFFFF, 0xFFFFFFFF, 0xFFFFFFFF, 0xFFFFFFFF⟩
  | .mix => ⟨0x00F0FF00, 0, 0, 0, 0, 0, 0xFFFFFFFF, 0xFFFFFFFF⟩
  | .comp => ⟨0xFFFE0000, 0, 0, 0xFFFFFFFF, 0xFFFF00FF, 0, 0xFFFFFFFF, 0xFFFFFFFF⟩
  | .gaininit => ⟨0xFFFFFF00, 0xFFFFFFFF, 0xFFFFFFFF, 0xFFFFFFFF, 0xFFFFFFFF, 0x00FFFFFF, 0xFFFFFFFF, 0xFFFFFFFF⟩
  | .fir => ⟨0xFFFFFF00, 0, 0, 0, 0xFFFF0000, 0xFFFFFFFF, 0xFFFFFFFF, 0xFFFFFFFF⟩

/-- The least index, counted from `k`, of a word with a reserved bit that is 1 (R81). -/
def lowestReserved : Nat → List Word → List Word → Option Nat
  | k, w :: ws, m :: ms => if w &&& m = 0 then lowestReserved (k + 1) ws ms else some k
  | _, _, _ => none

/-! ## Flag bytes (R72) -/

/-- MIX's flags from FLAGS = W0[23:16]. -/
def MixFlags.ofByte (b : Byte) : MixFlags :=
  { assign := b.getLsbD 0, invert := b.getLsbD 1, mute := b.getLsbD 2, dither := b.getLsbD 3 }

/-- FLAGS of MIX's flags, FLAGS[7:4] = 0. -/
def MixFlags.toByte (f : MixFlags) : Byte :=
  (if f.assign then 0x01 else 0) ||| (if f.invert then 0x02 else 0) ||| (if f.mute then 0x04 else 0) |||
    (if f.dither then 0x08 else 0)

/-- COMP's EN from FLAGS. -/
def enOfByte (b : Byte) : Bool := b.getLsbD 0

/-- FLAGS of COMP's EN, FLAGS[7:1] = 0. -/
def enToByte (en : Bool) : Byte := if en then 0x01 else 0

/-! ## Decode -/

/-- The operand fields of each opcode (R66, R68), read from a descriptor whose reserved bits are 0. -/
def instrOf (op : Opcode) (w : Words) : Instr :=
  match op with
  | .halt => .halt
  | .importWire => .importWire (byte1 w.w0) w.w1 w.w2 w.w3
  | .exportWire => .exportWire (byte1 w.w0) w.w1 w.w2 w.w3
  | .silence => .silence (byte1 w.w0) w.w1 w.w3
  | .maxv => .maxv (byte1 w.w0) w.w3
  | .mix =>
    .mix (MixFlags.ofByte (byte2 w.w0)) (byte3 w.w0) w.w1 ⟨w.w2, byte0 w.w4, byte1 w.w4⟩ ⟨w.w3, byte2 w.w4, byte3 w.w4⟩
      w.w5
  | .comp =>
    .comp (byte1 w.w0) (enOfByte (byte2 w.w0)) w.w1 w.w2 (byte1 w.w4)
      ⟨byte0 w.w5, byte1 w.w5, byte2 w.w5, byte3 w.w5⟩
  | .gaininit => .gaininit (byte3 w.w5)
  | .fir => .fir w.w1 ⟨w.w2, byte0 w.w4, byte1 w.w4⟩ w.w3

/-- The first part of R83's decode: the opcode (R69) and the reserved bits (R81), in this order. The field checks of R82
are `fieldFault`; each command's meaning makes them before anything else, so a command whose fields are illegal is
decoded and then faults as R82 says. -/
def decode (w : Words) : Except FaultReport Instr :=
  match Opcode.ofCode (byte0 w.w0) with
  | none => .error ⟨.illegalOpcode, w.w0⟩
  | some op =>
    match lowestReserved 0 w.toList (reservedMasks op).toList with
    | some k => .error ⟨.reservedField, BitVec.ofNat 32 k⟩
    | none => .ok (instrOf op w)

/-- R70's legality of a format code: FMT[7:5] = 0 and either F = 0, or F = 1 with WSEL = 0b11 and U = 0. -/
def legalFmt (fmt : Byte) : Bool :=
  fmt.extractLsb' 5 3 == 0 && (!fmt.getLsbD 4 || (fmt.extractLsb' 0 2 == 3 && !fmt.getLsbD 2))

/-- The format check of R82(1): `Fault(ILLEGAL_FORMAT, FMT)`. -/
def fmtFault (fmt : Byte) : Option FaultReport :=
  if legalFmt fmt then none else some ⟨.illegalFormat, fmt.setWidth 32⟩

/-- NCH is 1 … `MAX_CHANNELS` (R76). -/
def legalNch (nch : Byte) : Bool := 1 ≤ nch.toNat && nch.toNat ≤ Config.maxChannels

/-- A stream's channel fields are legal (R76). -/
def legalStream (st : Stream) : Bool := legalNch st.nch && st.ch.toNat < st.nch.toNat

/-- The channel check of R82(2): `Fault(ILLEGAL_CHANNEL, W4)`. -/
def channelFault (legal : Bool) (w4 : Word) : Option FaultReport :=
  if legal then none else some ⟨.illegalChannel, w4⟩

/-- The parameter check of R82(3): `Fault(ILLEGAL_PARAM, k)`, k the index of the word that holds the field. -/
def paramFault (legal : Bool) (k : Word) : Option FaultReport :=
  if legal then none else some ⟨.illegalParam, k⟩

/-- The field checks of R82, in their order: the first that fails is the fault raised. W4 is written out from the
command's own channel fields, its other bits being reserved and 0. -/
def fieldFault : Instr → Option FaultReport
  | .halt => none
  | .importWire fmt _ _ _ => fmtFault fmt
  | .exportWire fmt _ _ _ => fmtFault fmt
  | .silence fmt _ _ => fmtFault fmt
  | .maxv fmt _ => fmtFault fmt
  | .mix _ shift _ src dst _ =>
    (channelFault (legalStream src && legalStream dst) (pack dst.nch dst.ch src.nch src.ch)).or
      (paramFault (-63 ≤ shift.toInt && shift.toInt ≤ 63) 0)
  | .comp fmt _ _ _ nch par =>
    ((fmtFault fmt).or (channelFault (legalNch nch) (pack 0 0 nch 0))).or
      (paramFault (par.attack.toNat ≤ 63 && par.decay.toNat ≤ 63 && par.bank.toNat ≤ 15) 5)
  | .gaininit bank => paramFault (bank.toNat ≤ 15) 5
  | .fir _ buf _ => channelFault (legalStream buf) (pack 0 0 buf.nch buf.ch)

/-- The whole of R83: a descriptor's verdict, the operation record or the fault. -/
def verdict (w : Words) : Except FaultReport Instr :=
  match decode w with
  | .error f => .error f
  | .ok i =>
    match fieldFault i with
    | some f => .error f
    | none => .ok i

/-! ## Bytes -/

/-- Why a list of bytes is no command: fewer than the 32 bytes of R65, or the fault the descriptor raises. -/
inductive Reject where
  | truncated
  | faulting (f : FaultReport)
deriving DecidableEq, Repr

/-- One little-endian word from the front of a list of bytes (R49(a)). -/
def takeWord : List Byte → Option (Word × List Byte)
  | b0 :: b1 :: b2 :: b3 :: rest => some (pack b3 b2 b1 b0, rest)
  | _ => none

/-- Eight little-endian words from the front of a list of bytes (R65). -/
def takeWords (bs : List Byte) : Option (Words × List Byte) :=
  match takeWord bs with
  | none => none
  | some (w0, bs) =>
  match takeWord bs with
  | none => none
  | some (w1, bs) =>
  match takeWord bs with
  | none => none
  | some (w2, bs) =>
  match takeWord bs with
  | none => none
  | some (w3, bs) =>
  match takeWord bs with
  | none => none
  | some (w4, bs) =>
  match takeWord bs with
  | none => none
  | some (w5, bs) =>
  match takeWord bs with
  | none => none
  | some (w6, bs) =>
  match takeWord bs with
  | none => none
  | some (w7, bs) => some (⟨w0, w1, w2, w3, w4, w5, w6, w7⟩, bs)

/-- The decoder over bytes: the command at the front and the bytes after its 32 (R85). -/
def decodeBytes (bs : List Byte) : Except Reject (Instr × List Byte) :=
  match takeWords bs with
  | none => .error .truncated
  | some (w, rest) =>
    match decode w with
    | .error f => .error (.faulting f)
    | .ok i => .ok (i, rest)

/-- The 32 bytes of a descriptor whose bits, W0's bit 0 the least, are the `nbits` low bits of `w`, all others 0. -/
def tableWordBytes (nbits w : Nat) : List Byte :=
  (List.range 32).map (fun k => BitVec.ofNat 8 ((w % 2 ^ nbits) / 2 ^ (8 * k)))

/-- The command the decoder reads from an opcode-table word, none where it refuses. -/
def decodeTableWord (nbits w : Nat) : Option Instr :=
  match decodeBytes (tableWordBytes nbits w) with
  | .ok (i, _) => some i
  | .error _ => none

/-! ## Encode -/

/-- A command's opcode (R67). -/
def Instr.opcode : Instr → Opcode
  | .halt => .halt
  | .importWire .. => .importWire
  | .exportWire .. => .exportWire
  | .silence .. => .silence
  | .maxv .. => .maxv
  | .mix .. => .mix
  | .comp .. => .comp
  | .gaininit .. => .gaininit
  | .fir .. => .fir

/-- The descriptor of a command (R66, R68): every bit that is no field of the command is 0. -/
def encode (i : Instr) : Words :=
  match i with
  | .halt => ⟨pack 0 0 0 i.opcode.code, 0, 0, 0, 0, 0, 0, 0⟩
  | .importWire fmt count src dst => ⟨pack 0 0 fmt i.opcode.code, count, src, dst, 0, 0, 0, 0⟩
  | .exportWire fmt count src dst => ⟨pack 0 0 fmt i.opcode.code, count, src, dst, 0, 0, 0, 0⟩
  | .silence fmt count dst => ⟨pack 0 0 fmt i.opcode.code, count, 0, dst, 0, 0, 0, 0⟩
  | .maxv fmt dst => ⟨pack 0 0 fmt i.opcode.code, 0, 0, dst, 0, 0, 0, 0⟩
  | .mix flags shift count src dst volume =>
    ⟨pack shift flags.toByte 0 i.opcode.code, count, src.base, dst.base, pack dst.nch dst.ch src.nch src.ch, volume, 0, 0⟩
  | .comp fmt en count buf nch par =>
    ⟨pack 0 (enToByte en) fmt i.opcode.code, count, buf, 0, pack 0 0 nch 0,
      pack par.bank par.decay par.attack par.knee, 0, 0⟩
  | .gaininit bank => ⟨pack 0 0 0 i.opcode.code, 0, 0, 0, 0, pack bank 0 0 0, 0, 0⟩
  | .fir count buf state => ⟨pack 0 0 0 i.opcode.code, count, buf.base, state, pack 0 0 buf.nch buf.ch, 0, 0, 0⟩

/-- The four bytes of a word in memory order (R49(a)). -/
def wordBytes (w : Word) : List Byte := [byte0 w, byte1 w, byte2 w, byte3 w]

/-- The 32 bytes of a command in memory order (R65). -/
def encodeBytes (i : Instr) : List Byte := (encode i).toList.flatMap wordBytes

end Sys2Proof
end

