-- ==== Sys2Proof/Machine/State.lean ====
section
/-! DEFINITION. The state of the block: every piece R20 lists, the configuration, and the model's own fields that say
what the host does and which free value comes next. Plain data throughout. -/

namespace Sys2Proof.Machine

/-- What stops the machine for good. No command of the block raises one: the block's own faults (R201) are next states,
written by `State.takeFault`. -/
inductive Fault where
  /-- Raised by a host access to a memory address the memory does not have (R45: addresses 0 … `MEM_SIZE` − 1). Safe: the
  spec gives such an access no effect (log entry 11). -/
  | noSuchAddress (addr : Word)
deriving DecidableEq, Repr

/-- What the model gives no meaning. -/
inductive Refusal where
  /-- Raised by an arm of `exec` whose command has no meaning yet (none has). Safe. -/
  | notModelled (mnemonic : String)
  /-- Raised by a host access to the register window that is not an aligned 32-bit one: R38 says a model refuses it
  (U6; log entry 12). Safe. -/
  | windowAccess (offset : BitVec 6) (bytes : Nat)
deriving DecidableEq, Repr

/-- The gain banks of R34: `GAIN[b][c]` is entry c of bank b, for b = 0 … 15 and c = 0 … 63. -/
abbrev Gains := Vector (Vector Word 64) 16

/-- Unity gain 2^31 (R34). -/
def unityGain : Word := 0x80000000

/-- The shared memory (R45) and what the model keeps about host and block sharing it (R58, R59). -/
structure Memory where
  /-- The bytes that something has written since power-on, by strictly rising address. An address that is not listed holds
  what power-on left there (R47). -/
  cells : List Host.Cell
  /-- MODEL'S OWN (log entry 4): addresses the host wrote during the current run (R59). -/
  raced : List Nat
  /-- MODEL'S OWN (log entries 4, 5): the current run's writes, newest first, each with the listed byte it overwrote. -/
  log : List (Nat × Option Byte)
  /-- MODEL'S OWN (log entry 5): the same for ended runs whose end the host has not yet seen in STATUS (R58(b)). -/
  unseen : List (Nat × Option Byte)
  /-- MODEL'S OWN (log entry 4): addresses whose byte the end of a run (R59(c)) or a reset (R232) left unspecified and that
  nothing has written since. -/
  unspecified : List Nat
  /-- MODEL'S OWN (log entries 1, 3): which power-on the unlisted bytes come from. -/
  epoch : Nat
  /-- MODEL'S OWN (log entry 3): the number of the next step, for which the free values are drawn. -/
  draws : Nat
deriving DecidableEq, Repr

/-- The registers whose value at a command boundary a host read during the run may show (R40, R104). -/
structure Boundary where
  cmdPtr : Word
  lfsr : Word
  gains : Gains
deriving DecidableEq, Repr

/-- What the host's last access returned. -/
inductive Reply where
  | none
  | word (v : Word)
  | byte (b : Byte)
deriving DecidableEq, Repr

/-- One action of the host or the platform (R46, R213, R230). -/
inductive HostAction where
  /-- A read of the register window of `bytes` bytes at an offset from its base (R23, R38). -/
  | windowRead (offset : BitVec 6) (bytes : Nat)
  /-- A write of the register window. -/
  | windowWrite (offset : BitVec 6) (bytes : Nat) (value : Word)
  /-- A read of one memory byte. -/
  | memRead (addr : Word)
  /-- A write of one memory byte. -/
  | memWrite (addr : Word) (value : Byte)
  /-- Power-on reset (R230). -/
  | powerOn
deriving DecidableEq, Repr

/-- What happens in one step of the model (R242). -/
inductive Turn where
  /-- The sequencer's turn: a whole step of R92, or the rest of the command that is executing. -/
  | sequencer
  /-- The sequencer passes the command boundary and no more: what follows, up to its next turn, arrives while the command
  at CMD_PTR is executing (R104, R205(b), R232; log entry 18). -/
  | commandBegins
  /-- An action of the host or the platform. -/
  | host (a : HostAction)
deriving DecidableEq, Repr

/-- The whole state. -/
structure State where
  /-- `MEM_SIZE` (R8): configuration, no state of the block (R20). -/
  config : Config
  /-- CMD_PTR (R28). -/
  cmdPtr : Word
  /-- STATUS bit 0 (R26). -/
  busy : Bool
  /-- STATUS bit 1 (R26). -/
  done : Bool
  /-- STATUS bit 2 (R26). -/
  fault : Bool
  /-- STATUS bit 3 (R26). -/
  stopped : Bool
  /-- STOP_PENDING, STATUS bit 4 (R36). -/
  stopPending : Bool
  /-- IRQ_EN (R27). -/
  irqEn : Word
  /-- FAULT_CAUSE (R29). -/
  faultCause : Cause
  /-- FAULT_INFO (R30). -/
  faultInfo : Word
  /-- LFSR (R31). -/
  lfsr : Word
  /-- GAIN_IDX (R32). -/
  gainIdx : Word
  /-- The gain banks (R34). -/
  gains : Gains
  /-- The shared memory (R45). -/
  mem : Memory
  /-- MODEL'S OWN (log entry 6): the register values at the current run's command boundaries so far, newest first. -/
  boundaries : List Boundary
  /-- MODEL'S OWN (log entry 18): the sequencer has passed the boundary before the command at CMD_PTR and the command has
  not ended. -/
  executing : Bool
  /-- MODEL'S OWN (log entry 2): what comes next. When the list is empty it is the sequencer's turn. -/
  schedule : List Turn
  /-- MODEL'S OWN (log entry 2): what the host's last access returned. -/
  reply : Reply
deriving DecidableEq, Repr

/-- Every gain entry at unity (R34, R43). -/
def unityGains : Gains := Vector.replicate 16 (Vector.replicate 64 unityGain)

/-- The memory right after power-on number `epoch`: nothing written (R47, R230). -/
def Memory.atPowerOn (epoch draws : Nat) : Memory :=
  { cells := [], raced := [], log := [], unseen := [], unspecified := [], epoch := epoch, draws := draws }

/-- The machine right after power-on reset (R43, R230), with the default `MEM_SIZE` and no host action scheduled. -/
def State.reset : State where
  config := Config.standard
  cmdPtr := 0
  busy := false
  done := false
  fault := false
  stopped := false
  stopPending := false
  irqEn := 0
  faultCause := .none
  faultInfo := 0
  lfsr := Config.lfsrReset
  gainIdx := 0
  gains := unityGains
  mem := Memory.atPowerOn 0 0
  boundaries := []
  executing := false
  schedule := []
  reply := .none

end Sys2Proof.Machine
end

