-- ==== Sys2Proof/Machine/Flags.lean ====
section
/-! DEFINITION. The block has no flags, condition codes or predicates (R22). What it has of this kind are the run-state
bits of STATUS (R26), the cause codes (R201) and the interrupt output (R210), assembled here. -/

namespace Sys2Proof.Machine

/-- A bit at a position of a register. -/
def bitAt (b : Bool) (pos : Nat) : Word := if b then (1 : Word) <<< pos else 0

/-- STATUS as the host reads it (R26): bits [31:5] are 0. -/
def State.statusWord (s : State) : Word :=
  bitAt s.busy 0 ||| bitAt s.done 1 ||| bitAt s.fault 2 ||| bitAt s.stopped 3 ||| bitAt s.stopPending 4

/-- The interrupt output (R210). -/
def State.irq (s : State) : Bool :=
  (s.done && s.irqEn.getLsbD 1) || (s.fault && s.irqEn.getLsbD 2) || (s.stopped && s.irqEn.getLsbD 3)

/-- The cause codes of R201. -/
def causeCode : Cause → Byte
  | .none => 0x00
  | .fetchAccess => 0x01
  | .illegalOpcode => 0x02
  | .reservedField => 0x03
  | .illegalFormat => 0x04
  | .illegalChannel => 0x05
  | .illegalParam => 0x06
  | .misaligned => 0x07
  | .access => 0x08
  | .firState => 0x09
  | .overlap => 0x0A

end Sys2Proof.Machine
end

