-- ==== Sys2Proof/Machine/Arith.lean ====
section
/-! DEFINITION. The arithmetic functions of R11 on unbounded integers, and the loop of R14. -/

namespace Sys2Proof.Machine

/-- `sext_N(v)` (R11): the integer whose N-bit two's-complement pattern is v[N−1:0]. -/
def sext (n : Nat) (v : Nat) : Int := (BitVec.ofNat n v).toInt

/-- `wrap64(v)` (R11): the int64 with the same low 64 bits as v. -/
def wrap64 (v : Int) : Int := (BitVec.ofInt 64 v).toInt

/-- `floor_div(a, b)` for b > 0 (R11): rounds toward minus infinity. -/
def floorDiv (a b : Int) : Int := a / b

/-- `shl(v, s)` (R11): v × 2^s, or the floor of v / 2^(−s) when s < 0. -/
def shl (v s : Int) : Int := if 0 ≤ s then v * 2 ^ s.toNat else floorDiv v (2 ^ (-s).toNat)

/-- `clamp(v, lo, hi)` (R11). -/
def clamp (v lo hi : Int) : Int := if v < lo then lo else if hi < v then hi else v

/-- `abs(v)` (R11), exact. -/
def absInt (v : Int) : Int := if 0 ≤ v then v else -v

/-- `for i in 0 .. n−1: x <- f(i, x)`, in increasing order of i (R14). -/
def loop {α : Type} : Nat → (Nat → α → α) → α → α
  | 0, _, x => x
  | n + 1, f, x => f n (loop n f x)

/-- `Σ f(m)` for m = 0 … n−1. -/
def sumTo : Nat → (Nat → Int) → Int
  | 0, _ => 0
  | n + 1, f => sumTo n f + f n

end Sys2Proof.Machine
end

