-- ==== Sys2Proof/Machine/Memory.lean ====
section
/-! DEFINITION. The memory primitives of R12 over the canonical list of written bytes, the free values of R47 and R59,
and the host's side of the shared memory (R58, R59). A read of the block carries a `key` that numbers it within its
step, so that every read of a raced byte is an independent draw (R59(b)). -/

namespace Sys2Proof.Machine

/-! ## The list of written bytes -/

/-- The byte listed at an address. -/
def lookupCell : List Host.Cell → Nat → Option Byte
  | [], _ => none
  | (a, b) :: rest, x => if a = x then some b else lookupCell rest x

/-- The list with the byte at an address set, in rising order of address. -/
def insertCell : List Host.Cell → Nat → Byte → List Host.Cell
  | [], x, v => [(x, v)]
  | (a, b) :: rest, x, v =>
    if x < a then (x, v) :: (a, b) :: rest
    else if x = a then (x, v) :: rest
    else (a, b) :: insertCell rest x v

/-- Addresses strictly rise from `lo` on and lie below `size`. -/
def cellsWf (size : Nat) : Nat → List Host.Cell → Bool
  | _, [] => true
  | lo, (a, _) :: rest => lo ≤ a && a < size && cellsWf size (a + 1) rest

/-- The canonical form of the memory: each listed address once, in rising order, below `MEM_SIZE`. An unlisted address
has no value of its own (a read draws it), so no entry can repeat what an unlisted address reads as. -/
def Memory.wf (size : Nat) (m : Memory) : Bool := cellsWf size 0 m.cells

/-- The byte the memory holds at an address: the last one written there, or what power-on left (R47). -/
def Memory.peek (m : Memory) (a : Nat) : Byte := (lookupCell m.cells a).getD (Config.powerOnByte m.epoch a)

/-- What the block's read number `key` of this step gets from an address: the byte held there (R55), unless the host
wrote it during the run (R59(b)). -/
def Memory.blockByte (m : Memory) (key a : Nat) : Byte :=
  if m.raced.contains a then Config.racedByte m.draws key a else m.peek a

/-- A write of one byte by the block. -/
def Memory.put (m : Memory) (a : Nat) (b : Byte) : Memory :=
  { m with
    cells := insertCell m.cells a b
    log := (a, lookupCell m.cells a) :: m.log
    unspecified := m.unspecified.filter (fun x => !(x == a)) }

/-! ## The primitives of R12 -/

/-- `MemRead(addr, n)` (R12): little-endian. -/
def Memory.read (m : Memory) (key : Nat) (a : Nat) : Nat → Nat
  | 0 => 0
  | n + 1 => (m.blockByte key a).toNat + 256 * m.read key (a + 1) n

/-- `MemReadBE(addr, n)` (R12). -/
def Memory.readBE (m : Memory) (key : Nat) (a : Nat) : Nat → Nat
  | 0 => 0
  | n + 1 => (m.blockByte key a).toNat * 256 ^ n + m.readBE key (a + 1) n

/-- `MemWrite(addr, n, v)` (R12): little-endian. -/
def Memory.write (m : Memory) (a : Nat) : Nat → Nat → Memory
  | 0, _ => m
  | n + 1, v => (m.put a (BitVec.ofNat 8 v)).write (a + 1) n (v / 256)

/-- `MemWriteBE(addr, n, v)` (R12). -/
def Memory.writeBE (m : Memory) (a : Nat) : Nat → Nat → Memory
  | 0, _ => m
  | n + 1, v => (m.put a (BitVec.ofNat 8 (v / 256 ^ n))).writeBE (a + 1) n v

/-- `ReadCanon(addr)` (R12). -/
def Memory.readCanon (m : Memory) (key a : Nat) : Int := sext 64 (m.read key a 8)

/-- `WriteCanon(addr, v)` (R12). -/
def Memory.writeCanon (m : Memory) (a : Nat) (v : Int) : Memory := m.write a 8 (v % 2 ^ 64).toNat

/-! ## The step counter and the ends of a run -/

/-- The memory with the next step's number. -/
def Memory.tick (m : Memory) : Memory := { m with draws := m.draws + 1 }

/-- Each address of a list set to a free value (R59(c), R232). -/
def scramble (f : Nat → Byte) (addrs : List Nat) (cells : List Host.Cell) : List Host.Cell :=
  addrs.foldl (fun c a => insertCell c a (f a)) cells

/-- The run so far has written an address. -/
def Memory.runWrote (m : Memory) (a : Nat) : Bool := m.log.any (fun e => e.1 == a)

/-- The memory at the end of a run: a byte that both the host and the run wrote is unspecified (R59(c)), and the run's
writes wait for the host to see BUSY = 0 (R58(b)). -/
def Memory.endRun (m : Memory) : Memory :=
  { m with
    cells := scramble (Config.raceEndByte m.draws) (m.raced.filter m.runWrote) m.cells
    unspecified := m.raced.filter m.runWrote ++ m.unspecified
    raced := []
    log := []
    unseen := m.log ++ m.unseen
    draws := m.draws + 1 }

/-- The memory after a reset cut a command short: each of the command's destination bytes is unspecified (R232). What the
command may have written, up to all that `whole`, the memory had it completed, has of it, counts as the run's writes. -/
def Memory.cutShort (m whole : Memory) (addrs : List Nat) : Memory :=
  { m with
    cells := scramble (Config.cutByte m.draws) addrs m.cells
    log := addrs.map (fun a => (a, lookupCell whole.cells a)) ++ whole.log
    unspecified := addrs ++ m.unspecified
    draws := m.draws + 1 }

/-! ## The host's accesses (R58, R59) -/

/-- A host write of one byte: it takes effect at once, and the host sees it; while a run is in progress it races with the
run (R59). -/
def Memory.hostWrite (m : Memory) (busy : Bool) (a : Nat) (b : Byte) : Memory :=
  { m with
    cells := insertCell m.cells a b
    raced := if busy && !m.raced.contains a then a :: m.raced else m.raced
    unseen := m.unseen.filter (fun e => !(e.1 == a))
    unspecified := m.unspecified.filter (fun x => !(x == a)) }

/-- What a listed byte, or none, reads as in this memory. -/
def Memory.valueOf (m : Memory) (a : Nat) (v : Option Byte) : Byte := v.getD (Config.powerOnByte m.epoch a)

/-- The values a byte has held since before the first write of a run whose end the host has not seen, the present value
first (R59(d)). -/
def Memory.held (m : Memory) (a : Nat) : List Byte :=
  m.peek a :: ((m.log ++ m.unseen).filter (fun e => e.1 == a)).map (fun e => m.valueOf a e.2)

/-- What a host read of one byte returns: the byte held there, or, when a run whose end the host has not seen wrote it,
one of the values it has held (R58(b), R59(d)); unspecified when the host raced with the run on it. -/
def Memory.hostRead (m : Memory) (a : Nat) : Byte :=
  if m.raced.contains a && m.runWrote a then Config.hostRacedByte m.draws a
  else (m.held a).getD (Config.heldPick m.draws a % (m.held a).length) (m.peek a)

/-- The memory once the host has read STATUS and seen BUSY = 0 (R58(b)). -/
def Memory.acknowledge (m : Memory) : Memory := { m with unseen := [] }

end Sys2Proof.Machine
end

