-- ==== Sys2Proof/Machine/Operands.lean ====
section
/-! DEFINITION. The operand forms: wire formats (R70), wire samples (R111), channel streams (R17), spans and their checks
(R51, R54, R101), and the signed fields SHIFT and VOLUME (R73, R77). -/

namespace Sys2Proof.Machine

/-! ## Wire formats (R70) -/

/-- The byte count B = W/8 of a format: WSEL + 1. -/
def fmtBytes (fmt : Byte) : Nat := (fmt.extractLsb' 0 2).toNat + 1

/-- The width W of a format in bits. -/
def fmtWidth (fmt : Byte) : Nat := 8 * fmtBytes fmt

/-- U: the format is unsigned (offset binary). -/
def fmtUnsigned (fmt : Byte) : Bool := fmt.getLsbD 2

/-- BE: the format is big-endian. -/
def fmtBigEndian (fmt : Byte) : Bool := fmt.getLsbD 3

/-- F: the format is the IEEE-754 binary32 float. -/
def fmtFloat (fmt : Byte) : Bool := fmt.getLsbD 4

/-- `read_wire` (R111): the unsigned W-bit pattern at an address. -/
def readWire (m : Memory) (key : Nat) (fmt : Byte) (a : Nat) : Nat :=
  if fmtBigEndian fmt then m.readBE key a (fmtBytes fmt) else m.read key a (fmtBytes fmt)

/-- `write_wire` (R111). -/
def writeWire (m : Memory) (fmt : Byte) (a raw : Nat) : Memory :=
  if fmtBigEndian fmt then m.writeBE a (fmtBytes fmt) raw else m.write a (fmtBytes fmt) raw

/-! ## Signed fields -/

/-- SHIFT as a signed count (R73). -/
def shiftOf (shift : Byte) : Int := shift.toInt

/-- VOLUME as a signed multiplier (R77). -/
def volumeOf (volume : Word) : Int := volume.toInt

/-! ## Addresses -/

/-- The byte address of frame i's sample in a channel stream (R17). -/
def Stream.sampleAddr (st : Stream) (i : Nat) : Nat :=
  st.base.toNat + 8 * (i * st.nch.toNat + st.ch.toNat)

/-- The bytes of a stream's span: whole frames (R54). -/
def Stream.spanBytes (st : Stream) (count : Word) : Nat := 8 * count.toNat * st.nch.toNat

/-- The addresses of `n` bytes from `a` on. -/
def byteRange (a n : Nat) : List Nat := (List.range n).map (fun k => a + k)

/-- The addresses of the samples of `count` frames of a channel stream. -/
def Stream.sampleBytes (st : Stream) (count : Word) : List Nat :=
  (List.range count.toNat).flatMap (fun i => byteRange (Stream.sampleAddr st i) 8)

/-! ## Checks (R101); none says that the check passes -/

/-- `check_align8(a)` (R101, R51). -/
def checkAlign8 (a : Word) : Option FaultReport :=
  if a.toNat % 8 = 0 then none else some ⟨.misaligned, a⟩

/-- `check_range(a, n)` (R101, R54): on unbounded integers. -/
def checkRange (c : Config) (a : Word) (n : Nat) : Option FaultReport :=
  if c.memSize < a.toNat + n then some ⟨.access, a⟩ else none

end Sys2Proof.Machine
end

