-- ==== Sys2Proof/Machine/Ops.lean ====
section
/-! DEFINITION. The shared operations over the state: gain entries, fetch, the end of a command, and the four ways a run
starts and ends (R91, R95, R96, R97). `takeFault` is the block's taking of an exception; its return from one is the
host's next START (R207), `startRun`. -/

namespace Sys2Proof.Machine

/-! ## Gain entries (R34) -/

/-- `GAIN[b][c]`. -/
def gainGet (g : Gains) (bank ch : Nat) : Word := ((g[bank]?).bind (fun e => e[ch]?)).getD unityGain

/-- `GAIN[b][c] <- v`. -/
def gainSet (g : Gains) (bank ch : Nat) (v : Word) : Gains :=
  match g[bank]? with
  | none => g
  | some e => g.setIfInBounds bank (e.setIfInBounds ch v)

/-! ## Fetch (R93) -/

/-- The key of the fetch's reads; a command's own reads have keys from 1 on. -/
def fetchKey : Nat := 0

/-- Word k of the descriptor at CMD_PTR: `MemRead(CMD_PTR + 4k, 4)` (R92). -/
def fetchWord (s : State) (k : Nat) : Word := BitVec.ofNat 32 (s.mem.read fetchKey (s.cmdPtr.toNat + 4 * k) 4)

/-- W0 … W7 at CMD_PTR (R92, R93). -/
def fetchWords (s : State) : Words :=
  ⟨fetchWord s 0, fetchWord s 1, fetchWord s 2, fetchWord s 3, fetchWord s 4, fetchWord s 5, fetchWord s 6, fetchWord s 7⟩

/-- The fetch's own check: `CMD_PTR + 32 > MEM_SIZE` (R93). -/
def fetchInRange (s : State) : Bool := s.cmdPtr.toNat + Config.cmdBytes ≤ s.config.memSize

/-! ## Runs -/

/-- The registers as they stand at a command boundary (R104). -/
def State.boundary (s : State) : Boundary := ⟨s.cmdPtr, s.lfsr, s.gains⟩

/-- START accepted (R91): the run is at its first command boundary. The caller checks BUSY = 0 and RESET = 0. -/
def State.startRun (s : State) : State :=
  { s with
    done := false
    fault := false
    stopped := false
    faultCause := .none
    faultInfo := 0
    busy := true
    boundaries := [s.boundary]
    executing := false }

/-- HALT ends the run (R95): CMD_PTR stays on the HALT. -/
def State.takeHalt (s : State) : State :=
  { s with busy := false, done := true, stopPending := false, mem := s.mem.endRun, boundaries := [], executing := false }

/-- A fault ends the run (R96, R203, R206): CMD_PTR stays on the faulting command. -/
def State.takeFault (s : State) (f : FaultReport) : State :=
  { s with
    busy := false
    fault := true
    stopPending := false
    faultCause := f.cause
    faultInfo := f.info
    mem := s.mem.endRun
    boundaries := []
    executing := false }

/-- A stop request ends the run at a command boundary (R97). -/
def State.takeStop (s : State) : State :=
  { s with busy := false, stopped := true, stopPending := false, mem := s.mem.endRun, boundaries := [], executing := false }

/-- The end of a command that completed (R94): CMD_PTR moves to the next descriptor, modulo 2^32, and the run reaches the
next command boundary (R104). -/
def State.advance (s : State) : State :=
  let next := { s with cmdPtr := s.cmdPtr + BitVec.ofNat 32 Config.cmdBytes, mem := s.mem.tick, executing := false }
  { next with boundaries := next.boundary :: s.boundaries }

/-- Check, then execute (R100): the first failing check is the fault raised and nothing else happens; when all pass, the
command has its effect and completes. -/
def State.commit (s : State) (check : Option FaultReport) (effect : State) : State :=
  match check with
  | some f => s.takeFault f
  | none => effect.advance

end Sys2Proof.Machine
end

