-- ==== Sys2Proof/Machine/Codec.lean ====
section
/-! DEFINITION. The CODEC unit (spec/41_codec.md): the conversion functions and IMPORT, EXPORT, SILENCE, MAXV. -/

namespace Sys2Proof.Machine

/-! ## Conversion functions -/

/-- `max_of(fmt)` (R118). -/
def maxOf (fmt : Byte) : Int :=
  if fmtFloat fmt then 2 ^ Config.floatScaleLog2 - 1 else 2 ^ (fmtWidth fmt - 1) - 1

/-- `min_of(fmt)` (R119). -/
def minOf (fmt : Byte) : Int :=
  if fmtFloat fmt then -(2 ^ Config.floatScaleLog2) else -(2 ^ (fmtWidth fmt - 1))

/-- `decode_int(fmt, raw)` (R112). -/
def decodeInt (fmt : Byte) (raw : Nat) : Int :=
  sext (fmtWidth fmt) (if fmtUnsigned fmt then raw ^^^ 2 ^ (fmtWidth fmt - 1) else raw)

/-- `decode_f32(raw)` (R113), over the binary32 layout that the rule states. -/
def decodeF32 (raw : Nat) : Int :=
  let negative : Bool := raw.testBit 31
  let e : Nat := raw / 2 ^ 23 % 2 ^ 8
  let m : Nat := raw % 2 ^ 23
  if e = 0 then 0
  else if 127 ≤ e then if negative then -(2 ^ 31) else 2 ^ 31 - 1
  else
    let mag := shl ((2 ^ 23 + m : Nat) : Int) ((e : Int) - 119)
    if negative then -mag else mag

/-- Import of one wire sample (R116): float or integer by F. -/
def importSample (fmt : Byte) (raw : Nat) : Int := if fmtFloat fmt then decodeF32 raw else decodeInt fmt raw

/-- `encode_int(fmt, v)` (R120). -/
def encodeInt (fmt : Byte) (v : Int) : Nat :=
  let raw := (clamp v (minOf fmt) (maxOf fmt) % 2 ^ fmtWidth fmt).toNat
  if fmtUnsigned fmt then raw ^^^ 2 ^ (fmtWidth fmt - 1) else raw

/-- `encode_f32(v)` (R121). -/
def encodeF32 (v : Int) : Nat :=
  let c := clamp v (-(2 ^ 31)) (2 ^ 31 - 1)
  if c = 0 then 0x00000000
  else if c = 2 ^ 31 - 1 then 0x3F800000
  else if c = -(2 ^ 31) then 0xBF800000
  else
    let mag : Nat := (absInt c).toNat
    let k : Nat := mag.log2
    let frac : Nat := (shl (mag : Int) (23 - (k : Int))).toNat
    (if c < 0 then 2 ^ 31 else 0) + (k + 96) * 2 ^ 23 + (frac - 2 ^ 23)

/-- Export of one canonical sample (R124): float or integer by F. -/
def exportSample (fmt : Byte) (v : Int) : Nat := if fmtFloat fmt then encodeF32 v else encodeInt fmt v

/-! ## IMPORT (R116) -/

/-- IMPORT's memory checks. -/
def importCheck (c : Config) (fmt : Byte) (count src dst : Word) : Option FaultReport :=
  if count = 0 then none
  else (checkAlign8 dst).or ((checkRange c src (count.toNat * fmtBytes fmt)).or (checkRange c dst (count.toNat * 8)))

/-- One element of IMPORT. -/
def importStep (fmt : Byte) (src dst : Word) (i : Nat) (m : Memory) : Memory :=
  m.writeCanon (dst.toNat + 8 * i) (importSample fmt (readWire m (i + 1) fmt (src.toNat + i * fmtBytes fmt)))

/-- The bytes IMPORT writes (R52). -/
def importDest (count dst : Word) : List Nat := byteRange dst.toNat (count.toNat * 8)

/-- IMPORT (R116). -/
def execImport (fmt : Byte) (count src dst : Word) (s : State) : Host.Outcome State Fault Refusal :=
  .next (s.commit ((fieldFault (.importWire fmt count src dst)).or (importCheck s.config fmt count src dst))
    { s with mem := loop count.toNat (importStep fmt src dst) s.mem })

/-! ## EXPORT (R124) -/

/-- EXPORT's memory checks. -/
def exportCheck (c : Config) (fmt : Byte) (count src dst : Word) : Option FaultReport :=
  if count = 0 then none
  else (checkAlign8 src).or ((checkRange c src (count.toNat * 8)).or (checkRange c dst (count.toNat * fmtBytes fmt)))

/-- One element of EXPORT. -/
def exportStep (fmt : Byte) (src dst : Word) (i : Nat) (m : Memory) : Memory :=
  writeWire m fmt (dst.toNat + i * fmtBytes fmt) (exportSample fmt (m.readCanon (i + 1) (src.toNat + 8 * i)))

/-- The bytes EXPORT or SILENCE writes (R52). -/
def wireDest (fmt : Byte) (count dst : Word) : List Nat := byteRange dst.toNat (count.toNat * fmtBytes fmt)

/-- EXPORT (R124). -/
def execExport (fmt : Byte) (count src dst : Word) (s : State) : Host.Outcome State Fault Refusal :=
  .next (s.commit ((fieldFault (.exportWire fmt count src dst)).or (exportCheck s.config fmt count src dst))
    { s with mem := loop count.toNat (exportStep fmt src dst) s.mem })

/-! ## SILENCE (R130) -/

/-- SILENCE's memory check. -/
def silenceCheck (c : Config) (fmt : Byte) (count dst : Word) : Option FaultReport :=
  if count = 0 then none else checkRange c dst (count.toNat * fmtBytes fmt)

/-- One element of SILENCE. -/
def silenceStep (fmt : Byte) (dst : Word) (i : Nat) (m : Memory) : Memory :=
  writeWire m fmt (dst.toNat + i * fmtBytes fmt) (exportSample fmt 0)

/-- SILENCE (R130). -/
def execSilence (fmt : Byte) (count dst : Word) (s : State) : Host.Outcome State Fault Refusal :=
  .next (s.commit ((fieldFault (.silence fmt count dst)).or (silenceCheck s.config fmt count dst))
    { s with mem := loop count.toNat (silenceStep fmt dst) s.mem })

/-! ## MAXV (R134) -/

/-- MAXV's memory checks. -/
def maxvCheck (c : Config) (dst : Word) : Option FaultReport := (checkAlign8 dst).or (checkRange c dst 8)

/-- The bytes MAXV writes (R52). -/
def maxvDest (dst : Word) : List Nat := byteRange dst.toNat 8

/-- MAXV (R134). -/
def execMaxv (fmt : Byte) (dst : Word) (s : State) : Host.Outcome State Fault Refusal :=
  .next (s.commit ((fieldFault (.maxv fmt dst)).or (maxvCheck s.config dst))
    { s with mem := s.mem.writeCanon dst.toNat (maxOf fmt) })

end Sys2Proof.Machine
end

