-- ==== Sys2Proof/Machine/Compressor.lean ====
section
/-! DEFINITION. The COMP unit (spec/43_compressor.md): the limiter, COMP and GAININIT. -/

namespace Sys2Proof.Machine

/-- Unity gain as an integer, 2^31 (R156). -/
def unityInt : Int := 2 ^ Config.gainFracBits

/-- The knee threshold T (R157). -/
def kneeThreshold (fmt knee : Byte) : Int := floorDiv (maxOf fmt * (knee.toNat : Int)) Config.kneeMax

/-- The first action of R158: the gain moves toward the target while the sample is above the threshold (R159). -/
def attackGain (threshold : Int) (attack : Nat) (gain a : Int) : Int :=
  let m := absInt a
  if threshold < m then
    let target := min gain (floorDiv (threshold * unityInt) m)
    gain - floorDiv (gain - target) (2 ^ attack)
  else gain

/-- The third action of R158: the gain relaxes toward unity (R159). -/
def relaxGain (decay : Nat) (gain : Int) : Int := gain + floorDiv (unityInt - gain) (2 ^ decay)

/-- `comp_sample` (R159): the sample written back and the gain entry afterwards. -/
def compSample (threshold : Int) (attack decay : Nat) (gain a : Int) : Int × Int :=
  let g := attackGain threshold attack gain a
  (floorDiv (a * g) unityInt, relaxGain decay g)

/-- COMP's memory checks (R160): none when EN = 0 or COUNT = 0. -/
def compCheck (c : Config) (en : Bool) (count buf : Word) (nch : Byte) : Option FaultReport :=
  if en = false ∨ count = 0 then none
  else (checkAlign8 buf).or (checkRange c buf (8 * count.toNat * nch.toNat))

/-- One sample of COMP (R160): frame i, channel c. -/
def compStep (threshold : Int) (buf : Word) (nch : Byte) (par : CompParams) (i c : Nat) (p : Memory × Gains) :
    Memory × Gains :=
  let j := i * nch.toNat + c
  let addr := buf.toNat + 8 * j
  let r := compSample threshold par.attack.toNat par.decay.toNat ((gainGet p.2 par.bank.toNat c).toNat : Int)
    (p.1.readCanon (j + 1) addr)
  (p.1.writeCanon addr r.1, gainSet p.2 par.bank.toNat c (BitVec.ofInt 32 r.2))

/-- One frame of COMP, its channels in increasing order (R164). -/
def compFrame (threshold : Int) (buf : Word) (nch : Byte) (par : CompParams) (i : Nat) (p : Memory × Gains) :
    Memory × Gains :=
  loop nch.toNat (compStep threshold buf nch par i) p

/-- How many frames COMP processes: none when it is disabled (R160, R161). -/
def compFrames (en : Bool) (count : Word) : Nat := if en then count.toNat else 0

/-- COMP (R160). -/
def execComp (fmt : Byte) (en : Bool) (count buf : Word) (nch : Byte) (par : CompParams) (s : State) :
    Host.Outcome State Fault Refusal :=
  let p := loop (compFrames en count) (compFrame (kneeThreshold fmt par.knee) buf nch par) (s.mem, s.gains)
  .next (s.commit ((fieldFault (.comp fmt en count buf nch par)).or (compCheck s.config en count buf nch))
    { s with mem := p.1, gains := p.2 })

/-- The bytes COMP writes (R52). -/
def compDest (en : Bool) (count buf : Word) (nch : Byte) : List Nat :=
  byteRange buf.toNat (8 * (compFrames en count * nch.toNat))

/-- GAININIT (R165). -/
def execGaininit (bank : Byte) (s : State) : Host.Outcome State Fault Refusal :=
  .next (s.commit (fieldFault (.gaininit bank))
    { s with gains := loop Config.maxChannels (fun c g => gainSet g bank.toNat c unityGain) s.gains })

end Sys2Proof.Machine
end

