-- ==== Sys2Proof/Machine/Control.lean ====
section
/-! DEFINITION. The one command of no unit, HALT (spec/40_sequencer.md). -/

namespace Sys2Proof.Machine

/-- HALT (R95). -/
def execHalt (s : State) : Host.Outcome State Fault Refusal := .next s.takeHalt

end Sys2Proof.Machine
end

