-- ==== Sys2Proof/Machine/Fir.lean ====
section
/-! DEFINITION. The FIR unit (spec/44_fir.md): the state block, the block convolution and FIR. -/

namespace Sys2Proof.Machine

/-! ## The state block (R176) -/

/-- The address of IN[j]. -/
def firIn (st j : Nat) : Nat := st + 8 + 8 * j

/-- The address of OUT[j]. -/
def firOut (st n j : Nat) : Nat := st + 8 + 8 * n + 8 * j

/-- The address of H[m]. -/
def firCoeff (st n m : Nat) : Nat := st + 8 + 24 * n + 4 * m

/-- The bytes of a state block with kernel length N. -/
def firBlockBytes (n : Nat) : Nat := 8 + 28 * n

/-- The key of the header's reads. -/
def firHeaderKey : Nat := 1

/-- N of the state block (R176). -/
def firLen (m : Memory) (st : Nat) : Nat := m.read firHeaderKey st 4

/-- OFF of the state block (R176). -/
def firOff (m : Memory) (st : Nat) : Nat := m.read firHeaderKey (st + 4) 4

/-! ## Checks (R179) -/

/-- N is a power of two. -/
def isPowerOfTwo (n : Nat) : Bool := n != 0 && 2 ^ n.log2 == n

/-- R180: the state block and the buffer span share a byte. -/
def firOverlap (buf : Stream) (count st : Word) (n : Nat) : Bool :=
  st.toNat < buf.base.toNat + Stream.spanBytes buf count && buf.base.toNat < st.toNat + firBlockBytes n

/-- FIR's checks after the header is read (R179). -/
def firStateCheck (c : Config) (count : Word) (buf : Stream) (st : Word) (n off : Nat) : Option FaultReport :=
  if n = 0 then none
  else if isPowerOfTwo n = false ∨ Config.firMaxLen < n then some ⟨.firState, st⟩
  else if n ≤ off then some ⟨.firState, st⟩
  else
    (checkAlign8 buf.base).or ((checkRange c buf.base (Stream.spanBytes buf count)).or
      ((checkRange c st (firBlockBytes n)).or (if firOverlap buf count st n then some ⟨.overlap, st⟩ else none)))

/-- FIR's checks in the order of R179. -/
def firCheck (c : Config) (m : Memory) (count : Word) (buf : Stream) (st : Word) : Option FaultReport :=
  if count = 0 then none
  else if st = 0 then none
  else (checkAlign8 st).or ((checkRange c st 8).or
    (firStateCheck c count buf st (firLen m st.toNat) (firOff m st.toNat)))

/-- The command filters: neither COUNT = 0, nor a NULL kernel, nor a disabled filter (R177, R179). -/
def firActive (m : Memory) (count st : Word) : Bool := count != 0 && st != 0 && firLen m st.toNat != 0

/-! ## The block convolution (R181) -/

/-- P[j]: the sum of H[m] × IN[j−m] over 0 ≤ m ≤ N−1 and 0 ≤ j−m ≤ N−1. -/
def convSum (n : Nat) (h x : Nat → Int) (j : Nat) : Int :=
  sumTo n (fun m => if m ≤ j ∧ j - m < n then h m * x (j - m) else 0)

/-- p[j] = floor_div(P[j], 2^30). -/
def convOut (n : Nat) (h x : Nat → Int) (j : Nat) : Int := floorDiv (convSum n h x j) (2 ^ Config.firFracBits)

/-- H[m] of the state block (R178). -/
def readCoeff (m : Memory) (key st n i : Nat) : Int := sext 32 (m.read key (firCoeff st n i) 4)

/-- IN[j] of the state block. -/
def readIn (m : Memory) (key st j : Nat) : Int := m.readCanon key (firIn st j)

/-- OUT[j] of the state block. -/
def readOut (m : Memory) (key st n j : Nat) : Int := m.readCanon key (firOut st n j)

/-- The completed block (R182): the product of IN and H is added into the output history, shifted down by N. -/
def firBlock (key st n : Nat) (m : Memory) : Memory :=
  let p := convOut n (readCoeff m key st n) (readIn m key st)
  let low := loop n (fun j m' => m'.writeCanon (firOut st n j) (wrap64 (readOut m' key st n (n + j) + p j))) m
  loop n (fun j m' => m'.writeCanon (firOut st n (n + j)) (wrap64 (p (n + j)))) low

/-- `fir_sample(x)` (R182): the sample returned, and the memory and OFF afterwards. -/
def firSample (key st n : Nat) (x : Int) (m : Memory) (off : Nat) : Int × Memory × Nat :=
  let m := m.writeCanon (firIn st off) x
  let y := readOut m key st n off
  if off + 1 = n then (y, firBlock key st n m, 0) else (y, m, off + 1)

/-! ## The command (R183) -/

/-- One frame of FIR, over the memory and OFF. -/
def firStep (buf : Stream) (st n : Nat) (i : Nat) (p : Memory × Nat) : Memory × Nat :=
  let addr := Stream.sampleAddr buf i
  let r := firSample (i + 2) st n (p.1.readCanon (i + 2) addr) p.1 p.2
  (r.2.1.writeCanon addr r.1, r.2.2)

/-- FIR's effect on memory once the checks pass (R177, R183). -/
def firRun (m : Memory) (count : Word) (buf : Stream) (st : Word) : Memory :=
  if firActive m count st then
    let p := loop count.toNat (firStep buf st.toNat (firLen m st.toNat)) (m, firOff m st.toNat)
    p.1.write (st.toNat + 4) 4 p.2
  else m

/-- FIR (R183). -/
def execFir (count : Word) (buf : Stream) (state : Word) (s : State) : Host.Outcome State Fault Refusal :=
  .next (s.commit ((fieldFault (.fir count buf state)).or (firCheck s.config s.mem count buf state))
    { s with mem := firRun s.mem count buf state })

/-- The bytes FIR writes: the channel stream's words and OFF, IN and OUT of the state block (R52, R232). -/
def firDest (m : Memory) (count : Word) (buf : Stream) (st : Word) : List Nat :=
  if firActive m count st then
    Stream.sampleBytes buf count ++ byteRange (st.toNat + 4) (4 + 24 * firLen m st.toNat)
  else []

end Sys2Proof.Machine
end

