-- ==== Sys2Proof/Machine/Mixer.lean ====
section
/-! DEFINITION. The MIXER unit (spec/42_mixer.md): the dither generator, the mixing term and MIX. -/

namespace Sys2Proof.Machine

/-- `lfsr_step(x)` (R143). -/
def lfsrStep (x : Word) : Word := if x.getLsbD 0 then (x >>> 1) ^^^ Config.lfsrMask else x >>> 1

/-- `dither_value(x)` = x[0] − x[1] (R143). -/
def ditherValue (x : Word) : Int := (x.getLsbD 0).toInt - (x.getLsbD 1).toInt

/-- `term(s)` (R144) and the generator state after it. -/
def mixTerm (flags : MixFlags) (shift volume s : Int) (lfsr : Word) : Int × Word :=
  if flags.mute then (0, lfsr)
  else
    let after := if flags.dither then lfsrStep lfsr else lfsr
    let signal := shl (s * volume) shift
    let t := if flags.dither then signal + shl (ditherValue after * volume) shift else signal
    (if flags.invert then -t else t, after)

/-- MIX's memory checks (R145). -/
def mixCheck (c : Config) (count : Word) (src dst : Stream) : Option FaultReport :=
  if count = 0 then none
  else
    ((checkAlign8 src.base).or (checkAlign8 dst.base)).or
      ((checkRange c src.base (Stream.spanBytes src count)).or (checkRange c dst.base (Stream.spanBytes dst count)))

/-- One frame of MIX (R145), over the memory and the generator state. -/
def mixStep (flags : MixFlags) (shift : Byte) (src dst : Stream) (volume : Word) (i : Nat) (p : Memory × Word) :
    Memory × Word :=
  let s := p.1.readCanon (2 * i + 1) (Stream.sampleAddr src i)
  let t := mixTerm flags (shiftOf shift) (volumeOf volume) s p.2
  let base := if flags.assign then 0 else p.1.readCanon (2 * i + 2) (Stream.sampleAddr dst i)
  (p.1.writeCanon (Stream.sampleAddr dst i) (wrap64 (base + t.1)), t.2)

/-- MIX (R145). -/
def execMix (flags : MixFlags) (shift : Byte) (count : Word) (src dst : Stream) (volume : Word) (s : State) :
    Host.Outcome State Fault Refusal :=
  let p := loop count.toNat (mixStep flags shift src dst volume) (s.mem, s.lfsr)
  .next (s.commit ((fieldFault (.mix flags shift count src dst volume)).or (mixCheck s.config count src dst))
    { s with mem := p.1, lfsr := p.2 })

end Sys2Proof.Machine
end

