-- ==== Sys2Proof/Machine/Dispatch.lean ====
section
/-! DEFINITION. One arm per command: what executing it does (R92, R100, R105). -/

namespace Sys2Proof.Machine

def exec (i : Instr) (s : State) : Host.Outcome State Fault Refusal :=
  match i with
  | .halt => Sys2Proof.Machine.execHalt s
  | .importWire fmt count src dst => Sys2Proof.Machine.execImport fmt count src dst s
  | .exportWire fmt count src dst => Sys2Proof.Machine.execExport fmt count src dst s
  | .silence fmt count dst => Sys2Proof.Machine.execSilence fmt count dst s
  | .maxv fmt dst => Sys2Proof.Machine.execMaxv fmt dst s
  | .mix flags shift count src dst volume => Sys2Proof.Machine.execMix flags shift count src dst volume s
  | .comp fmt en count buf nch par => Sys2Proof.Machine.execComp fmt en count buf nch par s
  | .gaininit bank => Sys2Proof.Machine.execGaininit bank s
  | .fir count buf state => Sys2Proof.Machine.execFir count buf state s

end Sys2Proof.Machine
end

