-- ==== Sys2Proof/Machine/Sequencer.lean ====
section
/-! DEFINITION. The sequencer (R90, R92): the boundary it passes before a command, the command it runs, and what that
command is doing while the host acts during it. -/

namespace Sys2Proof.Machine

/-- The step of R92 after the boundary: a fetch fault, a decode fault, or the command at CMD_PTR. -/
def runCommand (s : State) : Host.Outcome State Fault Refusal :=
  if fetchInRange s then
    match decode (fetchWords s) with
    | .error f => .next (s.takeFault f)
    | .ok i => exec i s
  else .next (s.takeFault ⟨.fetchAccess, s.cmdPtr⟩)

/-- The sequencer is at a command boundary of a run with a stop request pending (R97, R98). -/
def State.stopsHere (s : State) : Bool := s.busy && s.stopPending && !s.executing

/-- The sequencer's turn (R90, R92): idle, it does nothing; at a command boundary it takes a pending stop; else it runs the
command at CMD_PTR to its end. -/
def sequencerStep (s : State) : Host.Outcome State Fault Refusal :=
  if s.stopsHere then .next s.takeStop
  else if s.busy then runCommand s
  else .next s

/-- The sequencer passes a command boundary (R104): it takes a pending stop, and otherwise the command at CMD_PTR is now
executing. -/
def State.beginCommand (s : State) : State :=
  if s.stopsHere then s.takeStop
  else { s with executing := s.busy }

/-! ## The executing command -/

/-- The memory as the executing command will leave it, the present one where none is executing or where it ends the run.
It holds every value that the command may have written so far (R59(d)). DESIGN CHOICE (log entry 19): where the command
reads a byte the host has raced with, this memory draws its value (R59(b)) under the number of the host access that looks,
and the command's own turn draws it again under a later number, so a host read may show a byte the command then does not
write. -/
def State.wholeMemory (s : State) : Memory :=
  if s.executing then
    match runCommand s with
    | .next t => if t.busy then { t.mem with draws := s.mem.draws } else s.mem
    | .fault _ => s.mem
    | .refused _ => s.mem
  else s.mem

/-- The memory checks a command makes once its fields are legal (R100, R179). -/
def memoryCheck (i : Instr) (s : State) : Option FaultReport :=
  match i with
  | .halt => none
  | .importWire fmt count src dst => importCheck s.config fmt count src dst
  | .exportWire fmt count src dst => exportCheck s.config fmt count src dst
  | .silence fmt count dst => silenceCheck s.config fmt count dst
  | .maxv _ dst => maxvCheck s.config dst
  | .mix _ _ count src dst _ => mixCheck s.config count src dst
  | .comp _ en count buf nch _ => compCheck s.config en count buf nch
  | .gaininit _ => none
  | .fir count buf state => firCheck s.config s.mem count buf state

/-- Every check a command makes: its fields, then its memory (R204). -/
def commandCheck (i : Instr) (s : State) : Option FaultReport := (fieldFault i).or (memoryCheck i s)

/-- The bytes a command that passes its checks may write (R52, R232). -/
def destBytes (i : Instr) (m : Memory) : List Nat :=
  match i with
  | .halt => []
  | .importWire _ count _ dst => importDest count dst
  | .exportWire fmt count _ dst => wireDest fmt count dst
  | .silence fmt count dst => wireDest fmt count dst
  | .maxv _ dst => maxvDest dst
  | .mix _ _ count _ dst _ => Stream.sampleBytes dst count
  | .comp _ en count buf nch _ => compDest en count buf nch
  | .gaininit _ => []
  | .fir count buf state => firDest m count buf state

/-- The destination bytes of the executing command: none where no command is executing, or one that ends the run. -/
def inFlightBytes (s : State) : List Nat :=
  if s.busy && s.executing && fetchInRange s then
    match decode (fetchWords s) with
    | .error _ => []
    | .ok i => if commandCheck i s = none then destBytes i s.mem else []
  else []

end Sys2Proof.Machine
end

