-- ==== Sys2Proof/Machine/HostPort.lean ====
section
/-! DEFINITION. The host's side of the block: the register window (R23 to R33, R37 to R40), the strobes of CTRL (R25), the
two resets (R230 to R232), and the host's accesses to the shared memory (R58, R59). -/

namespace Sys2Proof.Machine

/-! ## Resets -/

/-- Every register and gain entry at its reset value (R43, R230), the run's bookkeeping gone. Memory, the configuration
and the host's coming actions are not the block's to reset (R235). -/
def State.resetRegisters (s : State) : State :=
  { State.reset with config := s.config, mem := s.mem, schedule := s.schedule, reply := s.reply }

/-- The RESET strobe (R231): the registers are reset and a run in progress ends. The destination bytes of a command that is
executing are unspecified (R232); at a command boundary or while idle memory is unchanged, but for one thing (DESIGN CHOICE,
log entry 7): a byte that both the host and the run wrote is unspecified at the end of this run as of any (R59(c), R99),
although R232 says that such a reset leaves all memory unchanged. -/
def State.resetStrobe (s : State) : State :=
  { s.resetRegisters with
    mem := if s.busy then (s.mem.cutShort s.wholeMemory (inFlightBytes s)).endRun else s.mem }

/-- Power-on reset (R230): every memory byte is a new draw (R47). -/
def State.powerOn (s : State) : State :=
  { s.resetRegisters with mem := Memory.atPowerOn (s.mem.epoch + 1) s.mem.draws, reply := .none }

/-! ## The register window -/

/-- A read of GAIN_DATA through GAIN_IDX (R32, R33) in given gain banks. During a run the banks are those of a boundary and
GAIN_IDX is the present one, also where the host wrote it since that boundary (R39, R40; DESIGN CHOICE, log entry 6). -/
def gainData (idx : Word) (g : Gains) : Word :=
  gainGet g (idx.extractLsb' 8 4).toNat (idx.extractLsb' 0 6).toNat

/-- The registers a host read shows: the present ones, or during a run those of some boundary of the run (R40). -/
def State.visibleBoundary (s : State) : Boundary :=
  if s.busy then (s.boundaries[Config.boundaryPick s.mem.draws % s.boundaries.length]?).getD s.boundary
  else s.boundary

/-- A read of the register at an offset (R23 to R33, R37). GAIN_DATA in a run: the entry that the present GAIN_IDX selects, at
a boundary (R40; DESIGN CHOICE, log entry 6). -/
def State.readRegister (s : State) (offset : Nat) : Word :=
  match offset with
  | 0x00 => Config.idValue
  | 0x04 => 0
  | 0x08 => s.statusWord
  | 0x0C => s.irqEn
  | 0x10 => s.visibleBoundary.cmdPtr
  | 0x14 => (causeCode s.faultCause).setWidth 32
  | 0x18 => s.faultInfo
  | 0x1C => s.visibleBoundary.lfsr
  | 0x20 => s.gainIdx
  | 0x24 => gainData s.gainIdx s.visibleBoundary.gains
  | _ => 0

/-- A CTRL write (R25): RESET first; else START when idle, then STOP when a run is in progress, also one this write
started. -/
def State.writeCtrl (s : State) (v : Word) : State :=
  if v.getLsbD 2 then s.resetStrobe
  else
    let started := if v.getLsbD 0 && !s.busy then s.startRun else s
    if v.getLsbD 1 && started.busy then { started with stopPending := true } else started

/-- A STATUS write (R26): writing 1 clears DONE, FAULT or STOPPED. -/
def State.writeStatus (s : State) (v : Word) : State :=
  { s with
    done := s.done && !v.getLsbD 1
    fault := s.fault && !v.getLsbD 2
    stopped := s.stopped && !v.getLsbD 3 }

/-- A GAIN_DATA write while idle (R33): `min(v, 2^31)`. -/
def State.writeGainData (s : State) (v : Word) : State :=
  { s with
    gains := gainSet s.gains (s.gainIdx.extractLsb' 8 4).toNat (s.gainIdx.extractLsb' 0 6).toNat
      (if v ≤ unityGain then v else unityGain) }

/-- A write of the register at an offset (R23 to R33, R37, R39). -/
def State.writeRegister (s : State) (offset : Nat) (v : Word) : State :=
  match offset with
  | 0x04 => s.writeCtrl v
  | 0x08 => s.writeStatus v
  | 0x0C => { s with irqEn := v &&& 0x0000000E }
  | 0x10 => if s.busy then s else { s with cmdPtr := v &&& 0xFFFFFFE0 }
  | 0x1C => if s.busy then s else { s with lfsr := v }
  | 0x20 => { s with gainIdx := v &&& 0x00000F3F }
  | 0x24 => if s.busy then s else s.writeGainData v
  | _ => s

/-- Only an aligned 32-bit access of the window is defined (R38). -/
def windowAccessDefined (offset : BitVec 6) (bytes : Nat) : Bool := bytes == 4 && offset.toNat % 4 == 0

/-- The state after the host's access, the next free value a fresh one: also those of the executing command's reads of raced
bytes (DESIGN CHOICE, log entry 19). -/
def State.afterAccess (s : State) (reply : Reply) : State := { s with mem := s.mem.tick, reply := reply }

/-- A STATUS read that shows BUSY = 0 makes the run's writes visible to the host (R58(b)). -/
def State.seenStatus (s : State) (offset : Nat) : State :=
  if offset = 0x08 ∧ s.busy = false then { s with mem := s.mem.acknowledge } else s

/-- An address the memory has (R45). -/
def addressExists (s : State) (a : Word) : Bool := a.toNat < s.config.memSize

/-- One action of the host or the platform. -/
def hostAct (a : HostAction) (s : State) : Host.Outcome State Fault Refusal :=
  match a with
  | .windowRead offset bytes =>
    if windowAccessDefined offset bytes then
      .next ((s.seenStatus offset.toNat).afterAccess (.word (s.readRegister offset.toNat)))
    else .refused (.windowAccess offset bytes)
  | .windowWrite offset bytes v =>
    if windowAccessDefined offset bytes then .next ((s.writeRegister offset.toNat v).afterAccess .none)
    else .refused (.windowAccess offset bytes)
  | .memRead addr =>
    if addressExists s addr then .next (s.afterAccess (.byte (s.wholeMemory.hostRead addr.toNat)))
    else .fault (.noSuchAddress addr)
  | .memWrite addr v =>
    if addressExists s addr then
      .next ({ s with mem := s.mem.hostWrite s.busy addr.toNat v }.afterAccess .none)
    else .fault (.noSuchAddress addr)
  | .powerOn => .next (s.powerOn.afterAccess .none)

end Sys2Proof.Machine
end

