-- ==== Sys2Proof/Machine/Turn.lean ====
section
/-! DEFINITION. Whose turn it is (R242), and the placing of a descriptor at CMD_PTR. -/

namespace Sys2Proof.Machine

/-- One transition (R242): what the schedule says comes next, else the sequencer's turn. -/
def turn (s : State) : Host.Outcome State Fault Refusal :=
  match s.schedule with
  | [] => sequencerStep s
  | .sequencer :: rest => sequencerStep { s with schedule := rest }
  | .commandBegins :: rest => .next (State.beginCommand { s with schedule := rest })
  | .host a :: rest => hostAct a { s with schedule := rest }

/-- A list of bytes stored by the host from an address on, outside any run. -/
def Memory.load (m : Memory) (a : Nat) (bs : List Byte) : Memory :=
  (bs.foldl (fun p b => (p.1 + 1, p.2.hostWrite false p.1 b)) (a, m)).2

/-- The state in which the next turn is the sequencer's, a run is in progress at a command boundary, and the descriptor at
CMD_PTR is a given list of bytes that the memory is large enough to hold and the host does not write (log entry 8). -/
def State.withDescriptor (s : State) (bs : List Byte) : State :=
  { s with
    config :=
      if fetchInRange s then s.config else { lastAddress := s.cmdPtr + 31 }
    busy := true
    stopPending := false
    executing := false
    mem := { s.mem.load s.cmdPtr.toNat bs with raced := [] }
    schedule := [] }

end Sys2Proof.Machine
end

