-- ==== Sys2Proof/Machine/Step.lean ====
section
/-! DEFINITION. One step of the machine, and the state whose next step runs a given opcode-table word. -/

namespace Sys2Proof.Machine

/-- One step (R92, R242). -/
def step (s : State) : Host.Outcome State Fault Refusal := turn s

/-- `s` with the command whose bits are the `nbits` low bits of `w`, all others 0, where the next step fetches: at CMD_PTR
in memory, with a run in progress and no stop request, and with it the sequencer's turn (log entry 8). -/
def State.withFetchWord (s : State) (nbits w : Nat) : State := s.withDescriptor (tableWordBytes nbits w)

end Sys2Proof.Machine
end

