-- ==== Sys2Proof/Safety.lean ====
section
/-! DEFINITION. What a safe run is, in the terms the statements use: the legal states, what a completed command leaves
alone, a host that does not race, and the launch premises of R237. -/

namespace Sys2Proof.Machine

/-- Every gain entry is legal: 0 … 2^31 (R34). -/
def gainsLegal (g : Gains) : Prop := ∀ b c, gainGet g b c ≤ unityGain

/-- The host has made no access of the kinds (b) and (c) of R59 in the current run: what a proof about a run assumes. -/
def State.quiet (s : State) : Prop := s.mem.raced = []

/-- An address holds a byte that something has written since power-on (R236, R237(e)) and since a reset or the end of a run
last left it unspecified (R59(c), R232). -/
def Memory.defined (m : Memory) (a : Nat) : Bool := (lookupCell m.cells a).isSome && !m.unspecified.contains a

/-- Every register but CMD_PTR, the LFSR and the gain entries is as it was, and so are the configuration and what is the
model's own of the host. -/
structure State.sameRegisters (s t : State) : Prop where
  config : t.config = s.config
  busy : t.busy = s.busy
  done : t.done = s.done
  fault : t.fault = s.fault
  stopped : t.stopped = s.stopped
  stopPending : t.stopPending = s.stopPending
  irqEn : t.irqEn = s.irqEn
  faultCause : t.faultCause = s.faultCause
  faultInfo : t.faultInfo = s.faultInfo
  gainIdx : t.gainIdx = s.gainIdx
  schedule : t.schedule = s.schedule
  reply : t.reply = s.reply
  raced : t.mem.raced = s.mem.raced

/-- Two states hold the same block: every register, gain entry and memory byte, and what a run in progress has of its own.
They may differ in the host's reply, in what the host has seen of memory and in the numbering of free values. -/
structure State.sameBlock (s t : State) : Prop where
  config : t.config = s.config
  cmdPtr : t.cmdPtr = s.cmdPtr
  busy : t.busy = s.busy
  done : t.done = s.done
  fault : t.fault = s.fault
  stopped : t.stopped = s.stopped
  stopPending : t.stopPending = s.stopPending
  irqEn : t.irqEn = s.irqEn
  faultCause : t.faultCause = s.faultCause
  faultInfo : t.faultInfo = s.faultInfo
  lfsr : t.lfsr = s.lfsr
  gainIdx : t.gainIdx = s.gainIdx
  gains : t.gains = s.gains
  boundaries : t.boundaries = s.boundaries
  executing : t.executing = s.executing
  schedule : t.schedule = s.schedule
  raced : t.mem.raced = s.mem.raced
  memory : ∀ a, t.mem.peek a = s.mem.peek a ∧ t.mem.defined a = s.mem.defined a

/-- A command other than HALT has completed: CMD_PTR has advanced (R94) and no register but those it may write has
changed. -/
structure State.completedTo (s t : State) : Prop where
  registers : State.sameRegisters s t
  cmdPtr : t.cmdPtr = s.cmdPtr + 32
  ended : t.executing = false

/-- Memory is the same outside a list of addresses. -/
def Memory.sameOutside (addrs : List Nat) (m m' : Memory) : Prop := ∀ a, a ∉ addrs → m'.peek a = m.peek a

/-- The legal states: what every rule that writes a register or memory keeps. -/
structure State.Inv (s : State) : Prop where
  /-- Memory is in canonical form and lists no address it does not have (R45). -/
  memory : s.mem.wf s.config.memSize = true
  /-- The host has written only addresses the memory has. -/
  raced : ∀ a ∈ s.mem.raced, a < s.config.memSize
  /-- CMD_PTR[4:0] = 0 (R28). -/
  cmdPtr : s.cmdPtr.toNat % 32 = 0
  /-- IRQ_EN's reserved bits are 0 (R27). -/
  irqEn : s.irqEn &&& 0xFFFFFFF1 = 0
  /-- GAIN_IDX's reserved bits are 0 (R32). -/
  gainIdx : s.gainIdx &&& 0xFFFFF0C0 = 0
  /-- No gain entry is above unity (R34). -/
  gains : gainsLegal s.gains
  /-- At most one of DONE, FAULT and STOPPED is 1 (R26). -/
  oneEnd : (s.done && s.fault) = false ∧ (s.done && s.stopped) = false ∧ (s.fault && s.stopped) = false
  /-- While BUSY = 1, DONE, FAULT and STOPPED are 0 and no fault is recorded (R26, R91). -/
  running : s.busy = true →
    s.done = false ∧ s.fault = false ∧ s.stopped = false ∧ s.faultCause = .none ∧ s.faultInfo = 0
  /-- A stop request is pending only in a run (R36). -/
  stopPending : s.stopPending = true → s.busy = true
  /-- A command executes only in a run (R92). -/
  executing : s.executing = true → s.busy = true
  /-- STATUS.FAULT = 1 comes with a cause (R96, R201). -/
  faultCause : s.fault = true → s.faultCause ≠ .none
  /-- FAULT_INFO is written and cleared with FAULT_CAUSE (R30). -/
  faultInfo : s.faultCause = .none → s.faultInfo = 0
  /-- Between runs nothing is in flight (R237(d)). -/
  idle : s.busy = false → s.mem.raced = [] ∧ s.mem.log = [] ∧ s.boundaries = []
  /-- What a host read during a run may show are legal register values (R28, R34, R40). -/
  boundaries : ∀ b ∈ s.boundaries, b.cmdPtr.toNat % 32 = 0 ∧ gainsLegal b.gains

/-- The next step is the sequencer's and fetches a command: a run is in progress, no stop request is pending that this step
would take, and the descriptor lies in memory (R92, R93). -/
structure State.fetching (s : State) : Prop where
  turn : s.schedule = []
  busy : s.busy = true
  noStop : s.stopsHere = false
  inRange : s.cmdPtr.toNat + 32 ≤ s.config.memSize

/-- The words of two streams' first `count` frames do not overlap. -/
def Stream.apart (a b : Stream) (count : Nat) : Prop :=
  ∀ i < count, ∀ j < count,
    Stream.sampleAddr a i + 8 ≤ Stream.sampleAddr b j ∨ Stream.sampleAddr b j + 8 ≤ Stream.sampleAddr a i

/-- The launch premises of R237: the host's CTRL write of `ctrl` in state `s` began a run, in state `t` right after it, and
the run reads the bytes `reads`. -/
structure State.launched (s t : State) (ctrl : Word) (reads : List Nat) : Prop where
  /-- (a): BUSY was 0, else the START is ignored. -/
  idle : s.busy = false
  /-- The write is a START (R25, R91). -/
  start : ctrl.getLsbD 0 = true ∧ ctrl.getLsbD 2 = false
  /-- `t` is the state the write answers. -/
  written : hostAct (.windowWrite 0x04 4 ctrl) s = .next t
  busy : t.busy = true
  /-- (b) -/
  status : t.done = false ∧ t.fault = false ∧ t.stopped = false
  /-- (b) -/
  noFault : t.faultCause = .none ∧ t.faultInfo = 0
  /-- (c): no stop request is pending but one that the same write set. -/
  stop : t.stopPending = ctrl.getLsbD 1
  /-- (d): no command is executing, the run has written nothing, and it is at its first boundary. -/
  inFlight : t.executing = false ∧ t.mem.log = [] ∧ t.boundaries = [t.boundary]
  /-- (d): and the host has raced with nothing. -/
  quiet : t.quiet
  /-- (e) -/
  defined : ∀ a ∈ reads, t.mem.defined a = true

/-- A run of `n` steps with no host action in it that ends with BUSY = 0, neither faulting nor refusing on the way. -/
def State.endsWithin (s : State) (n : Nat) : Prop :=
  ∃ t, Host.Core.run core n s = .next t ∧ t.busy = false

end Sys2Proof.Machine
end

