-- ==== Sys2Proof/WellFormed.lean ====
section
/-! DEFINITION. Which commands have legal fields, said from the tables and ranges of R70, R73, R76, R78 and R79. The
machine does not call these checks: Decode.lean's `fieldFault` is the order in which the block makes them (R82), and
Sys2Proof/Laws/Decode.lean proves that the two agree. -/

namespace Sys2Proof

/-- The 18 legal format codes of R70's table. -/
def legalFmtCodes : List Byte :=
  [0x00, 0x01, 0x02, 0x03, 0x04, 0x05, 0x06, 0x07, 0x08, 0x09, 0x0A, 0x0B, 0x0C, 0x0D, 0x0E, 0x0F, 0x13, 0x1B]

/-- A format code is one of the 18 legal ones (R70). -/
def fmtWf (fmt : Byte) : Bool := legalFmtCodes.contains fmt

/-- NCH is 1 … 64 (R76). -/
def nchWf (nch : Byte) : Bool := 1 ≤ nch.toNat && nch.toNat ≤ 64

/-- A stream's NCH is 1 … 64 and its CH less than its NCH (R76). -/
def Stream.wf (st : Stream) : Bool := nchWf st.nch && st.ch.toNat < st.nch.toNat

/-- A shift count lies in −63 … +63 (R73). -/
def shiftWf (shift : Byte) : Bool := -63 ≤ shift.toInt && shift.toInt ≤ 63

/-- ATTACK and DECAY are 0 … 63 and BANK 0 … 15 (R78); every KNEE is legal. -/
def CompParams.wf (p : CompParams) : Bool := p.attack.toNat ≤ 63 && p.decay.toNat ≤ 63 && p.bank.toNat ≤ 15

/-- The fields of a command are legal: what R82 checks, in no order. -/
def Instr.wf : Instr → Bool
  | .halt => true
  | .importWire fmt _ _ _ => fmtWf fmt
  | .exportWire fmt _ _ _ => fmtWf fmt
  | .silence fmt _ _ => fmtWf fmt
  | .maxv fmt _ => fmtWf fmt
  | .mix _ shift _ src dst _ => src.wf && dst.wf && shiftWf shift
  | .comp fmt _ _ _ nch par => fmtWf fmt && nchWf nch && par.wf
  | .gaininit bank => bank.toNat ≤ 15
  | .fir _ buf _ => buf.wf

end Sys2Proof
end

