-- ==== Sys2Proof/Certificates/Slice0/Obligations.lean ====
section
/-! DEFINITION. What is to be proved of the block. Each statement's docstring names the rules of spec/ it formalises. A
read of memory in a statement has key 0: in a state that is `quiet` (no racing host write, R59) a read's key does not
matter. -/

open Sys2Proof Sys2Proof.Machine

/-! ## Encoding -/

/-- Decoding the encoding of any command gives the command back, with every operand at every value its bits have, from
words and from bytes (R66, R67, R68). -/
def Obligations.DecodeOfEncode : Prop :=
  ∀ (i : Instr) (rest : List Byte),
    decode (encode i) = .ok i ∧ decodeBytes (encodeBytes i ++ rest) = .ok (i, rest)

/-- A descriptor that decodes is the encoding of what it decodes to: no bit of it is dropped (R66, R68, R81). -/
def Obligations.EncodeOfDecode : Prop :=
  ∀ (w : Words) (i : Instr), decode w = .ok i → encode i = w

/-- Descriptors of the programs P1, P2 and P3 of spec/95_test_vectors.md decode to the commands listed there. -/
def Obligations.SpecDescriptorsDecode : Prop :=
  decode ⟨0x00000101, 0x00000003, 0x00001000, 0x00002000, 0, 0, 0, 0⟩ = .ok (.importWire 0x01 3 0x1000 0x2000) ∧
  decode ⟨0x01010010, 0x00000003, 0x00002000, 0x00003000, 0x01000100, 0x00000001, 0, 0⟩ =
    .ok (.mix ⟨true, false, false, false⟩ 0x01 3 ⟨0x2000, 0, 1⟩ ⟨0x3000, 0, 1⟩ 1) ∧
  decode ⟨0x00010120, 0x00000002, 0x00002000, 0, 0x00000200, 0x02040180, 0, 0⟩ =
    .ok (.comp 0x01 true 2 0x2000 2 ⟨128, 1, 4, 2⟩) ∧
  decode ⟨0x00000021, 0, 0, 0, 0, 0x02000000, 0, 0⟩ = .ok (.gaininit 2) ∧
  decode ⟨0x00000030, 0x00000004, 0x00002000, 0x00006000, 0x00000100, 0, 0, 0⟩ =
    .ok (.fir 4 ⟨0x2000, 0, 1⟩ 0x6000)

/-- An opcode outside R67's table is ILLEGAL_OPCODE with W0 as the information word, and ends the run (R69, R96). -/
def Obligations.ReservedOpcodesFault : Prop :=
  ∀ w : Words, byte0 w.w0 ∉ ([0x00, 0x01, 0x02, 0x03, 0x04, 0x10, 0x20, 0x21, 0x30] : List Byte) →
    decode w = .error ⟨.illegalOpcode, w.w0⟩ ∧
    ∀ s : State, s.fetching → fetchWords s = w → step s = .next (s.takeFault ⟨.illegalOpcode, w.w0⟩)

/-- The lowest word with a reserved bit that is 1 is the one RESERVED_FIELD reports (R81). -/
def Obligations.LowestReservedWordFaults : Prop :=
  ∀ (w : Words) (op : Opcode) (k : Nat) (wk mk : Word),
    Opcode.ofCode (byte0 w.w0) = some op → w.toList[k]? = some wk → (reservedMasks op).toList[k]? = some mk →
    wk &&& mk ≠ 0 →
    (∀ (j : Nat) (wj mj : Word), j < k → w.toList[j]? = some wj → (reservedMasks op).toList[j]? = some mj →
      wj &&& mj = 0) →
    decode w = .error ⟨.reservedField, BitVec.ofNat 32 k⟩ ∧
    ∀ s : State, s.fetching → fetchWords s = w →
      step s = .next (s.takeFault ⟨.reservedField, BitVec.ofNat 32 k⟩)

/-- The block's field checks (R82) pass exactly for the commands whose fields the tables and ranges call legal (R70, R73,
R76, R78, R79). -/
def Obligations.LegalFieldsAreWellFormed : Prop :=
  ∀ i : Instr, fieldFault i = none ↔ i.wf = true

/-- What a command with an illegal field does, whatever its COUNT and EN: the fault R82's order names, with its
information word (R70, R73, R76, R78, R79, R201). -/
def Obligations.IllegalFieldsFault : Prop :=
  (∀ (fmt : Byte) (s : State), fmtWf fmt = false →
    let faults := fun i : Instr => exec i s = .next (s.takeFault ⟨.illegalFormat, fmt.setWidth 32⟩)
    (∀ count src dst, faults (.importWire fmt count src dst)) ∧ (∀ count src dst, faults (.exportWire fmt count src dst)) ∧
    (∀ count dst, faults (.silence fmt count dst)) ∧ (∀ dst, faults (.maxv fmt dst)) ∧
    (∀ en count buf nch par, faults (.comp fmt en count buf nch par))) ∧
  (∀ (flags : MixFlags) (shift : Byte) (count : Word) (src dst : Stream) (volume : Word) (s : State),
    ((src.wf && dst.wf) = false →
      exec (.mix flags shift count src dst volume) s =
        .next (s.takeFault ⟨.illegalChannel, (encode (.mix flags shift count src dst volume)).w4⟩)) ∧
    (src.wf = true → dst.wf = true → shiftWf shift = false →
      exec (.mix flags shift count src dst volume) s = .next (s.takeFault ⟨.illegalParam, 0⟩))) ∧
  (∀ (fmt : Byte) (en : Bool) (count buf : Word) (nch : Byte) (par : CompParams) (s : State), fmtWf fmt = true →
    (nchWf nch = false →
      exec (.comp fmt en count buf nch par) s =
        .next (s.takeFault ⟨.illegalChannel, (encode (.comp fmt en count buf nch par)).w4⟩)) ∧
    (nchWf nch = true → par.wf = false →
      exec (.comp fmt en count buf nch par) s = .next (s.takeFault ⟨.illegalParam, 5⟩))) ∧
  (∀ (bank : Byte) (s : State), 15 < bank.toNat → exec (.gaininit bank) s = .next (s.takeFault ⟨.illegalParam, 5⟩)) ∧
  (∀ (count : Word) (buf : Stream) (st : Word) (s : State), buf.wf = false →
    exec (.fir count buf st) s = .next (s.takeFault ⟨.illegalChannel, (encode (.fir count buf st)).w4⟩))

/-! ## The sequencer -/

/-- When the descriptor at CMD_PTR decodes to a command, the step is that command's execution and nothing around it: the
meanings move CMD_PTR themselves (R92). So it is where the 32 bytes of memory from CMD_PTR on are the command's encoding,
its words little-endian, and the host has not raced with the run (R49(a), R93). -/
def Obligations.StepRunsDecodedCommand : Prop :=
  ∀ (s : State) (i : Instr), s.fetching →
    (decode (fetchWords s) = .ok i → step s = exec i s) ∧
    (s.quiet → (∀ k < 32, (encodeBytes i)[k]? = some (s.mem.peek (s.cmdPtr.toNat + k))) → step s = exec i s)

/-- A stop request is taken at the command boundary, before any fetch (R97). One that is pending while a command executes
waits for its end: HALT and a fault end the run as they are and clear it, and after a command that completes it is taken at
the next boundary (R98, R205(b)). That a command is executing is the model's own field, its choice (log entry 18, DESIGN
CHOICE). -/
def Obligations.StopIsTakenAtBoundary : Prop :=
  ∀ s : State, s.schedule = [] → s.busy = true → s.stopPending = true →
    (s.executing = false →
      ∃ t, step s = .next t ∧ t.busy = false ∧ t.stopped = true ∧ t.stopPending = false ∧ t.cmdPtr = s.cmdPtr ∧
        t.done = s.done ∧ t.fault = s.fault ∧ t.faultCause = s.faultCause ∧ t.faultInfo = s.faultInfo ∧
        t.lfsr = s.lfsr ∧ t.gains = s.gains ∧ t.irqEn = s.irqEn ∧ t.gainIdx = s.gainIdx ∧
        (s.quiet → ∀ a, t.mem.peek a = s.mem.peek a)) ∧
    (s.executing = true → s.cmdPtr.toNat + 32 ≤ s.config.memSize →
      ∀ i : Instr, decode (fetchWords s) = .ok i →
        (i = .halt → ∃ t, step s = .next t ∧ t.busy = false ∧ t.done = true ∧ t.stopped = s.stopped ∧
          t.stopPending = false) ∧
        (∀ f, commandCheck i s = some f → ∃ t, step s = .next t ∧ t.busy = false ∧ t.fault = true ∧
          t.stopped = s.stopped ∧ t.stopPending = false ∧ t.faultCause = f.cause) ∧
        (i ≠ .halt → commandCheck i s = none →
          ∃ t u, exec i s = .next t ∧ step s = .next t ∧ s.completedTo t ∧
            step t = .next u ∧ u.busy = false ∧ u.stopped = true ∧ u.stopPending = false ∧ u.cmdPtr = s.cmdPtr + 32 ∧
            u.lfsr = t.lfsr ∧ u.gains = t.gains ∧ (s.quiet → ∀ a, u.mem.peek a = t.mem.peek a)))

/-- While idle the sequencer does nothing (R90); running with no stop request to take, it does not fetch a descriptor that
does not lie in memory: FETCH_ACCESS with CMD_PTR as the information word (R93). -/
def Obligations.SequencerIdlesOrFaultsWithoutFetch : Prop :=
  ∀ s : State, s.schedule = [] →
    (s.busy = false → step s = .next s) ∧
    (s.busy = true → s.stopsHere = false → s.config.memSize < s.cmdPtr.toNat + 32 →
      step s = .next (s.takeFault ⟨.fetchAccess, s.cmdPtr⟩))

/-- What ending a run at a fault does: the five fields of R96, CMD_PTR and every other register kept, and memory kept
(R203, R206). -/
def Obligations.FaultEndsTheRun : Prop :=
  ∀ (s : State) (f : FaultReport),
    let t := s.takeFault f
    t.busy = false ∧ t.fault = true ∧ t.stopPending = false ∧ t.faultCause = f.cause ∧ t.faultInfo = f.info ∧
    t.cmdPtr = s.cmdPtr ∧ t.lfsr = s.lfsr ∧ t.gains = s.gains ∧ t.irqEn = s.irqEn ∧ t.gainIdx = s.gainIdx ∧
    t.done = s.done ∧ t.stopped = s.stopped ∧ t.config = s.config ∧ (s.quiet → ∀ a, t.mem.peek a = s.mem.peek a)

/-- A command that fails one of its checks does nothing but take the fault of the first that fails (R100, R203, R204). -/
def Obligations.FailedCheckIsPrecise : Prop :=
  ∀ (i : Instr) (s : State) (f : FaultReport), commandCheck i s = some f → exec i s = .next (s.takeFault f)

/-- Every command other than HALT that passes its checks completes: CMD_PTR advances by 32 modulo 2^32, only MIX may
change the LFSR, only COMP and GAININIT a gain entry, no other register changes, and memory changes only in the command's
destination bytes (R52, R94, R100). -/
def Obligations.EveryCheckedCommandCompletes : Prop :=
  ∀ (i : Instr) (s : State), i ≠ .halt → commandCheck i s = none →
    ∃ t, exec i s = .next t ∧ s.completedTo t ∧ s.mem.sameOutside (destBytes i s.mem) t.mem ∧
      (i.opcode ≠ .mix → t.lfsr = s.lfsr) ∧ (i.opcode ≠ .comp → i.opcode ≠ .gaininit → t.gains = s.gains)

/-- Alignment comes before range, and range faults name the first span that is out (R51, R54, R100, R101), for the
commands with a COUNT above 0 and legal fields. -/
def Obligations.SpanChecksFaultInOrder : Prop :=
  (∀ (fmt : Byte) (count src dst : Word) (s : State), fmtWf fmt = true → count ≠ 0 →
    (dst.toNat % 8 ≠ 0 → exec (.importWire fmt count src dst) s = .next (s.takeFault ⟨.misaligned, dst⟩)) ∧
    (dst.toNat % 8 = 0 → s.config.memSize < src.toNat + count.toNat * fmtBytes fmt →
      exec (.importWire fmt count src dst) s = .next (s.takeFault ⟨.access, src⟩)) ∧
    (dst.toNat % 8 = 0 → src.toNat + count.toNat * fmtBytes fmt ≤ s.config.memSize →
      s.config.memSize < dst.toNat + 8 * count.toNat →
      exec (.importWire fmt count src dst) s = .next (s.takeFault ⟨.access, dst⟩)) ∧
    (src.toNat % 8 ≠ 0 → exec (.exportWire fmt count src dst) s = .next (s.takeFault ⟨.misaligned, src⟩)) ∧
    (src.toNat % 8 = 0 → s.config.memSize < src.toNat + 8 * count.toNat →
      exec (.exportWire fmt count src dst) s = .next (s.takeFault ⟨.access, src⟩)) ∧
    (src.toNat % 8 = 0 → src.toNat + 8 * count.toNat ≤ s.config.memSize →
      s.config.memSize < dst.toNat + count.toNat * fmtBytes fmt →
      exec (.exportWire fmt count src dst) s = .next (s.takeFault ⟨.access, dst⟩)) ∧
    (s.config.memSize < dst.toNat + count.toNat * fmtBytes fmt →
      exec (.silence fmt count dst) s = .next (s.takeFault ⟨.access, dst⟩))) ∧
  (∀ (fmt : Byte) (dst : Word) (s : State), fmtWf fmt = true →
    (dst.toNat % 8 ≠ 0 → exec (.maxv fmt dst) s = .next (s.takeFault ⟨.misaligned, dst⟩)) ∧
    (dst.toNat % 8 = 0 → s.config.memSize < dst.toNat + 8 →
      exec (.maxv fmt dst) s = .next (s.takeFault ⟨.access, dst⟩))) ∧
  (∀ (flags : MixFlags) (shift : Byte) (count : Word) (src dst : Stream) (volume : Word) (s : State),
    src.wf = true → dst.wf = true → shiftWf shift = true → count ≠ 0 →
    (src.base.toNat % 8 ≠ 0 →
      exec (.mix flags shift count src dst volume) s = .next (s.takeFault ⟨.misaligned, src.base⟩)) ∧
    (src.base.toNat % 8 = 0 → dst.base.toNat % 8 ≠ 0 →
      exec (.mix flags shift count src dst volume) s = .next (s.takeFault ⟨.misaligned, dst.base⟩)) ∧
    (src.base.toNat % 8 = 0 → dst.base.toNat % 8 = 0 →
      s.config.memSize < src.base.toNat + 8 * count.toNat * src.nch.toNat →
      exec (.mix flags shift count src dst volume) s = .next (s.takeFault ⟨.access, src.base⟩)) ∧
    (src.base.toNat % 8 = 0 → dst.base.toNat % 8 = 0 →
      src.base.toNat + 8 * count.toNat * src.nch.toNat ≤ s.config.memSize →
      s.config.memSize < dst.base.toNat + 8 * count.toNat * dst.nch.toNat →
      exec (.mix flags shift count src dst volume) s = .next (s.takeFault ⟨.access, dst.base⟩))) ∧
  (∀ (fmt : Byte) (count buf : Word) (nch : Byte) (par : CompParams) (s : State),
    fmtWf fmt = true → nchWf nch = true → par.wf = true → count ≠ 0 →
    (buf.toNat % 8 ≠ 0 → exec (.comp fmt true count buf nch par) s = .next (s.takeFault ⟨.misaligned, buf⟩)) ∧
    (buf.toNat % 8 = 0 → s.config.memSize < buf.toNat + 8 * count.toNat * nch.toNat →
      exec (.comp fmt true count buf nch par) s = .next (s.takeFault ⟨.access, buf⟩)))

/-- A command whose COUNT is 0 and whose fields are legal makes no memory check and no access, whatever its addresses: it
only advances CMD_PTR (R57, R74). -/
def Obligations.ZeroCountTouchesNothing : Prop :=
  ∀ (i : Instr) (s : State), i.wf = true →
    ((∃ fmt a b, i = .importWire fmt 0 a b) ∨ (∃ fmt a b, i = .exportWire fmt 0 a b) ∨ (∃ fmt a, i = .silence fmt 0 a) ∨
      (∃ flags shift src dst v, i = .mix flags shift 0 src dst v) ∨
      (∃ fmt en a nch par, i = .comp fmt en 0 a nch par) ∨ (∃ buf st, i = .fir 0 buf st)) →
    ∃ t, exec i s = .next t ∧ s.completedTo t ∧ t.lfsr = s.lfsr ∧ t.gains = s.gains ∧
      ∀ a, t.mem.peek a = s.mem.peek a

/-- HALT ends the run with DONE and leaves CMD_PTR on itself (R95); memory and every other register are unchanged. -/
def Obligations.HaltEndsTheRun : Prop :=
  ∀ s : State, ∃ t, exec .halt s = .next t ∧ t.busy = false ∧ t.done = true ∧ t.stopPending = false ∧
    t.cmdPtr = s.cmdPtr ∧ t.fault = s.fault ∧ t.stopped = s.stopped ∧ t.faultCause = s.faultCause ∧
    t.faultInfo = s.faultInfo ∧ t.lfsr = s.lfsr ∧ t.gains = s.gains ∧ t.irqEn = s.irqEn ∧ t.gainIdx = s.gainIdx ∧
    t.config = s.config ∧ (s.quiet → ∀ a, t.mem.peek a = s.mem.peek a)

/-! ## CODEC -/

/-- Import then export of every W-bit pattern of an integer format gives the pattern back (R125). -/
def Obligations.IntegerFormatsRoundTrip : Prop :=
  ∀ (fmt : Byte) (raw : Nat), fmtWf fmt = true → fmtFloat fmt = false → raw < 2 ^ fmtWidth fmt →
    exportSample fmt (importSample fmt raw) = raw

/-- A binary32 pattern survives import then export exactly when it is canonical-exact (R115, R125). -/
def Obligations.FloatRoundTripIsCanonicalExact : Prop :=
  ∀ raw : Nat, raw < 2 ^ 32 →
    let e := raw / 2 ^ 23 % 2 ^ 8
    (encodeF32 (decodeF32 raw) = raw ↔
      raw = 0x00000000 ∨ raw = 0x3F800000 ∨ raw = 0xBF800000 ∨
      (96 ≤ e ∧ e ≤ 126 ∧ (2 ^ 23 + raw % 2 ^ 23) % 2 ^ (119 - e) = 0))

/-- What each wire pattern imports as. A signed pattern is its two's-complement value, an unsigned one its value less the
bias 2^(W−1): so 0 and 2^W − 1 are the ends of an unsigned format's range, 2^(W−1) and 2^(W−1) − 1 those of a signed one's
(R112, R117). A binary32 pattern is f × 2^31 truncated toward zero below 1.0 in magnitude, 0 for zeros and subnormals, and
the extreme of its sign from 1.0 on, for infinities and for NaNs (R113). All lie in the format's range (R114). -/
def Obligations.ImportedSamplesAreInRange : Prop :=
  ∀ (fmt : Byte) (raw : Nat), fmtWf fmt = true →
    (minOf fmt ≤ importSample fmt raw ∧ importSample fmt raw ≤ maxOf fmt) ∧
    (fmtFloat fmt = false → raw < 2 ^ fmtWidth fmt →
      importSample fmt raw =
        if fmtUnsigned fmt then (raw : Int) - 2 ^ (fmtWidth fmt - 1)
        else if raw < 2 ^ (fmtWidth fmt - 1) then (raw : Int) else (raw : Int) - 2 ^ fmtWidth fmt) ∧
    (fmtFloat fmt = true → raw < 2 ^ 32 →
      let e := raw / 2 ^ 23 % 2 ^ 8
      let magnitude : Int := (((2 ^ 23 + raw % 2 ^ 23) * 2 ^ e / 2 ^ 119 : Nat) : Int)
      importSample fmt raw =
        if e = 0 then 0
        else if 127 ≤ e then (if raw < 2 ^ 31 then 2 ^ 31 - 1 else -(2 ^ 31))
        else if raw < 2 ^ 31 then magnitude else -magnitude)

/-- Export clamps: above the maximum it writes what it writes for the maximum, below the minimum what it writes for the
minimum, and an integer format exports every value of its range without loss (R120, R121, R123). -/
def Obligations.ExportClampsToTheRange : Prop :=
  ∀ (fmt : Byte) (v : Int), fmtWf fmt = true →
    (maxOf fmt < v → exportSample fmt v = exportSample fmt (maxOf fmt)) ∧
    (v < minOf fmt → exportSample fmt v = exportSample fmt (minOf fmt)) ∧
    (fmtFloat fmt = false → minOf fmt ≤ v → v ≤ maxOf fmt → importSample fmt (exportSample fmt v) = v)

/-- Float export produces only +0.0, ±1.0 and normal floats of magnitude in [2^−31, 1), and these exactly: 0 is +0.0, the
extremes and what lies beyond them are ±1.0, and any other value, of magnitude 2^k to 2^(k+1), has exponent k + 96, its sign
and its significand truncated toward zero to 24 bits (R121). -/
def Obligations.ExportedFloatsAreNormal : Prop :=
  ∀ v : Int,
    (encodeF32 v < 2 ^ 32 ∧
      (encodeF32 v = 0x00000000 ∨ encodeF32 v = 0x3F800000 ∨ encodeF32 v = 0xBF800000 ∨
        (96 ≤ encodeF32 v / 2 ^ 23 % 2 ^ 8 ∧ encodeF32 v / 2 ^ 23 % 2 ^ 8 ≤ 126))) ∧
    (v = 0 → encodeF32 v = 0x00000000) ∧ (2 ^ 31 - 1 ≤ v → encodeF32 v = 0x3F800000) ∧
    (v ≤ -(2 ^ 31) → encodeF32 v = 0xBF800000) ∧
    (∀ k : Nat, v ≠ 0 → -(2 ^ 31) < v → v < 2 ^ 31 - 1 → 2 ^ k ≤ |v| → |v| < 2 ^ (k + 1) →
      (encodeF32 v : Int) =
        (if v < 0 then 2 ^ 31 else 0) + ((k : Int) + 96) * 2 ^ 23 + (|v| * 2 ^ 23 / 2 ^ k - 2 ^ 23)) ∧
    (∀ fmt : Byte, fmtFloat fmt = true → exportSample fmt v = encodeF32 v)

/-- IMPORT of any spans, overlapping or not, runs element by element: M i is the memory before element i; element i reads
its wire sample from M i and writes its canonical word (R14, R56, R116). -/
def Obligations.ImportRunsInElementOrder : Prop :=
  ∀ (fmt : Byte) (count src dst : Word) (s : State), fmtWf fmt = true → s.quiet → dst.toNat % 8 = 0 →
    src.toNat + count.toNat * fmtBytes fmt ≤ s.config.memSize → dst.toNat + 8 * count.toNat ≤ s.config.memSize →
    ∃ t, exec (.importWire fmt count src dst) s = .next t ∧ s.completedTo t ∧ t.lfsr = s.lfsr ∧ t.gains = s.gains ∧
      ∃ M : Nat → Memory, M 0 = s.mem ∧ (∀ a, t.mem.peek a = (M count.toNat).peek a) ∧
        ∀ i < count.toNat,
          (M (i + 1)).readCanon 0 (dst.toNat + 8 * i) =
            importSample fmt (readWire (M i) 0 fmt (src.toNat + i * fmtBytes fmt)) ∧
          (M i).sameOutside (byteRange (dst.toNat + 8 * i) 8) (M (i + 1))

/-- IMPORT of spans that do not overlap converts every wire sample of the source and changes nothing outside the
destination (R116). -/
def Obligations.ImportConvertsEverySample : Prop :=
  ∀ (fmt : Byte) (count src dst : Word) (s : State), fmtWf fmt = true → s.quiet → dst.toNat % 8 = 0 →
    src.toNat + count.toNat * fmtBytes fmt ≤ s.config.memSize → dst.toNat + 8 * count.toNat ≤ s.config.memSize →
    (src.toNat + count.toNat * fmtBytes fmt ≤ dst.toNat ∨ dst.toNat + 8 * count.toNat ≤ src.toNat) →
    ∃ t, exec (.importWire fmt count src dst) s = .next t ∧ s.completedTo t ∧ t.lfsr = s.lfsr ∧ t.gains = s.gains ∧
      (∀ i < count.toNat, t.mem.readCanon 0 (dst.toNat + 8 * i) =
        importSample fmt (readWire s.mem 0 fmt (src.toNat + i * fmtBytes fmt))) ∧
      s.mem.sameOutside (byteRange dst.toNat (8 * count.toNat)) t.mem

/-- EXPORT of any spans runs element by element (R14, R56, R124). -/
def Obligations.ExportRunsInElementOrder : Prop :=
  ∀ (fmt : Byte) (count src dst : Word) (s : State), fmtWf fmt = true → s.quiet → src.toNat % 8 = 0 →
    src.toNat + 8 * count.toNat ≤ s.config.memSize → dst.toNat + count.toNat * fmtBytes fmt ≤ s.config.memSize →
    ∃ t, exec (.exportWire fmt count src dst) s = .next t ∧ s.completedTo t ∧ t.lfsr = s.lfsr ∧ t.gains = s.gains ∧
      ∃ M : Nat → Memory, M 0 = s.mem ∧ (∀ a, t.mem.peek a = (M count.toNat).peek a) ∧
        ∀ i < count.toNat,
          readWire (M (i + 1)) 0 fmt (dst.toNat + i * fmtBytes fmt) =
            exportSample fmt ((M i).readCanon 0 (src.toNat + 8 * i)) ∧
          (M i).sameOutside (byteRange (dst.toNat + i * fmtBytes fmt) (fmtBytes fmt)) (M (i + 1))

/-- EXPORT to a destination after the source, or starting at or before it (an in-place narrowing export among them),
converts every canonical word of the source as it stood before the command, and changes nothing outside the destination
(R124). -/
def Obligations.ExportConvertsEverySample : Prop :=
  ∀ (fmt : Byte) (count src dst : Word) (s : State), fmtWf fmt = true → s.quiet → src.toNat % 8 = 0 →
    src.toNat + 8 * count.toNat ≤ s.config.memSize → dst.toNat + count.toNat * fmtBytes fmt ≤ s.config.memSize →
    (src.toNat + 8 * count.toNat ≤ dst.toNat ∨ dst.toNat ≤ src.toNat) →
    ∃ t, exec (.exportWire fmt count src dst) s = .next t ∧ s.completedTo t ∧ t.lfsr = s.lfsr ∧ t.gains = s.gains ∧
      (∀ i < count.toNat, readWire t.mem 0 fmt (dst.toNat + i * fmtBytes fmt) =
        exportSample fmt (s.mem.readCanon 0 (src.toNat + 8 * i))) ∧
      s.mem.sameOutside (byteRange dst.toNat (count.toNat * fmtBytes fmt)) t.mem

/-- SILENCE writes the format's zero pattern, the bias 0x80 in the most significant byte of an unsigned sample and 0
elsewhere, in every sample of the span, and changes nothing else (R130, R131). -/
def Obligations.SilenceWritesTheZeroPattern : Prop :=
  ∀ (fmt : Byte) (count dst : Word) (s : State), fmtWf fmt = true →
    dst.toNat + count.toNat * fmtBytes fmt ≤ s.config.memSize →
    ∃ t, exec (.silence fmt count dst) s = .next t ∧ s.completedTo t ∧ t.lfsr = s.lfsr ∧ t.gains = s.gains ∧
      (∀ i < count.toNat, ∀ k < fmtBytes fmt, t.mem.peek (dst.toNat + i * fmtBytes fmt + k) =
        if fmtUnsigned fmt = true ∧ k = (if fmtBigEndian fmt then 0 else fmtBytes fmt - 1) then 0x80 else 0x00) ∧
      s.mem.sameOutside (byteRange dst.toNat (count.toNat * fmtBytes fmt)) t.mem

/-- MAXV writes the format's maximum, 2^(W−1) − 1 or 2^31 − 1, as a little-endian canonical word, and changes nothing
else (R118, R134). -/
def Obligations.MaxvWritesTheMaximum : Prop :=
  ∀ (fmt : Byte) (dst : Word) (s : State), fmtWf fmt = true → dst.toNat % 8 = 0 → dst.toNat + 8 ≤ s.config.memSize →
    ∃ t, exec (.maxv fmt dst) s = .next t ∧ s.completedTo t ∧ t.lfsr = s.lfsr ∧ t.gains = s.gains ∧
      (∀ k < 8, t.mem.peek (dst.toNat + k) =
        BitVec.ofNat 8 ((if fmt.getLsbD 4 then 2 ^ 31 - 1 else 2 ^ (8 * fmtBytes fmt - 1) - 1) / 256 ^ k)) ∧
      s.mem.sameOutside (byteRange dst.toNat 8) t.mem

/-! ## MIXER -/

/-- MIX of any streams runs frame by frame: M i and L i are the memory and the dither generator before frame i. The
generator steps once a frame when DITHER = 1 and MUTE = 0 and before it is used; the term is the shifted product plus the
dither, negated by INVERT, 0 by MUTE; a right shift rounds toward minus infinity; the sum is wrapped to 64 bits, to the value
of −2^63 … 2^63 − 1 that it is congruent to modulo 2^64 (R141 to R145). -/
def Obligations.MixRunsInFrameOrder : Prop :=
  ∀ (flags : MixFlags) (shift : Byte) (count : Word) (src dst : Stream) (volume : Word) (s : State),
    src.wf = true → dst.wf = true → shiftWf shift = true → s.quiet →
    src.base.toNat % 8 = 0 → dst.base.toNat % 8 = 0 →
    src.base.toNat + 8 * count.toNat * src.nch.toNat ≤ s.config.memSize →
    dst.base.toNat + 8 * count.toNat * dst.nch.toNat ≤ s.config.memSize →
    let shifted : Int → Int := fun x =>
      if 0 ≤ shift.toInt then x * 2 ^ shift.toInt.toNat else x / 2 ^ (-shift.toInt).toNat
    ∃ t, exec (.mix flags shift count src dst volume) s = .next t ∧ s.completedTo t ∧ t.gains = s.gains ∧
      ∃ (M : Nat → Memory) (L : Nat → Word),
        M 0 = s.mem ∧ L 0 = s.lfsr ∧ (∀ a, t.mem.peek a = (M count.toNat).peek a) ∧ t.lfsr = L count.toNat ∧
        ∀ i < count.toNat,
          L (i + 1) = (if flags.dither = true ∧ flags.mute = false then
            (if (L i).getLsbD 0 then (L i >>> 1) ^^^ 0x80200003 else L i >>> 1) else L i) ∧
          (∃ term : Int,
            term = (if flags.mute then 0 else
              (if flags.invert then -1 else 1) *
                (shifted ((M i).readCanon 0 (Stream.sampleAddr src i) * volume.toInt) +
                  if flags.dither then
                    shifted ((((L (i + 1)).getLsbD 0).toInt - ((L (i + 1)).getLsbD 1).toInt) * volume.toInt)
                  else 0)) ∧
            (M (i + 1)).readCanon 0 (Stream.sampleAddr dst i) =
              ((if flags.assign then 0 else (M i).readCanon 0 (Stream.sampleAddr dst i)) + term).bmod (2 ^ 64)) ∧
          (M i).sameOutside (byteRange (Stream.sampleAddr dst i) 8) (M (i + 1))

/-- The `copy` pseudo-instruction copies a channel stream unchanged onto words that its source does not share, and
changes nothing else (R87, R147, R151). -/
def Obligations.CopyCopiesTheStream : Prop :=
  ∀ (count : Word) (src dst : Stream) (s : State), src.wf = true → dst.wf = true → s.quiet →
    src.base.toNat % 8 = 0 → dst.base.toNat % 8 = 0 →
    src.base.toNat + 8 * count.toNat * src.nch.toNat ≤ s.config.memSize →
    dst.base.toNat + 8 * count.toNat * dst.nch.toNat ≤ s.config.memSize →
    Stream.apart src dst count.toNat →
    ∃ t, exec (Instr.copyStream count src dst) s = .next t ∧ s.completedTo t ∧ t.lfsr = s.lfsr ∧ t.gains = s.gains ∧
      (∀ i < count.toNat, t.mem.readCanon 0 (Stream.sampleAddr dst i) = s.mem.readCanon 0 (Stream.sampleAddr src i)) ∧
      s.mem.sameOutside (Stream.sampleBytes dst count) t.mem

/-- The accumulate law: over a destination stream whose words are all 0 and which shares no word with the source, a MIX
with ASSIGN = 0 leaves the memory and the generator that the same MIX with ASSIGN = 1 leaves (R146). -/
def Obligations.MixAccumulateLaw : Prop :=
  ∀ (flags : MixFlags) (shift : Byte) (count : Word) (src dst : Stream) (volume : Word) (s : State),
    src.wf = true → dst.wf = true → shiftWf shift = true → s.quiet →
    src.base.toNat % 8 = 0 → dst.base.toNat % 8 = 0 →
    src.base.toNat + 8 * count.toNat * src.nch.toNat ≤ s.config.memSize →
    dst.base.toNat + 8 * count.toNat * dst.nch.toNat ≤ s.config.memSize →
    Stream.apart src dst count.toNat →
    (∀ i < count.toNat, ∀ k < 8, s.mem.peek (Stream.sampleAddr dst i + k) = 0) →
    ∃ t u, exec (.mix { flags with assign := false } shift count src dst volume) s = .next t ∧
      exec (.mix { flags with assign := true } shift count src dst volume) s = .next u ∧
      t.lfsr = u.lfsr ∧ ∀ a, t.mem.peek a = u.mem.peek a

/-- The dither generator after a MIX: COUNT steps of R143's Galois shift when DITHER = 1 and MUTE = 0, none otherwise; a
generator at 0 stays at 0 (R31, R143). -/
def Obligations.MixStepsTheGenerator : Prop :=
  ∀ (flags : MixFlags) (shift : Byte) (count : Word) (src dst : Stream) (volume : Word) (s t : State),
    commandCheck (.mix flags shift count src dst volume) s = none →
    exec (.mix flags shift count src dst volume) s = .next t →
    (flags.dither = true → flags.mute = false →
      t.lfsr = (fun x : Word => if x.getLsbD 0 then (x >>> 1) ^^^ 0x80200003 else x >>> 1)^[count.toNat] s.lfsr) ∧
    (flags.dither = false ∨ flags.mute = true → t.lfsr = s.lfsr) ∧ (s.lfsr = 0 → t.lfsr = 0)

/-! ## COMP -/

/-- COMP runs sample by sample in memory order: M j and G j are the memory and the gain banks before sample j, which is
channel j mod NCH. The sample above the threshold moves the gain toward the target, is multiplied, and the gain relaxes;
no other entry changes (R156 to R160, R164). -/
def Obligations.CompRunsInSampleOrder : Prop :=
  ∀ (fmt : Byte) (count buf : Word) (nch : Byte) (par : CompParams) (s : State),
    fmtWf fmt = true → nchWf nch = true → par.wf = true → s.quiet → gainsLegal s.gains → buf.toNat % 8 = 0 →
    buf.toNat + 8 * count.toNat * nch.toNat ≤ s.config.memSize →
    ∃ t, exec (.comp fmt true count buf nch par) s = .next t ∧ s.completedTo t ∧ t.lfsr = s.lfsr ∧
      ∃ (M : Nat → Memory) (G : Nat → Gains),
        M 0 = s.mem ∧ G 0 = s.gains ∧ (∀ a, t.mem.peek a = (M (count.toNat * nch.toNat)).peek a) ∧
        t.gains = G (count.toNat * nch.toNat) ∧
        ∀ j < count.toNat * nch.toNat,
          (∃ T a m g g1 g2 : Int,
            T = maxOf fmt * (par.knee.toNat : Int) / 255 ∧ a = (M j).readCanon 0 (buf.toNat + 8 * j) ∧ m = |a| ∧
            g = ((gainGet (G j) par.bank.toNat (j % nch.toNat)).toNat : Int) ∧
            g1 = (if T < m then g - (g - min g (T * 2 ^ 31 / m)) / 2 ^ par.attack.toNat else g) ∧
            g2 = g1 + (2 ^ 31 - g1) / 2 ^ par.decay.toNat ∧
            (M (j + 1)).readCanon 0 (buf.toNat + 8 * j) = a * g1 / 2 ^ 31 ∧
            ((gainGet (G (j + 1)) par.bank.toNat (j % nch.toNat)).toNat : Int) = g2) ∧
          (∀ b c, b ≠ par.bank.toNat ∨ c ≠ j % nch.toNat → gainGet (G (j + 1)) b c = gainGet (G j) b c) ∧
          (M j).sameOutside (byteRange (buf.toNat + 8 * j) 8) (M (j + 1))

/-- A disabled COMP whose fields are legal changes no memory and no gain entry, whatever its buffer address: it only
advances CMD_PTR (R160, R161). -/
def Obligations.DisabledCompChangesNothing : Prop :=
  ∀ (fmt : Byte) (count buf : Word) (nch : Byte) (par : CompParams) (s : State),
    fmtWf fmt = true → nchWf nch = true → par.wf = true →
    ∃ t, exec (.comp fmt false count buf nch par) s = .next t ∧ s.completedTo t ∧ t.lfsr = s.lfsr ∧ t.gains = s.gains ∧
      ∀ a, t.mem.peek a = s.mem.peek a

/-- With its entries at unity and no sample above the threshold, COMP is transparent (R161). -/
def Obligations.CompBelowTheKneeIsTransparent : Prop :=
  ∀ (fmt : Byte) (count buf : Word) (nch : Byte) (par : CompParams) (s : State),
    fmtWf fmt = true → nchWf nch = true → par.wf = true → s.quiet → buf.toNat % 8 = 0 →
    buf.toNat + 8 * count.toNat * nch.toNat ≤ s.config.memSize →
    (∀ c < nch.toNat, gainGet s.gains par.bank.toNat c = 0x80000000) →
    (∀ j < count.toNat * nch.toNat,
      |s.mem.readCanon 0 (buf.toNat + 8 * j)| ≤ maxOf fmt * (par.knee.toNat : Int) / 255) →
    ∃ t, exec (.comp fmt true count buf nch par) s = .next t ∧ s.completedTo t ∧
      (∀ b c, gainGet t.gains b c = gainGet s.gains b c) ∧ ∀ a, t.mem.peek a = s.mem.peek a

/-- With ATTACK = 0 every sample COMP writes is at most the knee threshold in magnitude, at every sample and from any
legal gains (R162). -/
def Obligations.CompWithAttackZeroIsBounded : Prop :=
  ∀ (fmt : Byte) (count buf : Word) (nch : Byte) (par : CompParams) (s : State),
    fmtWf fmt = true → nchWf nch = true → par.wf = true → par.attack = 0 → s.quiet → gainsLegal s.gains →
    buf.toNat % 8 = 0 → buf.toNat + 8 * count.toNat * nch.toNat ≤ s.config.memSize →
    ∃ t, exec (.comp fmt true count buf nch par) s = .next t ∧ s.completedTo t ∧
      (∀ j < count.toNat * nch.toNat,
        |t.mem.readCanon 0 (buf.toNat + 8 * j)| ≤ maxOf fmt * (par.knee.toNat : Int) / 255) ∧
      s.mem.sameOutside (byteRange buf.toNat (8 * (count.toNat * nch.toNat))) t.mem

/-- Two COMP commands on consecutive blocks with the same bank do what one does over both blocks (R164). -/
def Obligations.CompBlocksConcatenate : Prop :=
  ∀ (fmt : Byte) (en : Bool) (c1 c2 c buf buf2 : Word) (nch : Byte) (par : CompParams) (s : State),
    fmtWf fmt = true → nchWf nch = true → par.wf = true → s.quiet → buf.toNat % 8 = 0 →
    c.toNat = c1.toNat + c2.toNat → buf2.toNat = buf.toNat + 8 * (c1.toNat * nch.toNat) →
    buf.toNat + 8 * c.toNat * nch.toNat ≤ s.config.memSize →
    ∃ t1 t2 u, exec (.comp fmt en c1 buf nch par) s = .next t1 ∧ exec (.comp fmt en c2 buf2 nch par) t1 = .next t2 ∧
      exec (.comp fmt en c buf nch par) s = .next u ∧ t2.gains = u.gains ∧ ∀ a, t2.mem.peek a = u.mem.peek a

/-- GAININIT sets the 64 entries of its bank to unity and changes no other entry, no memory and no other register
(R165). -/
def Obligations.GaininitSetsTheBankToUnity : Prop :=
  ∀ (bank : Byte) (s : State), bank.toNat ≤ 15 →
    ∃ t, exec (.gaininit bank) s = .next t ∧ s.completedTo t ∧ t.lfsr = s.lfsr ∧
      (∀ c < 64, gainGet t.gains bank.toNat c = 0x80000000) ∧
      (∀ b c, b ≠ bank.toNat → gainGet t.gains b c = gainGet s.gains b c) ∧ ∀ a, t.mem.peek a = s.mem.peek a

/-! ## FIR -/

/-- A FIR with a NULL kernel, and one whose state block is disabled (N = 0), are passthrough: they change nothing but
CMD_PTR, and do not check the buffer (R177, R179). -/
def Obligations.FirBypassesChangeNothing : Prop :=
  ∀ (count : Word) (buf : Stream) (st : Word) (s : State), buf.wf = true →
    (st = 0 ∨ (st.toNat % 8 = 0 ∧ st.toNat + 8 ≤ s.config.memSize ∧ firLen s.mem st.toNat = 0)) →
    ∃ t, exec (.fir count buf st) s = .next t ∧ s.completedTo t ∧ t.lfsr = s.lfsr ∧ t.gains = s.gains ∧
      ∀ a, t.mem.peek a = s.mem.peek a

/-- FIR's checks in the order of R179, for a command with legal channels, COUNT above 0 and a state pointer. -/
def Obligations.FirChecksInOrder : Prop :=
  ∀ (count : Word) (buf : Stream) (st : Word) (s : State), buf.wf = true → count ≠ 0 → st ≠ 0 →
    let n := firLen s.mem st.toNat
    let off := firOff s.mem st.toNat
    let span := 8 * count.toNat * buf.nch.toNat
    let faults := fun (c : Cause) (info : Word) => exec (.fir count buf st) s = .next (s.takeFault ⟨c, info⟩)
    (st.toNat % 8 ≠ 0 → faults .misaligned st) ∧
    (st.toNat % 8 = 0 →
      (s.config.memSize < st.toNat + 8 → faults .access st) ∧
      (st.toNat + 8 ≤ s.config.memSize → n ≠ 0 →
        (((∀ k, n ≠ 2 ^ k) ∨ 65536 < n ∨ n ≤ off) → faults .firState st) ∧
        ((∃ k, n = 2 ^ k) → n ≤ 65536 → off < n →
          (buf.base.toNat % 8 ≠ 0 → faults .misaligned buf.base) ∧
          (buf.base.toNat % 8 = 0 →
            (s.config.memSize < buf.base.toNat + span → faults .access buf.base) ∧
            (buf.base.toNat + span ≤ s.config.memSize →
              (s.config.memSize < st.toNat + (8 + 28 * n) → faults .access st) ∧
              (st.toNat + (8 + 28 * n) ≤ s.config.memSize →
                (∃ a, (st.toNat ≤ a ∧ a < st.toNat + (8 + 28 * n)) ∧ buf.base.toNat ≤ a ∧ a < buf.base.toNat + span) →
                faults .overlap st))))))

/-- An active FIR whose checks pass completes; it changes only the words of its channel stream and OFF, IN and OUT of its
state block (never N or H); OFF moves on by COUNT modulo N; and until the first block completes each output is the word
that stood in OUT at its offset, a lag of N samples. It runs frame by frame, over as many blocks as COUNT reaches: M i is
the memory before frame i, whose offset is o = (OFF + i) mod N; the sample goes into IN[o], the word OUT[o] takes its place,
and where o is N − 1 the block's product is added into the output history shifted down by N (R176, R181, R182, R183,
R186). -/
def Obligations.FirFiltersInPlace : Prop :=
  ∀ (count : Word) (buf : Stream) (st : Word) (k : Nat) (s : State), buf.wf = true → count ≠ 0 → st ≠ 0 → s.quiet →
    let n := firLen s.mem st.toNat
    let off := firOff s.mem st.toNat
    let span := 8 * count.toNat * buf.nch.toNat
    n = 2 ^ k → n ≤ 65536 → off < n → st.toNat % 8 = 0 → buf.base.toNat % 8 = 0 →
    buf.base.toNat + span ≤ s.config.memSize → st.toNat + (8 + 28 * n) ≤ s.config.memSize →
    (st.toNat + (8 + 28 * n) ≤ buf.base.toNat ∨ buf.base.toNat + span ≤ st.toNat) →
    ∃ t, exec (.fir count buf st) s = .next t ∧ s.completedTo t ∧ t.lfsr = s.lfsr ∧ t.gains = s.gains ∧
      firLen t.mem st.toNat = n ∧ firOff t.mem st.toNat = (off + count.toNat) % n ∧
      (∀ i < count.toNat, off + i < n →
        t.mem.readCanon 0 (Stream.sampleAddr buf i) = s.mem.readCanon 0 (firOut st.toNat n (off + i))) ∧
      s.mem.sameOutside (Stream.sampleBytes buf count ++ byteRange (st.toNat + 4) (4 + 24 * n)) t.mem ∧
      ∃ M : Nat → Memory, M 0 = s.mem ∧
        (∀ a, a ∉ byteRange (st.toNat + 4) 4 → t.mem.peek a = (M count.toNat).peek a) ∧
        ∀ i < count.toNat,
          let o := (off + i) % n
          let sample := Stream.sampleAddr buf i
          let x : Nat → Int := fun j =>
            if j = o then (M i).readCanon 0 sample else (M i).readCanon 0 (firIn st.toNat j)
          let h : Nat → Int := fun m =>
            ((M i).read 0 (firCoeff st.toNat n m) 4 : Int).bmod (2 ^ 32)
          let p : Nat → Int := fun j =>
            (∑ m ∈ Finset.range n, ∑ k ∈ Finset.range n, if m + k = j then h m * x k else 0) / 2 ^ 30
          let touched := byteRange sample 8 ++ byteRange (firIn st.toNat o) 8
          (M (i + 1)).readCanon 0 sample = (M i).readCanon 0 (firOut st.toNat n o) ∧
          (M (i + 1)).readCanon 0 (firIn st.toNat o) = (M i).readCanon 0 sample ∧
          (o + 1 ≠ n → (M i).sameOutside touched (M (i + 1))) ∧
          (o + 1 = n →
            (∀ j < n, (M (i + 1)).readCanon 0 (firOut st.toNat n j) =
              ((M i).readCanon 0 (firOut st.toNat n (n + j)) + p j).bmod (2 ^ 64)) ∧
            (∀ j < n, (M (i + 1)).readCanon 0 (firOut st.toNat n (n + j)) = (p (n + j)).bmod (2 ^ 64)) ∧
            (M i).sameOutside (touched ++ byteRange (firOut st.toNat n 0) (16 * n)) (M (i + 1)))

/-- A FIR that completes exactly the current block: the block's product with the kernel, the exact sum of R181 floored by
2^30, is added into the output history shifted down by N, and OFF returns to 0 (R181, R182). -/
def Obligations.FirBlockIsTheConvolution : Prop :=
  ∀ (count : Word) (buf : Stream) (st : Word) (k : Nat) (s : State), buf.wf = true → count ≠ 0 → st ≠ 0 → s.quiet →
    let n := firLen s.mem st.toNat
    let off := firOff s.mem st.toNat
    let span := 8 * count.toNat * buf.nch.toNat
    n = 2 ^ k → n ≤ 65536 → off + count.toNat = n → st.toNat % 8 = 0 → buf.base.toNat % 8 = 0 →
    buf.base.toNat + span ≤ s.config.memSize → st.toNat + (8 + 28 * n) ≤ s.config.memSize →
    (st.toNat + (8 + 28 * n) ≤ buf.base.toNat ∨ buf.base.toNat + span ≤ st.toNat) →
    let x : Nat → Int := fun j => if j < off then s.mem.readCanon 0 (firIn st.toNat j)
      else s.mem.readCanon 0 (Stream.sampleAddr buf (j - off))
    let h : Nat → Int := fun m => (s.mem.read 0 (firCoeff st.toNat n m) 4 : Int).bmod (2 ^ 32)
    let p : Nat → Int := fun j =>
      (∑ m ∈ Finset.range n, ∑ i ∈ Finset.range n, if m + i = j then h m * x i else 0) / 2 ^ 30
    ∃ t, exec (.fir count buf st) s = .next t ∧ s.completedTo t ∧ firOff t.mem st.toNat = 0 ∧
      (∀ j < n, t.mem.readCanon 0 (firIn st.toNat j) = x j) ∧
      (∀ j < n, t.mem.readCanon 0 (firOut st.toNat n j) =
        (s.mem.readCanon 0 (firOut st.toNat n (n + j)) + p j).bmod (2 ^ 64)) ∧
      (∀ j < n, t.mem.readCanon 0 (firOut st.toNat n (n + j)) = (p (n + j)).bmod (2 ^ 64))

/-- The identity kernel of length 1 (H[0] = 2^30), from a state block whose upper output word is 0, delays the channel by
exactly one sample: the first output is the initial OUT[0] (R185). -/
def Obligations.FirUnitKernelDelaysByOne : Prop :=
  ∀ (count : Word) (buf : Stream) (st : Word) (s : State), buf.wf = true → count ≠ 0 → st ≠ 0 → s.quiet →
    let span := 8 * count.toNat * buf.nch.toNat
    firLen s.mem st.toNat = 1 → firOff s.mem st.toNat = 0 → s.mem.read 0 (firCoeff st.toNat 1 0) 4 = 2 ^ 30 →
    s.mem.readCanon 0 (firOut st.toNat 1 1) = 0 → st.toNat % 8 = 0 → buf.base.toNat % 8 = 0 →
    buf.base.toNat + span ≤ s.config.memSize → st.toNat + 36 ≤ s.config.memSize →
    (st.toNat + 36 ≤ buf.base.toNat ∨ buf.base.toNat + span ≤ st.toNat) →
    ∃ t, exec (.fir count buf st) s = .next t ∧ s.completedTo t ∧
      (∀ i < count.toNat, t.mem.readCanon 0 (Stream.sampleAddr buf i) =
        if i = 0 then s.mem.readCanon 0 (firOut st.toNat 1 0)
        else s.mem.readCanon 0 (Stream.sampleAddr buf (i - 1))) ∧
      t.mem.readCanon 0 (firOut st.toNat 1 0) = s.mem.readCanon 0 (Stream.sampleAddr buf (count.toNat - 1))

/-! ## Invariant and termination -/

/-- The reset state is legal (R43, R230; the model's own fields as log entries 2 to 6 and 18 say). -/
def Obligations.ResetStateIsLegal : Prop := State.reset.Inv

/-- Every step, of the sequencer, the host or the platform, takes a legal state to a legal state (R26, R28, R30, R34,
R36, R45; the clauses about the model's own fields are log entries 4 to 6 and 18). -/
def Obligations.EveryStepKeepsLegality : Prop :=
  ∀ s t : State, s.Inv → step s = .next t → t.Inv

/-- In a memory of less than 2^32 bytes every run with no host action in it ends, within MEM_SIZE / 32 + 1 steps
(R243). -/
def Obligations.RunsEndInASmallMemory : Prop :=
  ∀ s : State, s.schedule = [] → s.busy = true → s.cmdPtr.toNat % 32 = 0 → s.config.memSize < 2 ^ 32 →
    s.endsWithin (s.config.memSize / 32 + 1)

/-! ## Host -/

/-- After power-on reset every register and gain entry has its reset value, IRQ is 0, and no memory byte is defined,
whatever the block held before (R230). Which bytes are defined is the model's own form: a byte is undefined where nothing is
listed, and then reads as a free value (log entry 1, DESIGN CHOICE). -/
def Obligations.PowerOnResetsEverything : Prop :=
  ∀ s : State, ∃ t, hostAct .powerOn s = .next t ∧ t.readRegister 0x00 = 0x53434443 ∧ t.readRegister 0x08 = 0 ∧
    t.irqEn = 0 ∧ t.cmdPtr = 0 ∧ t.faultCause = .none ∧ t.faultInfo = 0 ∧ t.lfsr = 1 ∧ t.gainIdx = 0 ∧
    (∀ b c, gainGet t.gains b c = 0x80000000) ∧ t.busy = false ∧ t.done = false ∧ t.fault = false ∧ t.stopped = false ∧
    t.stopPending = false ∧ t.irq = false ∧ t.mem.cells = [] ∧ ∀ a, t.mem.defined a = false

/-- The RESET strobe beats START and STOP and gives every register its reset value (R25, R231); where it arrives at a
command boundary or while idle and the host has not raced with the run (log entry 7) it leaves memory unchanged (R232's
last sentence; the model's field `executing`, log entry 18, says which it is). -/
def Obligations.ResetStrobeResetsAllButMemory : Prop :=
  ∀ (s : State) (v : Word), v.getLsbD 2 = true →
    let t := s.writeRegister 0x04 v
    t.statusWord = 0 ∧ t.irqEn = 0 ∧ t.cmdPtr = 0 ∧ t.faultCause = .none ∧ t.faultInfo = 0 ∧ t.lfsr = 1 ∧
    t.gainIdx = 0 ∧ (∀ b c, gainGet t.gains b c = 0x80000000) ∧ t.irq = false ∧ t.config = s.config ∧
    (s.quiet → s.executing = false → ∀ a, t.mem.peek a = s.mem.peek a)

/-- A reset that cuts the executing command short, with a stop request pending or not: the command's destination bytes are
unspecified, every other byte is kept, none changes where the command ends the run or faults, and every register has its
reset value (R232). That a command is executing, and which bytes count as unspecified, are the model's own form (log entries
7 and 18). -/
def Obligations.MidCommandResetKeepsOtherBytes : Prop :=
  ∀ (s : State) (v : Word), s.quiet → s.busy = true → s.executing = true → v.getLsbD 2 = true →
    let t := s.writeRegister 0x04 v
    let cuts := fun (i : Instr) (a : Nat) => s.cmdPtr.toNat + 32 ≤ s.config.memSize ∧
      decode (fetchWords s) = .ok i ∧ commandCheck i s = none ∧ a ∈ destBytes i s.mem
    (∀ a, t.mem.peek a = s.mem.peek a ∨ ∃ i, cuts i a) ∧ (∀ i a, cuts i a → t.mem.defined a = false) ∧
    t.statusWord = 0 ∧ t.irqEn = 0 ∧ t.cmdPtr = 0 ∧ t.faultCause = .none ∧ t.faultInfo = 0 ∧ t.lfsr = 1 ∧
    t.gainIdx = 0 ∧ (∀ b c, gainGet t.gains b c = 0x80000000) ∧ t.irq = false ∧ t.executing = false

/-- An accepted START: BUSY becomes 1, DONE, FAULT, STOPPED and the fault registers are cleared, and nothing else of the
block changes; with STOP in the same write the stop request is pending at once (R25). A START while BUSY = 1 is ignored
(R91). -/
def Obligations.StartBeginsARun : Prop :=
  ∀ (s : State) (v : Word), v.getLsbD 2 = false → v.getLsbD 0 = true →
    (s.busy = false →
      let t := s.writeRegister 0x04 v
      t.busy = true ∧ t.done = false ∧ t.fault = false ∧ t.stopped = false ∧ t.faultCause = .none ∧ t.faultInfo = 0 ∧
      t.stopPending = (s.stopPending || v.getLsbD 1) ∧ t.cmdPtr = s.cmdPtr ∧ t.lfsr = s.lfsr ∧ t.gains = s.gains ∧
      t.mem = s.mem ∧ t.irqEn = s.irqEn ∧ t.gainIdx = s.gainIdx) ∧
    (s.busy = true → s.writeRegister 0x04 v = if v.getLsbD 1 then { s with stopPending := true } else s)

/-- A START while BUSY = 1 and a STOP while BUSY = 0 are ignored; a STOP while BUSY = 1 sets STOP_PENDING (R25, R36). -/
def Obligations.StrobesAreIgnoredOutOfTurn : Prop :=
  ∀ (s : State) (v : Word), v.getLsbD 2 = false →
    (s.busy = true → v.getLsbD 1 = false → s.writeRegister 0x04 v = s) ∧
    (s.busy = false → v.getLsbD 0 = false → s.writeRegister 0x04 v = s) ∧
    (s.busy = true → v.getLsbD 1 = true → s.writeRegister 0x04 v = { s with stopPending := true })

/-- STATUS reads its five bits and 0 above them; writing 1 clears DONE, FAULT or STOPPED, writing 0 leaves it, and bits 0
and 4 cannot be written (R26). -/
def Obligations.StatusIsWriteOneToClear : Prop :=
  ∀ (s : State) (v : Word) (k : Nat),
    (s.readRegister 0x08).getLsbD k =
      (k == 0 && s.busy || k == 1 && s.done || k == 2 && s.fault || k == 3 && s.stopped || k == 4 && s.stopPending) ∧
    ((s.writeRegister 0x08 v).readRegister 0x08).getLsbD k =
      ((s.readRegister 0x08).getLsbD k && !((k == 1 || k == 2 || k == 3) && v.getLsbD k))

/-- While a run is in progress a write of any register but CTRL leaves CMD_PTR, the LFSR, the gains and memory alone, and
what the next command then does to them is unchanged (R39). -/
def Obligations.BusyProtectsTheRun : Prop :=
  ∀ (s : State) (offset : Nat) (v : Word), s.busy = true → offset ≠ 0x04 →
    let w := s.writeRegister offset v
    (w.cmdPtr = s.cmdPtr ∧ w.lfsr = s.lfsr ∧ w.gains = s.gains ∧ w.mem = s.mem ∧ w.busy = true ∧
      w.stopPending = s.stopPending) ∧
    w.irqEn = (if offset = 0x0C then v &&& 0x0000000E else s.irqEn) ∧
    w.gainIdx = (if offset = 0x20 then v &&& 0x00000F3F else s.gainIdx) ∧
    ∀ (i : Instr) (t : State), exec i s = .next t →
      ∃ u, exec i w = .next u ∧ u.cmdPtr = t.cmdPtr ∧ u.lfsr = t.lfsr ∧ u.gains = t.gains ∧ u.mem = t.mem ∧
        u.busy = t.busy

/-- What the host reads back from the registers it may write: CMD_PTR without its low 5 bits, IRQ_EN bits [3:1], GAIN_IDX
bits [5:0] and [11:8], the whole LFSR; ID and CTRL are not written (R24, R25, R27, R28, R31, R32). At any time FAULT_CAUSE
reads the code of its cause in bits [7:0] and 0 above, FAULT_INFO the information word (R29, R30, R201). -/
def Obligations.RegistersReadBack : Prop :=
  (∀ s : State, s.readRegister 0x18 = s.faultInfo ∧
    ∀ p ∈ ([(.none, 0x00), (.fetchAccess, 0x01), (.illegalOpcode, 0x02), (.reservedField, 0x03), (.illegalFormat, 0x04),
        (.illegalChannel, 0x05), (.illegalParam, 0x06), (.misaligned, 0x07), (.access, 0x08), (.firState, 0x09),
        (.overlap, 0x0A)] : List (Cause × Word)),
      s.faultCause = p.1 → s.readRegister 0x14 = p.2) ∧
  ∀ (s : State) (v : Word), s.busy = false →
    (s.writeRegister 0x10 v).readRegister 0x10 = (v / 32) * 32 ∧
    (s.writeRegister 0x0C v).readRegister 0x0C = v &&& 0x0000000E ∧
    (s.writeRegister 0x20 v).readRegister 0x20 = v &&& 0x00000F3F ∧
    (s.writeRegister 0x1C v).readRegister 0x1C = v ∧
    s.writeRegister 0x00 v = s ∧ s.readRegister 0x00 = 0x53434443 ∧ s.readRegister 0x04 = 0 ∧
    s.writeRegister 0x14 v = s ∧ s.writeRegister 0x18 v = s

/-- GAIN_DATA while idle stores min(v, 2^31) into the entry GAIN_IDX selects and no other, and reads the selected entry;
while a run is in progress the write is ignored; after reset it reads 0x80000000 (R33). -/
def Obligations.GainDataReachesTheSelectedEntry : Prop :=
  State.reset.readRegister 0x24 = 0x80000000 ∧
  ∀ (s : State) (v : Word),
    let b := (s.gainIdx.extractLsb' 8 4).toNat
    let c := (s.gainIdx.extractLsb' 0 6).toNat
    (s.busy = false →
      (gainGet (s.writeRegister 0x24 v).gains b c).toNat = min v.toNat (2 ^ 31) ∧
      ((s.writeRegister 0x24 v).readRegister 0x24).toNat = min v.toNat (2 ^ 31) ∧
      (∀ b' c', b' ≠ b ∨ c' ≠ c → gainGet (s.writeRegister 0x24 v).gains b' c' = gainGet s.gains b' c') ∧
      s.readRegister 0x24 = gainGet s.gains b c) ∧
    (s.busy = true → s.writeRegister 0x24 v = s)

/-- The reserved offsets 0x28 … 0x3C read 0 and ignore writes (R37). -/
def Obligations.ReservedOffsetsReadZero : Prop :=
  ∀ (s : State) (offset : Nat) (v : Word), 0x28 ≤ offset → offset ≤ 0x3C →
    s.readRegister offset = 0 ∧ s.writeRegister offset v = s

/-- An access of the register window that is not an aligned 32-bit one is refused by name (R38). An aligned 32-bit one is
made: a read answers the register and changes nothing of the block, a write does what the register's rule says and no more
(R23, R38). Where the schedule has a host action next, the step is that action (R242; log entry 2, DESIGN CHOICE). -/
def Obligations.OddWindowAccessIsRefused : Prop :=
  ∀ (s : State) (offset : BitVec 6) (bytes : Nat) (v : Word),
    (bytes ≠ 4 ∨ offset.toNat % 4 ≠ 0 →
      hostAct (.windowRead offset bytes) s = .refused (.windowAccess offset bytes) ∧
      hostAct (.windowWrite offset bytes v) s = .refused (.windowAccess offset bytes)) ∧
    (bytes = 4 → offset.toNat % 4 = 0 →
      (∃ t, hostAct (.windowRead offset bytes) s = .next t ∧ t.reply = .word (s.readRegister offset.toNat) ∧
        s.sameBlock t) ∧
      (∃ t, hostAct (.windowWrite offset bytes v) s = .next t ∧ t.reply = .none ∧
        (s.writeRegister offset.toNat v).sameBlock t)) ∧
    ∀ (a : HostAction) (rest : List Turn), s.schedule = .host a :: rest → step s = hostAct a { s with schedule := rest }

/-- The interrupt output is the OR of the three enabled status bits (R210), and a run's end at HALT, a fault or a stop
raises it exactly when that source is enabled or another pending one is (R208, R209). -/
def Obligations.InterruptIsLevelSensitive : Prop :=
  ∀ (s : State) (f : FaultReport),
    (s.irq = true ↔ (s.done = true ∧ s.irqEn.getLsbD 1 = true) ∨ (s.fault = true ∧ s.irqEn.getLsbD 2 = true) ∨
      (s.stopped = true ∧ s.irqEn.getLsbD 3 = true)) ∧
    (s.done = false → s.fault = false → s.stopped = false →
      s.takeHalt.irq = s.irqEn.getLsbD 1 ∧ (s.takeFault f).irq = s.irqEn.getLsbD 2 ∧
      s.takeStop.irq = s.irqEn.getLsbD 3)

/-- During a run a host read of CMD_PTR, the LFSR or GAIN_DATA shows the value at some boundary of the run; START begins
the run's boundaries and every completed command adds the one it reaches (R40, R104). That a boundary the run has not
reached yet cannot be shown is the model's choice (log entry 6). -/
def Obligations.ReadsDuringARunShowABoundary : Prop :=
  (∀ s : State, s.busy = true → s.boundaries ≠ [] →
    ∃ b ∈ s.boundaries, s.readRegister 0x10 = b.cmdPtr ∧ s.readRegister 0x1C = b.lfsr ∧
      s.readRegister 0x24 =
        gainGet b.gains (s.gainIdx.extractLsb' 8 4).toNat (s.gainIdx.extractLsb' 0 6).toNat) ∧
  (∀ s : State, s.startRun.boundaries = [⟨s.cmdPtr, s.lfsr, s.gains⟩]) ∧
  (∀ (i : Instr) (s t : State), i ≠ .halt → commandCheck i s = none → exec i s = .next t →
    t.boundaries = ⟨t.cmdPtr, t.lfsr, t.gains⟩ :: s.boundaries)

/-- A host write of a memory byte takes effect on that byte alone and changes no register (R53, R59(a)); in a run it is
recorded as racing; and the end of a run changes only bytes that both the host and the run wrote (R59(c)). The record is the model's own form
(log entry 4). -/
def Obligations.HostWritesRaceOnlyWhereTheRunWrites : Prop :=
  (∀ (s : State) (addr : Word) (v : Byte), addr.toNat < s.config.memSize →
    ∃ t, hostAct (.memWrite addr v) s = .next t ∧ t.mem.peek addr.toNat = v ∧
      (∀ a, a ≠ addr.toNat → t.mem.peek a = s.mem.peek a) ∧ t.cmdPtr = s.cmdPtr ∧ t.busy = s.busy ∧
      t.done = s.done ∧ t.fault = s.fault ∧ t.stopped = s.stopped ∧ t.stopPending = s.stopPending ∧ t.irqEn = s.irqEn ∧
      t.faultCause = s.faultCause ∧ t.faultInfo = s.faultInfo ∧ t.gainIdx = s.gainIdx ∧ t.config = s.config ∧
      t.gains = s.gains ∧ t.lfsr = s.lfsr ∧ (∀ a, a ∈ t.mem.raced ↔ a ∈ s.mem.raced ∨ (s.busy = true ∧ a = addr.toNat))) ∧
  (∀ (m : Memory) (a : Nat), (a ∉ m.raced ∨ ∀ e ∈ m.log, e.1 ≠ a) → m.endRun.peek a = m.peek a)

/-- Once the host has read STATUS and seen BUSY = 0, its read of a memory byte returns the byte the memory holds
(R58(b)). While a command executes, a host read returns the byte the command leaves or one that it, or an earlier command of
a run whose end the host has not seen, overwrote, and changes no byte (R53, R59(d)). What the model keeps of a run is its own
form (log entries 5 and 18). -/
def Obligations.HostSeesMemoryAfterStatus : Prop :=
  (∀ (s : State) (addr : Word) (rest : List Turn), s.busy = false → s.executing = false → s.mem.log = [] →
    addr.toNat < s.config.memSize →
    s.schedule = .host (.windowRead 0x08 4) :: .host (.memRead addr) :: rest →
    ∃ t u, step s = .next t ∧ t.reply = .word s.statusWord ∧ step t = .next u ∧
      u.reply = .byte (s.mem.peek addr.toNat)) ∧
  (∀ (s w : State) (i : Instr) (addr : Word), s.busy = true → s.executing = true → s.quiet →
    s.cmdPtr.toNat + 32 ≤ s.config.memSize → decode (fetchWords s) = .ok i → commandCheck i s = none → i ≠ .halt →
    exec i s = .next w → addr.toNat < s.config.memSize →
    ∃ t b, hostAct (.memRead addr) s = .next t ∧ t.reply = .byte b ∧ (∀ a, t.mem.peek a = s.mem.peek a) ∧
      (b = w.mem.peek addr.toNat ∨
        ∃ e ∈ w.mem.log ++ w.mem.unseen, e.1 = addr.toNat ∧ b = w.mem.valueOf addr.toNat e.2))
end

