-- ==== Sys2Proof/Laws/Decode.lean ====
section
/-! SUPPORT. The decoder's field checks against the tables of legal fields, and the byte laws of a word. -/

namespace Sys2Proof.Laws

theorem toNat_pack (b3 b2 b1 b0 : Byte) :
    (pack b3 b2 b1 b0).toNat = b3.toNat * 2 ^ 24 + b2.toNat * 2 ^ 16 + b1.toNat * 2 ^ 8 + b0.toNat := by
  have h3 := b3.isLt; have h2 := b2.isLt; have h1 := b1.isLt; have h0 := b0.isLt
  have e1 : ∀ x y : Byte, (x ++ y : BitVec (8 + 8)).toNat = x.toNat * 2 ^ 8 + y.toNat := fun x y => by
    rw [BitVec.toNat_append, ← Nat.shiftLeft_add_eq_or_of_lt y.isLt, Nat.shiftLeft_eq]
  have e2 : ∀ x y : BitVec 16, (x ++ y : BitVec (16 + 16)).toNat = x.toNat * 2 ^ 16 + y.toNat := fun x y => by
    rw [BitVec.toNat_append, ← Nat.shiftLeft_add_eq_or_of_lt y.isLt, Nat.shiftLeft_eq]
  unfold pack
  rw [e2, e1, e1]
  omega

theorem toNat_byte0 (w : Word) : (byte0 w).toNat = w.toNat % 2 ^ 8 := by
  simp [byte0]

theorem toNat_byte1 (w : Word) : (byte1 w).toNat = w.toNat / 2 ^ 8 % 2 ^ 8 := by
  simp [byte1, Nat.shiftRight_eq_div_pow]

theorem toNat_byte2 (w : Word) : (byte2 w).toNat = w.toNat / 2 ^ 16 % 2 ^ 8 := by
  simp [byte2, Nat.shiftRight_eq_div_pow]

theorem toNat_byte3 (w : Word) : (byte3 w).toNat = w.toNat / 2 ^ 24 % 2 ^ 8 := by
  simp [byte3, Nat.shiftRight_eq_div_pow]

@[simp] theorem byte0_pack (b3 b2 b1 b0 : Byte) : byte0 (pack b3 b2 b1 b0) = b0 := by
  have h0 := b0.isLt
  apply BitVec.eq_of_toNat_eq
  rw [toNat_byte0, toNat_pack]
  omega

@[simp] theorem byte1_pack (b3 b2 b1 b0 : Byte) : byte1 (pack b3 b2 b1 b0) = b1 := by
  have h1 := b1.isLt; have h0 := b0.isLt
  apply BitVec.eq_of_toNat_eq
  rw [toNat_byte1, toNat_pack]
  omega

@[simp] theorem byte2_pack (b3 b2 b1 b0 : Byte) : byte2 (pack b3 b2 b1 b0) = b2 := by
  have h2 := b2.isLt; have h1 := b1.isLt; have h0 := b0.isLt
  apply BitVec.eq_of_toNat_eq
  rw [toNat_byte2, toNat_pack]
  omega

@[simp] theorem byte3_pack (b3 b2 b1 b0 : Byte) : byte3 (pack b3 b2 b1 b0) = b3 := by
  have h3 := b3.isLt; have h2 := b2.isLt; have h1 := b1.isLt; have h0 := b0.isLt
  apply BitVec.eq_of_toNat_eq
  rw [toNat_byte3, toNat_pack]
  omega

/-- A word is its four bytes. -/
theorem pack_bytes (w : Word) : pack (byte3 w) (byte2 w) (byte1 w) (byte0 w) = w := by
  have hw := w.isLt
  apply BitVec.eq_of_toNat_eq
  rw [toNat_pack, toNat_byte0, toNat_byte1, toNat_byte2, toNat_byte3]
  omega

/-- The bytes of eight words read back as the words. -/
theorem takeWords_wordBytes (w : Words) (rest : List Byte) :
    takeWords (w.toList.flatMap wordBytes ++ rest) = some (w, rest) := by
  simp [takeWords, Words.toList, wordBytes, takeWord, pack_bytes]

/-! ## Opcodes and flag bytes -/

@[simp] theorem ofCode_code (op : Opcode) : Opcode.ofCode op.code = some op := by cases op <;> decide

@[simp] theorem mixFlags_ofByte_toByte (f : MixFlags) : MixFlags.ofByte f.toByte = f := by
  obtain ⟨a, b, c, d⟩ := f
  cases a <;> cases b <;> cases c <;> cases d <;> decide

@[simp] theorem enOfByte_enToByte (b : Bool) : enOfByte (enToByte b) = b := by cases b <;> decide

/-! ## Field checks -/

/-- R70's rule of legality names exactly the codes of its table. -/
theorem legalFmt_iff_table : ∀ fmt : Byte, legalFmt fmt = fmtWf fmt := by decide +kernel

theorem legalNch_iff_wf (nch : Byte) : legalNch nch = nchWf nch := rfl

theorem legalStream_iff_wf (st : Stream) : legalStream st = st.wf := rfl

/-- One check of R82 passes exactly when its condition holds. -/
@[simp] theorem fmtFault_none (fmt : Byte) : fmtFault fmt = none ↔ legalFmt fmt = true := by
  unfold fmtFault; split <;> simp_all

@[simp] theorem channelFault_none (b : Bool) (w : Word) : channelFault b w = none ↔ b = true := by
  unfold channelFault; split <;> simp_all

@[simp] theorem paramFault_none (b : Bool) (w : Word) : paramFault b w = none ↔ b = true := by
  unfold paramFault; split <;> simp_all

end Sys2Proof.Laws
end

