-- ==== Sys2Proof/Laws/Loop.lean ====
section
/-! SUPPORT. The loop of R14: its equations and its one induction. -/

namespace Sys2Proof.Laws

open Sys2Proof.Machine

@[simp] theorem loop_zero {α : Type} (f : Nat → α → α) (x : α) : loop 0 f x = x := rfl

@[simp] theorem loop_succ {α : Type} (n : Nat) (f : Nat → α → α) (x : α) : loop (n + 1) f x = f n (loop n f x) := rfl

/-- What holds at the start and is kept by each iteration holds at the end. -/
theorem loop_induction {α : Type} {n : Nat} {f : Nat → α → α} {x : α} (P : Nat → α → Prop) (h0 : P 0 x)
    (hs : ∀ i y, i < n → P i y → P (i + 1) (f i y)) : P n (loop n f x) := by
  induction n with
  | zero => exact h0
  | succ k ih => exact hs k _ (Nat.lt_succ_self k) (ih fun i y hi => hs i y (Nat.lt_succ_of_lt hi))

/-- A quantity that no iteration changes is unchanged at the end. -/
theorem loop_fixed {α β : Type} {n : Nat} {f : Nat → α → α} {x : α} (g : α → β) (h : ∀ i y, i < n → g (f i y) = g y) :
    g (loop n f x) = g x :=
  loop_induction (fun _ y => g y = g x) rfl fun i y hi hy => (h i y hi).trans hy

/-- Iterations that change nothing leave the start as it is. -/
theorem loop_id {α : Type} {n : Nat} {f : Nat → α → α} {x : α} (h : ∀ i, i < n → f i x = x) : loop n f x = x :=
  loop_induction (fun _ y => y = x) rfl fun i y hi hy => by subst hy; exact h i hi

/-- A loop of m + n iterations is one of m and then one of n whose index goes on. -/
theorem loop_add {α : Type} (m n : Nat) (f : Nat → α → α) (x : α) :
    loop (m + n) f x = loop n (fun i => f (m + i)) (loop m f x) := by
  induction n with
  | zero => rfl
  | succ k ih => rw [← Nat.add_assoc, loop_succ, ih, loop_succ]

@[simp] theorem sumTo_zero (f : Nat → Int) : sumTo 0 f = 0 := rfl

@[simp] theorem sumTo_succ (n : Nat) (f : Nat → Int) : sumTo (n + 1) f = sumTo n f + f n := rfl

/-- A sum whose terms agree. -/
theorem sumTo_congr {n : Nat} {f g : Nat → Int} (h : ∀ i, i < n → f i = g i) : sumTo n f = sumTo n g := by
  induction n with
  | zero => rfl
  | succ k ih => rw [sumTo_succ, sumTo_succ, ih fun i hi => h i (Nat.lt_succ_of_lt hi), h k (Nat.lt_succ_self k)]

/-- A sum of zeros. -/
theorem sumTo_eq_zero {n : Nat} {f : Nat → Int} (h : ∀ i, i < n → f i = 0) : sumTo n f = 0 := by
  induction n with
  | zero => rfl
  | succ k ih => rw [sumTo_succ, ih fun i hi => h i (Nat.lt_succ_of_lt hi), h k (Nat.lt_succ_self k)]; rfl

end Sys2Proof.Laws
end

