-- ==== Sys2Proof/Laws/Memory.lean ====
section
/-! SUPPORT. The laws of the memory: read after write, frames, and the canonical form that every operation keeps. -/

namespace Sys2Proof.Laws

open Sys2Proof.Machine

/-! ## The list of written bytes -/

theorem lookup_insert_same (cells : List Host.Cell) (a : Nat) (b : Byte) : lookupCell (insertCell cells a b) a = some b := by
  induction cells with
  | nil => simp [insertCell, lookupCell]
  | cons c rest ih =>
    obtain ⟨x, v⟩ := c
    simp only [insertCell]
    split
    · simp [lookupCell]
    · split
      · simp [lookupCell]
      · rename_i h1 h2
        simp [lookupCell, Ne.symm h2, ih]

theorem lookup_insert_other {cells : List Host.Cell} {a x : Nat} (b : Byte) (h : x ≠ a) :
    lookupCell (insertCell cells a b) x = lookupCell cells x := by
  induction cells with
  | nil => simp [insertCell, lookupCell, Ne.symm h]
  | cons c rest ih =>
    obtain ⟨y, v⟩ := c
    simp only [insertCell]
    split
    · simp [lookupCell, Ne.symm h]
    · split
      · rename_i h2
        subst h2
        simp [lookupCell, Ne.symm h]
      · simp only [lookupCell]
        split <;> simp_all

theorem cellsWf_insert {size lo a : Nat} {cells : List Host.Cell} (b : Byte) (h : cellsWf size lo cells = true)
    (hlo : lo ≤ a) (ha : a < size) : cellsWf size lo (insertCell cells a b) = true := by
  induction cells generalizing lo with
  | nil => simp [insertCell, cellsWf, hlo, ha]
  | cons c rest ih =>
    obtain ⟨y, v⟩ := c
    simp only [cellsWf, Bool.and_eq_true, decide_eq_true_eq] at h
    obtain ⟨⟨h1, h2⟩, h3⟩ := h
    simp only [insertCell]
    split
    · simp only [cellsWf, Bool.and_eq_true, decide_eq_true_eq]
      refine ⟨⟨hlo, ha⟩, ⟨by omega, h2⟩, h3⟩
    · split
      · rename_i h4
        subst h4
        simp [cellsWf, hlo, ha, h3]
      · simp only [cellsWf, Bool.and_eq_true, decide_eq_true_eq]
        exact ⟨⟨h1, h2⟩, ih h3 (by omega)⟩

/-! ## Scrambled bytes -/

theorem lookup_scramble_other {f : Nat → Byte} {addrs : List Nat} {cells : List Host.Cell} {x : Nat} (h : x ∉ addrs) :
    lookupCell (scramble f addrs cells) x = lookupCell cells x := by
  induction addrs generalizing cells with
  | nil => rfl
  | cons a rest ih =>
    simp only [List.mem_cons, not_or] at h
    simp only [scramble, List.foldl_cons]
    exact (ih h.2).trans (lookup_insert_other _ h.1)

theorem lookup_scramble_mem {f : Nat → Byte} {addrs : List Nat} {cells : List Host.Cell} {x : Nat} (h : x ∈ addrs) :
    lookupCell (scramble f addrs cells) x = some (f x) := by
  induction addrs generalizing cells with
  | nil => exact absurd h (List.not_mem_nil)
  | cons a rest ih =>
    simp only [scramble, List.foldl_cons]
    by_cases hr : x ∈ rest
    · exact ih hr
    · have hx : x = a := by simpa [hr] using h
      subst hx
      exact (lookup_scramble_other hr).trans (lookup_insert_same _ _ _)

theorem cellsWf_scramble {size : Nat} {f : Nat → Byte} {addrs : List Nat} {cells : List Host.Cell}
    (h : cellsWf size 0 cells = true) (ha : ∀ a ∈ addrs, a < size) : cellsWf size 0 (scramble f addrs cells) = true := by
  induction addrs generalizing cells with
  | nil => exact h
  | cons a rest ih =>
    simp only [scramble, List.foldl_cons]
    exact ih (cellsWf_insert _ h (Nat.zero_le a) (ha a (by simp))) fun b hb => ha b (by simp [hb])

/-! ## One byte -/

@[simp] theorem peek_put_same (m : Memory) (a : Nat) (b : Byte) : (m.put a b).peek a = b := by
  simp [Memory.put, Memory.peek, lookup_insert_same]

theorem peek_put_other {m : Memory} {a x : Nat} (b : Byte) (h : x ≠ a) : (m.put a b).peek x = m.peek x := by
  simp [Memory.put, Memory.peek, lookup_insert_other b h]

@[simp] theorem put_raced (m : Memory) (a : Nat) (b : Byte) : (m.put a b).raced = m.raced := rfl
@[simp] theorem put_unseen (m : Memory) (a : Nat) (b : Byte) : (m.put a b).unseen = m.unseen := rfl
@[simp] theorem put_epoch (m : Memory) (a : Nat) (b : Byte) : (m.put a b).epoch = m.epoch := rfl
@[simp] theorem put_draws (m : Memory) (a : Nat) (b : Byte) : (m.put a b).draws = m.draws := rfl

theorem put_wf {size : Nat} {m : Memory} {a : Nat} (b : Byte) (h : m.wf size = true) (ha : a < size) :
    (m.put a b).wf size = true := cellsWf_insert b h (Nat.zero_le a) ha

/-- With no racing host, the block reads the byte the memory holds. -/
theorem blockByte_quiet {m : Memory} (key a : Nat) (h : m.raced = []) : m.blockByte key a = m.peek a := by
  simp [Memory.blockByte, h]

/-! ## Several bytes -/

@[simp] theorem read_zero (m : Memory) (key a : Nat) : m.read key a 0 = 0 := rfl
@[simp] theorem readBE_zero (m : Memory) (key a : Nat) : m.readBE key a 0 = 0 := rfl
@[simp] theorem write_zero (m : Memory) (a v : Nat) : m.write a 0 v = m := rfl
@[simp] theorem writeBE_zero (m : Memory) (a v : Nat) : m.writeBE a 0 v = m := rfl

theorem read_succ (m : Memory) (key a n : Nat) :
    m.read key a (n + 1) = (m.blockByte key a).toNat + 256 * m.read key (a + 1) n := rfl

theorem readBE_succ (m : Memory) (key a n : Nat) :
    m.readBE key a (n + 1) = (m.blockByte key a).toNat * 256 ^ n + m.readBE key (a + 1) n := rfl

theorem write_succ (m : Memory) (a n v : Nat) :
    m.write a (n + 1) v = (m.put a (BitVec.ofNat 8 v)).write (a + 1) n (v / 256) := rfl

theorem writeBE_succ (m : Memory) (a n v : Nat) :
    m.writeBE a (n + 1) v = (m.put a (BitVec.ofNat 8 (v / 256 ^ n))).writeBE (a + 1) n v := rfl

@[simp] theorem write_raced (m : Memory) (a n v : Nat) : (m.write a n v).raced = m.raced := by
  induction n generalizing m a v with
  | zero => rfl
  | succ k ih => rw [write_succ, ih, put_raced]

@[simp] theorem writeBE_raced (m : Memory) (a n v : Nat) : (m.writeBE a n v).raced = m.raced := by
  induction n generalizing m a with
  | zero => rfl
  | succ k ih => rw [writeBE_succ, ih, put_raced]

@[simp] theorem write_epoch (m : Memory) (a n v : Nat) : (m.write a n v).epoch = m.epoch := by
  induction n generalizing m a v with
  | zero => rfl
  | succ k ih => rw [write_succ, ih, put_epoch]

@[simp] theorem writeBE_epoch (m : Memory) (a n v : Nat) : (m.writeBE a n v).epoch = m.epoch := by
  induction n generalizing m a with
  | zero => rfl
  | succ k ih => rw [writeBE_succ, ih, put_epoch]

@[simp] theorem write_draws (m : Memory) (a n v : Nat) : (m.write a n v).draws = m.draws := by
  induction n generalizing m a v with
  | zero => rfl
  | succ k ih => rw [write_succ, ih, put_draws]

@[simp] theorem writeBE_draws (m : Memory) (a n v : Nat) : (m.writeBE a n v).draws = m.draws := by
  induction n generalizing m a with
  | zero => rfl
  | succ k ih => rw [writeBE_succ, ih, put_draws]

/-- Frame: a write changes only the bytes it names (R53). -/
theorem peek_write_other {m : Memory} {a n v x : Nat} (h : x < a ∨ a + n ≤ x) : (m.write a n v).peek x = m.peek x := by
  induction n generalizing m a v with
  | zero => rfl
  | succ k ih => rw [write_succ, ih (by omega), peek_put_other _ (by omega)]

theorem peek_writeBE_other {m : Memory} {a n v x : Nat} (h : x < a ∨ a + n ≤ x) :
    (m.writeBE a n v).peek x = m.peek x := by
  induction n generalizing m a with
  | zero => rfl
  | succ k ih => rw [writeBE_succ, ih (by omega), peek_put_other _ (by omega)]

/-- Byte k of a little-endian write (R12). -/
theorem peek_write_byte {m : Memory} {a n v k : Nat} (h : k < n) :
    (m.write a n v).peek (a + k) = BitVec.ofNat 8 (v / 256 ^ k) := by
  induction n generalizing m a v k with
  | zero => omega
  | succ j ih =>
    rw [write_succ]
    cases k with
    | zero => rw [peek_write_other (by omega), Nat.add_zero, peek_put_same]; simp
    | succ i =>
      rw [show a + (i + 1) = a + 1 + i by omega, ih (by omega), Nat.div_div_eq_div_mul, Nat.pow_succ, Nat.mul_comm]

/-- Byte k of a big-endian write (R12). -/
theorem peek_writeBE_byte {m : Memory} {a n v k : Nat} (h : k < n) :
    (m.writeBE a n v).peek (a + k) = BitVec.ofNat 8 (v / 256 ^ (n - 1 - k)) := by
  induction n generalizing m a k with
  | zero => omega
  | succ j ih =>
    rw [writeBE_succ]
    cases k with
    | zero => rw [peek_writeBE_other (by omega), Nat.add_zero, peek_put_same]; simp
    | succ i =>
      rw [show a + (i + 1) = a + 1 + i by omega, ih (by omega)]
      congr 3
      omega

theorem write_wf {size : Nat} {m : Memory} {a n : Nat} (v : Nat) (h : m.wf size = true) (ha : a + n ≤ size) :
    (m.write a n v).wf size = true := by
  induction n generalizing m a v with
  | zero => exact h
  | succ k ih => rw [write_succ]; exact ih _ (put_wf _ h (by omega)) (by omega)

theorem writeBE_wf {size : Nat} {m : Memory} {a n : Nat} (v : Nat) (h : m.wf size = true) (ha : a + n ≤ size) :
    (m.writeBE a n v).wf size = true := by
  induction n generalizing m a with
  | zero => exact h
  | succ k ih => rw [writeBE_succ]; exact ih (put_wf _ h (by omega)) (by omega)

/-- A read depends on the bytes read and nothing else, when no host races. -/
theorem read_congr {m m' : Memory} {key key' a n : Nat} (hm : m.raced = []) (hm' : m'.raced = [])
    (h : ∀ x, a ≤ x → x < a + n → m'.peek x = m.peek x) : m'.read key' a n = m.read key a n := by
  induction n generalizing a with
  | zero => rfl
  | succ k ih =>
    rw [read_succ, read_succ, blockByte_quiet _ _ hm, blockByte_quiet _ _ hm', h a (Nat.le_refl a) (by omega),
      ih fun x h1 h2 => h x (by omega) (by omega)]

theorem readBE_congr {m m' : Memory} {key key' a n : Nat} (hm : m.raced = []) (hm' : m'.raced = [])
    (h : ∀ x, a ≤ x → x < a + n → m'.peek x = m.peek x) : m'.readBE key' a n = m.readBE key a n := by
  induction n generalizing a with
  | zero => rfl
  | succ k ih =>
    rw [readBE_succ, readBE_succ, blockByte_quiet _ _ hm, blockByte_quiet _ _ hm', h a (Nat.le_refl a) (by omega),
      ih fun x h1 h2 => h x (by omega) (by omega)]

theorem read_lt (m : Memory) (key a n : Nat) : m.read key a n < 256 ^ n := by
  induction n generalizing a with
  | zero => simp
  | succ k ih =>
    have h1 := (m.blockByte key a).isLt
    have h2 := ih (a + 1)
    rw [read_succ, Nat.pow_succ]
    omega

theorem readBE_lt (m : Memory) (key a n : Nat) : m.readBE key a n < 256 ^ n := by
  induction n generalizing a with
  | zero => simp
  | succ k ih =>
    have h1 := (m.blockByte key a).isLt
    have h2 := ih (a + 1)
    rw [readBE_succ, Nat.pow_succ]
    nlinarith [Nat.mul_le_mul_right (256 ^ k) (show (m.blockByte key a).toNat ≤ 255 by omega)]

/-- Read after write (R12), little-endian. -/
theorem read_write_same {m : Memory} (key a n v : Nat) (h : m.raced = []) : (m.write a n v).read key a n = v % 256 ^ n := by
  induction n generalizing m a v with
  | zero => simp [Nat.mod_one]
  | succ k ih =>
    have hp : (m.put a (BitVec.ofNat 8 v)).raced = [] := h
    rw [read_succ, write_succ, ih _ _ hp, blockByte_quiet _ _ (by simpa using hp), peek_write_other (by omega),
      peek_put_same, BitVec.toNat_ofNat]
    rw [show (256 : Nat) ^ (k + 1) = 256 * 256 ^ k by rw [Nat.pow_succ, Nat.mul_comm], Nat.mod_mul]

/-- Read after write (R12), big-endian. -/
theorem readBE_writeBE_same {m : Memory} (key a n v : Nat) (h : m.raced = []) :
    (m.writeBE a n v).readBE key a n = v % 256 ^ n := by
  induction n generalizing m a with
  | zero => simp [Nat.mod_one]
  | succ k ih =>
    have hp : (m.put a (BitVec.ofNat 8 (v / 256 ^ k))).raced = [] := h
    rw [readBE_succ, writeBE_succ, ih _ hp, blockByte_quiet _ _ (by simpa using hp), peek_writeBE_other (by omega),
      peek_put_same, BitVec.toNat_ofNat, Nat.add_comm, Nat.mul_comm]
    exact (Nat.mod_mul (x := v) (a := 256 ^ k) (b := 256)).symm

/-! ## Canonical words (R12) -/

@[simp] theorem writeCanon_raced (m : Memory) (a : Nat) (v : Int) : (m.writeCanon a v).raced = m.raced := write_raced ..
@[simp] theorem writeCanon_epoch (m : Memory) (a : Nat) (v : Int) : (m.writeCanon a v).epoch = m.epoch := write_epoch ..
@[simp] theorem writeCanon_draws (m : Memory) (a : Nat) (v : Int) : (m.writeCanon a v).draws = m.draws := write_draws ..

theorem peek_writeCanon_other {m : Memory} {a x : Nat} {v : Int} (h : x < a ∨ a + 8 ≤ x) :
    (m.writeCanon a v).peek x = m.peek x := peek_write_other h

theorem writeCanon_wf {size : Nat} {m : Memory} {a : Nat} (v : Int) (h : m.wf size = true) (ha : a + 8 ≤ size) :
    (m.writeCanon a v).wf size = true := write_wf _ h ha

theorem readCanon_congr {m m' : Memory} {key key' a : Nat} (hm : m.raced = []) (hm' : m'.raced = [])
    (h : ∀ x, a ≤ x → x < a + 8 → m'.peek x = m.peek x) : m'.readCanon key' a = m.readCanon key a := by
  unfold Memory.readCanon
  rw [read_congr hm hm' h]

theorem toInt64_range (x : BitVec 64) : -2 ^ 63 ≤ x.toInt ∧ x.toInt < 2 ^ 63 :=
  ⟨BitVec.le_toInt x, BitVec.toInt_lt⟩

theorem wrap64_range (v : Int) : -2 ^ 63 ≤ wrap64 v ∧ wrap64 v < 2 ^ 63 := toInt64_range _

/-- An int64 is its own wrap. -/
theorem wrap64_of_range {v : Int} (h1 : -2 ^ 63 ≤ v) (h2 : v < 2 ^ 63) : wrap64 v = v := by
  unfold wrap64
  rw [BitVec.toInt_ofInt]
  exact Int.bmod_eq_of_le (by omega) (by omega)

/-- Read after write of a canonical word: the int64 with the same low 64 bits. -/
theorem readCanon_writeCanon_same {m : Memory} (key a : Nat) (v : Int) (h : m.raced = []) :
    (m.writeCanon a v).readCanon key a = wrap64 v := by
  have e : ((v % 2 ^ 64).toNat : Int) = v % 2 ^ 64 := Int.toNat_of_nonneg (Int.emod_nonneg _ (by norm_num))
  have hb : BitVec.ofNat 64 ((v % 2 ^ 64).toNat % 2 ^ 64) = BitVec.ofInt 64 v := by
    apply BitVec.eq_of_toNat_eq
    rw [BitVec.toNat_ofNat, BitVec.toNat_ofInt]
    push_cast
    omega
  unfold Memory.readCanon Memory.writeCanon sext wrap64
  rw [read_write_same _ _ _ _ h, show (256 : Nat) ^ 8 = 2 ^ 64 by norm_num, hb]

theorem readCanon_range (m : Memory) (key a : Nat) : -2 ^ 63 ≤ m.readCanon key a ∧ m.readCanon key a < 2 ^ 63 := by
  unfold Memory.readCanon sext
  exact toInt64_range _

/-! ## The step counter, the end of a run, and the host -/

@[simp] theorem tick_peek (m : Memory) (a : Nat) : m.tick.peek a = m.peek a := rfl
@[simp] theorem tick_raced (m : Memory) : m.tick.raced = m.raced := rfl
@[simp] theorem tick_cells (m : Memory) : m.tick.cells = m.cells := rfl
@[simp] theorem tick_wf (m : Memory) (size : Nat) : m.tick.wf size = m.wf size := rfl

@[simp] theorem endRun_raced (m : Memory) : m.endRun.raced = [] := rfl
@[simp] theorem endRun_log (m : Memory) : m.endRun.log = [] := rfl

/-- With no racing host the end of a run leaves every byte as it is (R59). -/
theorem endRun_peek {m : Memory} (a : Nat) (h : m.raced = []) : m.endRun.peek a = m.peek a := by
  simp [Memory.endRun, Memory.peek, h, scramble]

/-- The end of a run changes only bytes that both the host and the run wrote (R59(c)). -/
theorem endRun_peek_other {m : Memory} {a : Nat} (h : m.raced.contains a = false ∨ m.runWrote a = false) :
    m.endRun.peek a = m.peek a := by
  have ha : a ∉ m.raced.filter m.runWrote := by
    intro hm
    rw [List.mem_filter] at hm
    rcases h with h | h
    · simp [hm.1] at h
    · simp [hm.2] at h
  simp only [Memory.endRun, Memory.peek, lookup_scramble_other ha]

theorem endRun_wf {size : Nat} {m : Memory} (h : m.wf size = true) (hr : ∀ a ∈ m.raced, a < size) :
    m.endRun.wf size = true :=
  cellsWf_scramble h fun a ha => hr a (List.mem_filter.1 ha).1

theorem cutShort_peek_other {m : Memory} (whole : Memory) {addrs : List Nat} {a : Nat} (h : a ∉ addrs) :
    (m.cutShort whole addrs).peek a = m.peek a := by
  simp only [Memory.cutShort, Memory.peek, lookup_scramble_other h]

theorem cutShort_wf {size : Nat} {m : Memory} (whole : Memory) {addrs : List Nat} (h : m.wf size = true)
    (ha : ∀ a ∈ addrs, a < size) : (m.cutShort whole addrs).wf size = true := cellsWf_scramble h ha

@[simp] theorem cutShort_raced (m whole : Memory) (addrs : List Nat) : (m.cutShort whole addrs).raced = m.raced := rfl

theorem hostWrite_peek_same (m : Memory) (busy : Bool) (a : Nat) (b : Byte) : (m.hostWrite busy a b).peek a = b := by
  simp [Memory.hostWrite, Memory.peek, lookup_insert_same]

theorem hostWrite_peek_other {m : Memory} {a x : Nat} (busy : Bool) (b : Byte) (h : x ≠ a) :
    (m.hostWrite busy a b).peek x = m.peek x := by
  simp [Memory.hostWrite, Memory.peek, lookup_insert_other b h]

theorem hostWrite_wf {size : Nat} {m : Memory} {a : Nat} (busy : Bool) (b : Byte) (h : m.wf size = true) (ha : a < size) :
    (m.hostWrite busy a b).wf size = true := cellsWf_insert b h (Nat.zero_le a) ha

/-- Outside any run, and with every earlier run's end seen, the host reads the byte the memory holds (R58(b)). -/
theorem hostRead_settled {m : Memory} (a : Nat) (h1 : m.log = []) (h2 : m.unseen = []) : m.hostRead a = m.peek a := by
  simp [Memory.hostRead, Memory.held, Memory.runWrote, h1, h2, Nat.mod_one]

end Sys2Proof.Laws
end

