-- ==== Sys2Proof/Laws/State.lean ====
section
/-! SUPPORT. One lemma per field per update of the state, so that no later proof unfolds a record update. -/

namespace Sys2Proof.Laws

open Sys2Proof.Machine

variable (s : State)

/-! ## After START (R91) -/

@[simp] theorem startRun_config : s.startRun.config = s.config := rfl
@[simp] theorem startRun_cmdPtr : s.startRun.cmdPtr = s.cmdPtr := rfl
@[simp] theorem startRun_busy : s.startRun.busy = true := rfl
@[simp] theorem startRun_done : s.startRun.done = false := rfl
@[simp] theorem startRun_fault : s.startRun.fault = false := rfl
@[simp] theorem startRun_stopped : s.startRun.stopped = false := rfl
@[simp] theorem startRun_stopPending : s.startRun.stopPending = s.stopPending := rfl
@[simp] theorem startRun_irqEn : s.startRun.irqEn = s.irqEn := rfl
@[simp] theorem startRun_faultCause : s.startRun.faultCause = .none := rfl
@[simp] theorem startRun_faultInfo : s.startRun.faultInfo = 0 := rfl
@[simp] theorem startRun_lfsr : s.startRun.lfsr = s.lfsr := rfl
@[simp] theorem startRun_gainIdx : s.startRun.gainIdx = s.gainIdx := rfl
@[simp] theorem startRun_gains : s.startRun.gains = s.gains := rfl
@[simp] theorem startRun_mem : s.startRun.mem = s.mem := rfl
@[simp] theorem startRun_boundaries : s.startRun.boundaries = [s.boundary] := rfl
@[simp] theorem startRun_executing : s.startRun.executing = false := rfl
@[simp] theorem startRun_schedule : s.startRun.schedule = s.schedule := rfl
@[simp] theorem startRun_reply : s.startRun.reply = s.reply := rfl

/-! ## After HALT (R95) -/

@[simp] theorem takeHalt_config : s.takeHalt.config = s.config := rfl
@[simp] theorem takeHalt_cmdPtr : s.takeHalt.cmdPtr = s.cmdPtr := rfl
@[simp] theorem takeHalt_busy : s.takeHalt.busy = false := rfl
@[simp] theorem takeHalt_done : s.takeHalt.done = true := rfl
@[simp] theorem takeHalt_fault : s.takeHalt.fault = s.fault := rfl
@[simp] theorem takeHalt_stopped : s.takeHalt.stopped = s.stopped := rfl
@[simp] theorem takeHalt_stopPending : s.takeHalt.stopPending = false := rfl
@[simp] theorem takeHalt_irqEn : s.takeHalt.irqEn = s.irqEn := rfl
@[simp] theorem takeHalt_faultCause : s.takeHalt.faultCause = s.faultCause := rfl
@[simp] theorem takeHalt_faultInfo : s.takeHalt.faultInfo = s.faultInfo := rfl
@[simp] theorem takeHalt_lfsr : s.takeHalt.lfsr = s.lfsr := rfl
@[simp] theorem takeHalt_gainIdx : s.takeHalt.gainIdx = s.gainIdx := rfl
@[simp] theorem takeHalt_gains : s.takeHalt.gains = s.gains := rfl
@[simp] theorem takeHalt_mem : s.takeHalt.mem = s.mem.endRun := rfl
@[simp] theorem takeHalt_boundaries : s.takeHalt.boundaries = [] := rfl
@[simp] theorem takeHalt_executing : s.takeHalt.executing = false := rfl
@[simp] theorem takeHalt_schedule : s.takeHalt.schedule = s.schedule := rfl
@[simp] theorem takeHalt_reply : s.takeHalt.reply = s.reply := rfl

/-! ## After a fault (R96) -/

@[simp] theorem takeFault_config (f : FaultReport) : (s.takeFault f).config = s.config := rfl
@[simp] theorem takeFault_cmdPtr (f : FaultReport) : (s.takeFault f).cmdPtr = s.cmdPtr := rfl
@[simp] theorem takeFault_busy (f : FaultReport) : (s.takeFault f).busy = false := rfl
@[simp] theorem takeFault_done (f : FaultReport) : (s.takeFault f).done = s.done := rfl
@[simp] theorem takeFault_fault (f : FaultReport) : (s.takeFault f).fault = true := rfl
@[simp] theorem takeFault_stopped (f : FaultReport) : (s.takeFault f).stopped = s.stopped := rfl
@[simp] theorem takeFault_stopPending (f : FaultReport) : (s.takeFault f).stopPending = false := rfl
@[simp] theorem takeFault_irqEn (f : FaultReport) : (s.takeFault f).irqEn = s.irqEn := rfl
@[simp] theorem takeFault_faultCause (f : FaultReport) : (s.takeFault f).faultCause = f.cause := rfl
@[simp] theorem takeFault_faultInfo (f : FaultReport) : (s.takeFault f).faultInfo = f.info := rfl
@[simp] theorem takeFault_lfsr (f : FaultReport) : (s.takeFault f).lfsr = s.lfsr := rfl
@[simp] theorem takeFault_gainIdx (f : FaultReport) : (s.takeFault f).gainIdx = s.gainIdx := rfl
@[simp] theorem takeFault_gains (f : FaultReport) : (s.takeFault f).gains = s.gains := rfl
@[simp] theorem takeFault_mem (f : FaultReport) : (s.takeFault f).mem = s.mem.endRun := rfl
@[simp] theorem takeFault_boundaries (f : FaultReport) : (s.takeFault f).boundaries = [] := rfl
@[simp] theorem takeFault_executing (f : FaultReport) : (s.takeFault f).executing = false := rfl
@[simp] theorem takeFault_schedule (f : FaultReport) : (s.takeFault f).schedule = s.schedule := rfl
@[simp] theorem takeFault_reply (f : FaultReport) : (s.takeFault f).reply = s.reply := rfl

/-! ## After a stop (R97) -/

@[simp] theorem takeStop_config : s.takeStop.config = s.config := rfl
@[simp] theorem takeStop_cmdPtr : s.takeStop.cmdPtr = s.cmdPtr := rfl
@[simp] theorem takeStop_busy : s.takeStop.busy = false := rfl
@[simp] theorem takeStop_done : s.takeStop.done = s.done := rfl
@[simp] theorem takeStop_fault : s.takeStop.fault = s.fault := rfl
@[simp] theorem takeStop_stopped : s.takeStop.stopped = true := rfl
@[simp] theorem takeStop_stopPending : s.takeStop.stopPending = false := rfl
@[simp] theorem takeStop_irqEn : s.takeStop.irqEn = s.irqEn := rfl
@[simp] theorem takeStop_faultCause : s.takeStop.faultCause = s.faultCause := rfl
@[simp] theorem takeStop_faultInfo : s.takeStop.faultInfo = s.faultInfo := rfl
@[simp] theorem takeStop_lfsr : s.takeStop.lfsr = s.lfsr := rfl
@[simp] theorem takeStop_gainIdx : s.takeStop.gainIdx = s.gainIdx := rfl
@[simp] theorem takeStop_gains : s.takeStop.gains = s.gains := rfl
@[simp] theorem takeStop_mem : s.takeStop.mem = s.mem.endRun := rfl
@[simp] theorem takeStop_boundaries : s.takeStop.boundaries = [] := rfl
@[simp] theorem takeStop_executing : s.takeStop.executing = false := rfl
@[simp] theorem takeStop_schedule : s.takeStop.schedule = s.schedule := rfl
@[simp] theorem takeStop_reply : s.takeStop.reply = s.reply := rfl

/-! ## After the end of a command (R94) -/

@[simp] theorem advance_config : s.advance.config = s.config := rfl
@[simp] theorem advance_cmdPtr : s.advance.cmdPtr = s.cmdPtr + 32 := rfl
@[simp] theorem advance_busy : s.advance.busy = s.busy := rfl
@[simp] theorem advance_done : s.advance.done = s.done := rfl
@[simp] theorem advance_fault : s.advance.fault = s.fault := rfl
@[simp] theorem advance_stopped : s.advance.stopped = s.stopped := rfl
@[simp] theorem advance_stopPending : s.advance.stopPending = s.stopPending := rfl
@[simp] theorem advance_irqEn : s.advance.irqEn = s.irqEn := rfl
@[simp] theorem advance_faultCause : s.advance.faultCause = s.faultCause := rfl
@[simp] theorem advance_faultInfo : s.advance.faultInfo = s.faultInfo := rfl
@[simp] theorem advance_lfsr : s.advance.lfsr = s.lfsr := rfl
@[simp] theorem advance_gainIdx : s.advance.gainIdx = s.gainIdx := rfl
@[simp] theorem advance_gains : s.advance.gains = s.gains := rfl
@[simp] theorem advance_mem : s.advance.mem = s.mem.tick := rfl
@[simp] theorem advance_boundaries : s.advance.boundaries = ⟨s.cmdPtr + 32, s.lfsr, s.gains⟩ :: s.boundaries := rfl
@[simp] theorem advance_executing : s.advance.executing = false := rfl
@[simp] theorem advance_schedule : s.advance.schedule = s.schedule := rfl
@[simp] theorem advance_reply : s.advance.reply = s.reply := rfl

/-! ## After the register values of R43 -/

@[simp] theorem resetRegisters_config : s.resetRegisters.config = s.config := rfl
@[simp] theorem resetRegisters_cmdPtr : s.resetRegisters.cmdPtr = 0 := rfl
@[simp] theorem resetRegisters_busy : s.resetRegisters.busy = false := rfl
@[simp] theorem resetRegisters_done : s.resetRegisters.done = false := rfl
@[simp] theorem resetRegisters_fault : s.resetRegisters.fault = false := rfl
@[simp] theorem resetRegisters_stopped : s.resetRegisters.stopped = false := rfl
@[simp] theorem resetRegisters_stopPending : s.resetRegisters.stopPending = false := rfl
@[simp] theorem resetRegisters_irqEn : s.resetRegisters.irqEn = 0 := rfl
@[simp] theorem resetRegisters_faultCause : s.resetRegisters.faultCause = .none := rfl
@[simp] theorem resetRegisters_faultInfo : s.resetRegisters.faultInfo = 0 := rfl
@[simp] theorem resetRegisters_lfsr : s.resetRegisters.lfsr = 1 := rfl
@[simp] theorem resetRegisters_gainIdx : s.resetRegisters.gainIdx = 0 := rfl
@[simp] theorem resetRegisters_gains : s.resetRegisters.gains = unityGains := rfl
@[simp] theorem resetRegisters_mem : s.resetRegisters.mem = s.mem := rfl
@[simp] theorem resetRegisters_boundaries : s.resetRegisters.boundaries = [] := rfl
@[simp] theorem resetRegisters_executing : s.resetRegisters.executing = false := rfl
@[simp] theorem resetRegisters_schedule : s.resetRegisters.schedule = s.schedule := rfl
@[simp] theorem resetRegisters_reply : s.resetRegisters.reply = s.reply := rfl

/-! ## After the end of a host access -/

@[simp] theorem afterAccess_config (r : Reply) : (s.afterAccess r).config = s.config := rfl
@[simp] theorem afterAccess_cmdPtr (r : Reply) : (s.afterAccess r).cmdPtr = s.cmdPtr := rfl
@[simp] theorem afterAccess_busy (r : Reply) : (s.afterAccess r).busy = s.busy := rfl
@[simp] theorem afterAccess_done (r : Reply) : (s.afterAccess r).done = s.done := rfl
@[simp] theorem afterAccess_fault (r : Reply) : (s.afterAccess r).fault = s.fault := rfl
@[simp] theorem afterAccess_stopped (r : Reply) : (s.afterAccess r).stopped = s.stopped := rfl
@[simp] theorem afterAccess_stopPending (r : Reply) : (s.afterAccess r).stopPending = s.stopPending := rfl
@[simp] theorem afterAccess_irqEn (r : Reply) : (s.afterAccess r).irqEn = s.irqEn := rfl
@[simp] theorem afterAccess_faultCause (r : Reply) : (s.afterAccess r).faultCause = s.faultCause := rfl
@[simp] theorem afterAccess_faultInfo (r : Reply) : (s.afterAccess r).faultInfo = s.faultInfo := rfl
@[simp] theorem afterAccess_lfsr (r : Reply) : (s.afterAccess r).lfsr = s.lfsr := rfl
@[simp] theorem afterAccess_gainIdx (r : Reply) : (s.afterAccess r).gainIdx = s.gainIdx := rfl
@[simp] theorem afterAccess_gains (r : Reply) : (s.afterAccess r).gains = s.gains := rfl
@[simp] theorem afterAccess_mem (r : Reply) : (s.afterAccess r).mem = s.mem.tick := rfl
@[simp] theorem afterAccess_boundaries (r : Reply) : (s.afterAccess r).boundaries = s.boundaries := rfl
@[simp] theorem afterAccess_executing (r : Reply) : (s.afterAccess r).executing = s.executing := rfl
@[simp] theorem afterAccess_schedule (r : Reply) : (s.afterAccess r).schedule = s.schedule := rfl
@[simp] theorem afterAccess_reply (r : Reply) : (s.afterAccess r).reply = r := rfl

/-! ## After a STATUS write (R26) -/

@[simp] theorem writeStatus_config (v : Word) : (s.writeStatus v).config = s.config := rfl
@[simp] theorem writeStatus_cmdPtr (v : Word) : (s.writeStatus v).cmdPtr = s.cmdPtr := rfl
@[simp] theorem writeStatus_busy (v : Word) : (s.writeStatus v).busy = s.busy := rfl
@[simp] theorem writeStatus_done (v : Word) : (s.writeStatus v).done = (s.done && !v.getLsbD 1) := rfl
@[simp] theorem writeStatus_fault (v : Word) : (s.writeStatus v).fault = (s.fault && !v.getLsbD 2) := rfl
@[simp] theorem writeStatus_stopped (v : Word) : (s.writeStatus v).stopped = (s.stopped && !v.getLsbD 3) := rfl
@[simp] theorem writeStatus_stopPending (v : Word) : (s.writeStatus v).stopPending = s.stopPending := rfl
@[simp] theorem writeStatus_irqEn (v : Word) : (s.writeStatus v).irqEn = s.irqEn := rfl
@[simp] theorem writeStatus_faultCause (v : Word) : (s.writeStatus v).faultCause = s.faultCause := rfl
@[simp] theorem writeStatus_faultInfo (v : Word) : (s.writeStatus v).faultInfo = s.faultInfo := rfl
@[simp] theorem writeStatus_lfsr (v : Word) : (s.writeStatus v).lfsr = s.lfsr := rfl
@[simp] theorem writeStatus_gainIdx (v : Word) : (s.writeStatus v).gainIdx = s.gainIdx := rfl
@[simp] theorem writeStatus_gains (v : Word) : (s.writeStatus v).gains = s.gains := rfl
@[simp] theorem writeStatus_mem (v : Word) : (s.writeStatus v).mem = s.mem := rfl
@[simp] theorem writeStatus_boundaries (v : Word) : (s.writeStatus v).boundaries = s.boundaries := rfl
@[simp] theorem writeStatus_executing (v : Word) : (s.writeStatus v).executing = s.executing := rfl
@[simp] theorem writeStatus_schedule (v : Word) : (s.writeStatus v).schedule = s.schedule := rfl
@[simp] theorem writeStatus_reply (v : Word) : (s.writeStatus v).reply = s.reply := rfl

/-! ## After the RESET strobe (R231) -/

@[simp] theorem resetStrobe_config : s.resetStrobe.config = s.config := rfl
@[simp] theorem resetStrobe_cmdPtr : s.resetStrobe.cmdPtr = 0 := rfl
@[simp] theorem resetStrobe_busy : s.resetStrobe.busy = false := rfl
@[simp] theorem resetStrobe_done : s.resetStrobe.done = false := rfl
@[simp] theorem resetStrobe_fault : s.resetStrobe.fault = false := rfl
@[simp] theorem resetStrobe_stopped : s.resetStrobe.stopped = false := rfl
@[simp] theorem resetStrobe_stopPending : s.resetStrobe.stopPending = false := rfl
@[simp] theorem resetStrobe_irqEn : s.resetStrobe.irqEn = 0 := rfl
@[simp] theorem resetStrobe_faultCause : s.resetStrobe.faultCause = .none := rfl
@[simp] theorem resetStrobe_faultInfo : s.resetStrobe.faultInfo = 0 := rfl
@[simp] theorem resetStrobe_lfsr : s.resetStrobe.lfsr = 1 := rfl
@[simp] theorem resetStrobe_gainIdx : s.resetStrobe.gainIdx = 0 := rfl
@[simp] theorem resetStrobe_gains : s.resetStrobe.gains = unityGains := rfl
@[simp] theorem resetStrobe_mem :
    s.resetStrobe.mem = (if s.busy then (s.mem.cutShort s.wholeMemory (inFlightBytes s)).endRun else s.mem) := rfl
@[simp] theorem resetStrobe_boundaries : s.resetStrobe.boundaries = [] := rfl
@[simp] theorem resetStrobe_executing : s.resetStrobe.executing = false := rfl
@[simp] theorem resetStrobe_schedule : s.resetStrobe.schedule = s.schedule := rfl
@[simp] theorem resetStrobe_reply : s.resetStrobe.reply = s.reply := rfl

/-! ## After power-on reset (R230) -/

@[simp] theorem powerOn_config : s.powerOn.config = s.config := rfl
@[simp] theorem powerOn_cmdPtr : s.powerOn.cmdPtr = 0 := rfl
@[simp] theorem powerOn_busy : s.powerOn.busy = false := rfl
@[simp] theorem powerOn_done : s.powerOn.done = false := rfl
@[simp] theorem powerOn_fault : s.powerOn.fault = false := rfl
@[simp] theorem powerOn_stopped : s.powerOn.stopped = false := rfl
@[simp] theorem powerOn_stopPending : s.powerOn.stopPending = false := rfl
@[simp] theorem powerOn_irqEn : s.powerOn.irqEn = 0 := rfl
@[simp] theorem powerOn_faultCause : s.powerOn.faultCause = .none := rfl
@[simp] theorem powerOn_faultInfo : s.powerOn.faultInfo = 0 := rfl
@[simp] theorem powerOn_lfsr : s.powerOn.lfsr = 1 := rfl
@[simp] theorem powerOn_gainIdx : s.powerOn.gainIdx = 0 := rfl
@[simp] theorem powerOn_gains : s.powerOn.gains = unityGains := rfl
@[simp] theorem powerOn_mem : s.powerOn.mem = Memory.atPowerOn (s.mem.epoch + 1) s.mem.draws := rfl
@[simp] theorem powerOn_boundaries : s.powerOn.boundaries = [] := rfl
@[simp] theorem powerOn_executing : s.powerOn.executing = false := rfl
@[simp] theorem powerOn_schedule : s.powerOn.schedule = s.schedule := rfl
@[simp] theorem powerOn_reply : s.powerOn.reply = .none := rfl

/-! ## After a GAIN_DATA write (R33) -/

@[simp] theorem writeGainData_config (v : Word) : (s.writeGainData v).config = s.config := rfl
@[simp] theorem writeGainData_cmdPtr (v : Word) : (s.writeGainData v).cmdPtr = s.cmdPtr := rfl
@[simp] theorem writeGainData_busy (v : Word) : (s.writeGainData v).busy = s.busy := rfl
@[simp] theorem writeGainData_done (v : Word) : (s.writeGainData v).done = s.done := rfl
@[simp] theorem writeGainData_fault (v : Word) : (s.writeGainData v).fault = s.fault := rfl
@[simp] theorem writeGainData_stopped (v : Word) : (s.writeGainData v).stopped = s.stopped := rfl
@[simp] theorem writeGainData_stopPending (v : Word) : (s.writeGainData v).stopPending = s.stopPending := rfl
@[simp] theorem writeGainData_irqEn (v : Word) : (s.writeGainData v).irqEn = s.irqEn := rfl
@[simp] theorem writeGainData_faultCause (v : Word) : (s.writeGainData v).faultCause = s.faultCause := rfl
@[simp] theorem writeGainData_faultInfo (v : Word) : (s.writeGainData v).faultInfo = s.faultInfo := rfl
@[simp] theorem writeGainData_lfsr (v : Word) : (s.writeGainData v).lfsr = s.lfsr := rfl
@[simp] theorem writeGainData_gainIdx (v : Word) : (s.writeGainData v).gainIdx = s.gainIdx := rfl
@[simp] theorem writeGainData_gains (v : Word) : (s.writeGainData v).gains = gainSet s.gains (s.gainIdx.extractLsb' 8 4).toNat (s.gainIdx.extractLsb' 0 6).toNat
      (if v ≤ unityGain then v else unityGain) := rfl
@[simp] theorem writeGainData_mem (v : Word) : (s.writeGainData v).mem = s.mem := rfl
@[simp] theorem writeGainData_boundaries (v : Word) : (s.writeGainData v).boundaries = s.boundaries := rfl
@[simp] theorem writeGainData_executing (v : Word) : (s.writeGainData v).executing = s.executing := rfl
@[simp] theorem writeGainData_schedule (v : Word) : (s.writeGainData v).schedule = s.schedule := rfl
@[simp] theorem writeGainData_reply (v : Word) : (s.writeGainData v).reply = s.reply := rfl

end Sys2Proof.Laws
end

