-- ==== Sys2Proof/Laws/Ops.lean ====
section
/-! SUPPORT. What each shared operation can do, said once: the checks, gain entries, the end of a command, and the wire
samples. -/

namespace Sys2Proof.Laws

open Sys2Proof.Machine

/-! ## Checks -/

@[simp] theorem checkAlign8_none (a : Word) : checkAlign8 a = none ↔ a.toNat % 8 = 0 := by
  unfold checkAlign8; split <;> simp_all

@[simp] theorem checkRange_none (c : Config) (a : Word) (n : Nat) : checkRange c a n = none ↔ a.toNat + n ≤ c.memSize := by
  unfold checkRange; split <;> simp_all

theorem checkAlign8_some {a : Word} (h : a.toNat % 8 ≠ 0) : checkAlign8 a = some ⟨.misaligned, a⟩ := by
  simp [checkAlign8, h]

theorem checkRange_some {c : Config} {a : Word} {n : Nat} (h : c.memSize < a.toNat + n) :
    checkRange c a n = some ⟨.access, a⟩ := by
  simp [checkRange, h]

/-! ## The end of a command (R100) -/

@[simp] theorem commit_none (s e : State) : s.commit none e = e.advance := rfl

@[simp] theorem commit_some (s e : State) (f : FaultReport) : s.commit (some f) e = s.takeFault f := rfl

/-- A command either takes the fault of its first failing check or has its effect and completes. -/
theorem commit_cases (s e : State) (check : Option FaultReport) :
    (∃ f, check = some f ∧ s.commit check e = s.takeFault f) ∨ (check = none ∧ s.commit check e = e.advance) := by
  cases check with
  | none => exact .inr ⟨rfl, rfl⟩
  | some f => exact .inl ⟨f, rfl, rfl⟩

/-! ## Gain entries (R34) -/

theorem gainGet_gainSet_same {g : Gains} {b c : Nat} (v : Word) (hb : b < 16) (hc : c < 64) :
    gainGet (gainSet g b c v) b c = v := by
  unfold gainGet gainSet
  rw [Vector.getElem?_eq_getElem hb]
  simp [hb, hc]

theorem gainGet_gainSet_other {g : Gains} {b c b' c' : Nat} (v : Word) (h : b' ≠ b ∨ c' ≠ c) :
    gainGet (gainSet g b c v) b' c' = gainGet g b' c' := by
  unfold gainGet gainSet
  split
  · rfl
  · rename_i e he
    by_cases hb : b' = b
    · subst hb
      have hc : c' ≠ c := h.resolve_left (fun hn => hn rfl)
      have hlt : b' < 16 := by
        by_contra hn
        rw [Vector.getElem?_eq_none (by omega)] at he
        exact absurd he (by simp)
      rw [Vector.getElem?_setIfInBounds_self_of_lt hlt, he]
      simp [Ne.symm hc]
    · rw [Vector.getElem?_setIfInBounds_ne (Ne.symm hb)]

theorem gainGet_unity (b c : Nat) : gainGet unityGains b c = unityGain := by
  unfold gainGet unityGains
  by_cases hb : b < 16 <;> by_cases hc : c < 64 <;>
    simp [hb, hc]

theorem gainSet_legal {g : Gains} {b c : Nat} {v : Word} (h : gainsLegal g) (hv : v ≤ unityGain) :
    gainsLegal (gainSet g b c v) := by
  intro b' c'
  by_cases hx : b' ≠ b ∨ c' ≠ c
  · rw [gainGet_gainSet_other _ hx]; exact h b' c'
  · rw [not_or, not_not, not_not] at hx
    obtain ⟨rfl, rfl⟩ := hx
    by_cases hb : b' < 16
    · by_cases hc : c' < 64
      · rw [gainGet_gainSet_same _ hb hc]; exact hv
      · have : gainGet (gainSet g b' c' v) b' c' = unityGain := by
          unfold gainGet
          cases (gainSet g b' c' v)[b']? with
          | none => rfl
          | some e => simp [Vector.getElem?_eq_none (show 64 ≤ c' by omega)]
        rw [this]; exact BitVec.le_refl _
    · have : gainGet (gainSet g b' c' v) b' c' = unityGain := by
        unfold gainGet
        rw [Vector.getElem?_eq_none (by omega)]; rfl
      rw [this]; exact BitVec.le_refl _

/-! ## Wire samples (R111) -/

theorem fmtBytes_pos (fmt : Byte) : 1 ≤ fmtBytes fmt := Nat.le_add_left 1 _

theorem fmtBytes_le (fmt : Byte) : fmtBytes fmt ≤ 4 := by
  have := (fmt.extractLsb' 0 2).isLt
  unfold fmtBytes
  omega

@[simp] theorem writeWire_raced (m : Memory) (fmt : Byte) (a raw : Nat) : (writeWire m fmt a raw).raced = m.raced := by
  unfold writeWire; split <;> simp

@[simp] theorem writeWire_epoch (m : Memory) (fmt : Byte) (a raw : Nat) : (writeWire m fmt a raw).epoch = m.epoch := by
  unfold writeWire; split <;> simp

@[simp] theorem writeWire_draws (m : Memory) (fmt : Byte) (a raw : Nat) : (writeWire m fmt a raw).draws = m.draws := by
  unfold writeWire; split <;> simp

theorem peek_writeWire_other {m : Memory} {fmt : Byte} {a raw x : Nat} (h : x < a ∨ a + fmtBytes fmt ≤ x) :
    (writeWire m fmt a raw).peek x = m.peek x := by
  unfold writeWire
  split
  · exact peek_writeBE_other h
  · exact peek_write_other h

theorem writeWire_wf {size : Nat} {m : Memory} {fmt : Byte} {a : Nat} (raw : Nat) (h : m.wf size = true)
    (ha : a + fmtBytes fmt ≤ size) : (writeWire m fmt a raw).wf size = true := by
  unfold writeWire
  split
  · exact writeBE_wf _ h ha
  · exact write_wf _ h ha

theorem readWire_congr {m m' : Memory} {key key' : Nat} {fmt : Byte} {a : Nat} (hm : m.raced = []) (hm' : m'.raced = [])
    (h : ∀ x, a ≤ x → x < a + fmtBytes fmt → m'.peek x = m.peek x) : readWire m' key' fmt a = readWire m key fmt a := by
  unfold readWire
  split
  · exact readBE_congr hm hm' h
  · exact read_congr hm hm' h

theorem readWire_writeWire_same {m : Memory} (key : Nat) (fmt : Byte) (a raw : Nat) (h : m.raced = []) :
    readWire (writeWire m fmt a raw) key fmt a = raw % 256 ^ fmtBytes fmt := by
  unfold readWire writeWire
  split
  · exact readBE_writeBE_same _ _ _ _ h
  · exact read_write_same _ _ _ _ h

theorem readWire_lt (m : Memory) (key : Nat) (fmt : Byte) (a : Nat) : readWire m key fmt a < 256 ^ fmtBytes fmt := by
  unfold readWire
  split
  · exact readBE_lt ..
  · exact read_lt ..

/-! ## Ranges of addresses -/

theorem mem_byteRange {a n x : Nat} : x ∈ byteRange a n ↔ a ≤ x ∧ x < a + n := by
  unfold byteRange
  simp only [List.mem_map, List.mem_range]
  constructor
  · rintro ⟨k, hk, rfl⟩; omega
  · rintro ⟨h1, h2⟩; exact ⟨x - a, by omega, by omega⟩

theorem mem_sampleBytes {st : Stream} {count : Word} {x : Nat} :
    x ∈ Stream.sampleBytes st count ↔ ∃ i < count.toNat, Stream.sampleAddr st i ≤ x ∧ x < Stream.sampleAddr st i + 8 := by
  unfold Stream.sampleBytes
  simp only [List.mem_flatMap, List.mem_range, mem_byteRange]

/-- A sample of a stream lies in the stream's span (R54). -/
theorem sampleAddr_in_span {st : Stream} {count : Word} {i : Nat} (hc : st.ch.toNat < st.nch.toNat)
    (hi : i < count.toNat) :
    st.base.toNat ≤ Stream.sampleAddr st i ∧ Stream.sampleAddr st i + 8 ≤ st.base.toNat + Stream.spanBytes st count := by
  unfold Stream.sampleAddr Stream.spanBytes
  have h1 : (i + 1) * st.nch.toNat ≤ count.toNat * st.nch.toNat := Nat.mul_le_mul_right _ hi
  have h2 : (i + 1) * st.nch.toNat = i * st.nch.toNat + st.nch.toNat := by ring
  constructor
  · omega
  · rw [Nat.mul_assoc]; omega

end Sys2Proof.Laws
end

