-- ==== Sys2Proof/Laws/Commands.lean ====
section
/-! SUPPORT. What each command's loop can do, said once: it changes no byte outside its destination, races nothing, and
keeps the canonical form of the memory. -/

namespace Sys2Proof.Laws

open Sys2Proof.Machine

/-! ## IMPORT -/

theorem importLoop_raced (fmt : Byte) (src dst : Word) (n : Nat) (m : Memory) :
    (loop n (importStep fmt src dst) m).raced = m.raced :=
  loop_fixed Memory.raced fun i y _ => by simp [importStep]

theorem importLoop_frame {fmt : Byte} {src dst : Word} {n x : Nat} {m : Memory}
    (h : x < dst.toNat ∨ dst.toNat + 8 * n ≤ x) : (loop n (importStep fmt src dst) m).peek x = m.peek x :=
  loop_fixed (fun m : Memory => m.peek x) fun i y hi => by
    unfold importStep
    exact peek_writeCanon_other (by omega)

theorem importLoop_wf {size : Nat} {fmt : Byte} {src dst : Word} {n : Nat} {m : Memory} (h : m.wf size = true)
    (hd : dst.toNat + 8 * n ≤ size) : (loop n (importStep fmt src dst) m).wf size = true :=
  loop_induction (fun _ (m : Memory) => m.wf size = true) h fun i y hi hy => writeCanon_wf _ hy (by omega)

/-! ## EXPORT -/

theorem exportLoop_raced (fmt : Byte) (src dst : Word) (n : Nat) (m : Memory) :
    (loop n (exportStep fmt src dst) m).raced = m.raced :=
  loop_fixed Memory.raced fun i y _ => by simp [exportStep]

/-- Element i's wire bytes lie in the span. -/
theorem wire_offset {n b i : Nat} (hi : i < n) : i * b + b ≤ n * b := by
  have := Nat.mul_le_mul_right b hi
  rw [Nat.succ_mul] at this
  exact this

theorem exportLoop_frame {fmt : Byte} {src dst : Word} {n x : Nat} {m : Memory}
    (h : x < dst.toNat ∨ dst.toNat + n * fmtBytes fmt ≤ x) : (loop n (exportStep fmt src dst) m).peek x = m.peek x :=
  loop_fixed (fun m : Memory => m.peek x) fun i y hi => by
    unfold exportStep
    have := wire_offset (b := fmtBytes fmt) hi
    exact peek_writeWire_other (by omega)

theorem exportLoop_wf {size : Nat} {fmt : Byte} {src dst : Word} {n : Nat} {m : Memory} (h : m.wf size = true)
    (hd : dst.toNat + n * fmtBytes fmt ≤ size) : (loop n (exportStep fmt src dst) m).wf size = true :=
  loop_induction (fun _ (m : Memory) => m.wf size = true) h fun i y hi hy => by
    have := wire_offset (b := fmtBytes fmt) hi
    exact writeWire_wf _ hy (by omega)

/-! ## SILENCE -/

theorem silenceLoop_raced (fmt : Byte) (dst : Word) (n : Nat) (m : Memory) :
    (loop n (silenceStep fmt dst) m).raced = m.raced :=
  loop_fixed Memory.raced fun i y _ => by simp [silenceStep]

theorem silenceLoop_frame {fmt : Byte} {dst : Word} {n x : Nat} {m : Memory}
    (h : x < dst.toNat ∨ dst.toNat + n * fmtBytes fmt ≤ x) : (loop n (silenceStep fmt dst) m).peek x = m.peek x :=
  loop_fixed (fun m : Memory => m.peek x) fun i y hi => by
    unfold silenceStep
    have := wire_offset (b := fmtBytes fmt) hi
    exact peek_writeWire_other (by omega)

theorem silenceLoop_wf {size : Nat} {fmt : Byte} {dst : Word} {n : Nat} {m : Memory} (h : m.wf size = true)
    (hd : dst.toNat + n * fmtBytes fmt ≤ size) : (loop n (silenceStep fmt dst) m).wf size = true :=
  loop_induction (fun _ (m : Memory) => m.wf size = true) h fun i y hi hy => by
    have := wire_offset (b := fmtBytes fmt) hi
    exact writeWire_wf _ hy (by omega)

/-! ## MIX -/

theorem mixLoop_raced (flags : MixFlags) (shift : Byte) (src dst : Stream) (volume : Word) (n : Nat)
    (p : Memory × Word) : (loop n (mixStep flags shift src dst volume) p).1.raced = p.1.raced :=
  loop_fixed (fun p : Memory × Word => p.1.raced) fun i y _ => by simp [mixStep]

theorem mixLoop_frame {flags : MixFlags} {shift : Byte} {src dst : Stream} {volume : Word} {n x : Nat}
    {p : Memory × Word} (h : ∀ i < n, x < Stream.sampleAddr dst i ∨ Stream.sampleAddr dst i + 8 ≤ x) :
    (loop n (mixStep flags shift src dst volume) p).1.peek x = p.1.peek x :=
  loop_fixed (fun p : Memory × Word => p.1.peek x) fun i y hi => by
    simp only [mixStep]
    exact peek_writeCanon_other (h i hi)

theorem mixLoop_wf {size : Nat} {flags : MixFlags} {shift : Byte} {src dst : Stream} {volume : Word} {n : Nat}
    {p : Memory × Word} (h : p.1.wf size = true) (hd : ∀ i < n, Stream.sampleAddr dst i + 8 ≤ size) :
    (loop n (mixStep flags shift src dst volume) p).1.wf size = true :=
  loop_induction (fun _ (p : Memory × Word) => p.1.wf size = true) h fun i _ hi hy => writeCanon_wf _ hy (hd i hi)

/-- The generator after n frames: one step a frame when DITHER = 1 and MUTE = 0, else none (R143). -/
theorem mixLoop_lfsr (flags : MixFlags) (shift : Byte) (src dst : Stream) (volume : Word) (n : Nat)
    (p : Memory × Word) :
    (loop n (mixStep flags shift src dst volume) p).2 =
      if flags.dither && !flags.mute then lfsrStep^[n] p.2 else p.2 := by
  induction n with
  | zero => simp
  | succ k ih =>
    simp only [loop_succ, mixStep, mixTerm, ih]
    cases flags.dither <;> cases flags.mute <;> simp [Function.iterate_succ_apply']

/-! ## COMP -/

/-- COMP's sample number j = i × NCH + c lies in the buffer. -/
theorem comp_offset {n k i c : Nat} (hi : i < n) (hc : c < k) : i * k + c < n * k := by
  have := Nat.mul_le_mul_right k hi
  rw [Nat.succ_mul] at this
  omega

theorem compLoop_raced (t : Int) (buf : Word) (nch : Byte) (par : CompParams) (n : Nat) (p : Memory × Gains) :
    (loop n (compFrame t buf nch par) p).1.raced = p.1.raced :=
  loop_fixed (fun p : Memory × Gains => p.1.raced) fun i y _ =>
    loop_fixed (fun p : Memory × Gains => p.1.raced) fun c z _ => by simp [compStep]

theorem compLoop_frame {t : Int} {buf : Word} {nch : Byte} {par : CompParams} {n x : Nat} {p : Memory × Gains}
    (h : x < buf.toNat ∨ buf.toNat + 8 * (n * nch.toNat) ≤ x) :
    (loop n (compFrame t buf nch par) p).1.peek x = p.1.peek x :=
  loop_fixed (fun p : Memory × Gains => p.1.peek x) fun i y hi =>
    loop_fixed (fun p : Memory × Gains => p.1.peek x) fun c z hc => by
      simp only [compStep]
      have := comp_offset hi hc
      exact peek_writeCanon_other (by omega)

theorem compLoop_wf {size : Nat} {t : Int} {buf : Word} {nch : Byte} {par : CompParams} {n : Nat} {p : Memory × Gains}
    (h : p.1.wf size = true) (hd : buf.toNat + 8 * (n * nch.toNat) ≤ size) :
    (loop n (compFrame t buf nch par) p).1.wf size = true :=
  loop_induction (fun _ (p : Memory × Gains) => p.1.wf size = true) h fun i y hi hy =>
    loop_induction (fun _ (p : Memory × Gains) => p.1.wf size = true) hy fun c z hc hz => by
      have := comp_offset hi hc
      exact writeCanon_wf _ hz (by omega)

/-- Entries of another bank, or of a channel the buffer does not have, are untouched (R156). -/
theorem compLoop_gains {t : Int} {buf : Word} {nch : Byte} {par : CompParams} {n b c : Nat} {p : Memory × Gains}
    (h : b ≠ par.bank.toNat ∨ nch.toNat ≤ c) :
    gainGet (loop n (compFrame t buf nch par) p).2 b c = gainGet p.2 b c :=
  loop_fixed (fun p : Memory × Gains => gainGet p.2 b c) fun i y _ =>
    loop_fixed (fun p : Memory × Gains => gainGet p.2 b c) fun c' z hc => by
      simp only [compStep]
      exact gainGet_gainSet_other _ (by omega)

/-! ## The limiter's arithmetic (R159) -/

theorem floorDiv_def (a b : Int) : floorDiv a b = a / b := rfl

/-- The attack move takes a gain to a gain that is no larger (R159). -/
theorem attackGain_range {t g a : Int} (k : Nat) (ht : 0 ≤ t) (hg : 0 ≤ g) :
    0 ≤ attackGain t k g a ∧ attackGain t k g a ≤ g := by
  unfold attackGain floorDiv
  simp only
  split
  · rename_i hm
    have hp : (1 : Int) ≤ 2 ^ k := one_le_pow₀ (by norm_num)
    have hq : 0 ≤ t * unityInt / absInt a := Int.ediv_nonneg (mul_nonneg ht (by norm_num [unityInt])) (by omega)
    have h1 : 0 ≤ min g (t * unityInt / absInt a) := le_min hg hq
    have h2 : min g (t * unityInt / absInt a) ≤ g := min_le_left _ _
    have h3 : 0 ≤ (g - min g (t * unityInt / absInt a)) / 2 ^ k := Int.ediv_nonneg (by omega) (by omega)
    have h4 : (g - min g (t * unityInt / absInt a)) / 2 ^ k ≤ g - min g (t * unityInt / absInt a) :=
      Int.ediv_le_self _ (by omega)
    omega
  · omega

/-- The relax move takes a legal gain to a legal gain (R159). -/
theorem relaxGain_range {g : Int} (k : Nat) (h0 : 0 ≤ g) (h1 : g ≤ unityInt) :
    0 ≤ relaxGain k g ∧ relaxGain k g ≤ unityInt := by
  unfold relaxGain floorDiv
  have h3 : 0 ≤ (unityInt - g) / 2 ^ k := Int.ediv_nonneg (by omega) (by positivity)
  have h4 : (unityInt - g) / 2 ^ k ≤ unityInt - g := Int.ediv_le_self _ (by omega)
  omega

theorem maxOf_nonneg (fmt : Byte) : 0 ≤ maxOf fmt := by
  unfold maxOf
  split
  · norm_num [Config.floatScaleLog2]
  · have : (1 : Int) ≤ 2 ^ (fmtWidth fmt - 1) := one_le_pow₀ (by norm_num)
    omega

theorem kneeThreshold_nonneg (fmt knee : Byte) : 0 ≤ kneeThreshold fmt knee :=
  Int.ediv_nonneg (mul_nonneg (maxOf_nonneg fmt) (by positivity)) (by norm_num [Config.kneeMax])

theorem unityGain_toNat : (unityGain.toNat : Int) = unityInt := by
  decide

/-- What COMP stores in a legal gain entry is legal (R34). -/
theorem compSample_gain_legal {t : Int} {k d : Nat} {g : Word} {a : Int} (ht : 0 ≤ t) (hg : g ≤ unityGain) :
    BitVec.ofInt 32 (compSample t k d (g.toNat : Int) a).2 ≤ unityGain := by
  have h0 : (0 : Int) ≤ (g.toNat : Int) := by positivity
  have hgu : (g.toNat : Int) ≤ unityInt := by
    rw [← unityGain_toNat]
    exact_mod_cast BitVec.le_def.1 hg
  have h1 := attackGain_range (a := a) k ht h0
  have h2 := relaxGain_range (g := attackGain t k (g.toNat : Int) a) d h1.1 (by omega)
  have hu : unityInt = 2147483648 := by norm_num [unityInt, Config.gainFracBits]
  have hn : unityGain.toNat = 2147483648 := by decide
  rw [BitVec.le_def, BitVec.toNat_ofInt, hn]
  simp only [compSample]
  omega

theorem compLoop_legal {t : Int} {buf : Word} {nch : Byte} {par : CompParams} {n : Nat} {p : Memory × Gains} (ht : 0 ≤ t)
    (h : gainsLegal p.2) : gainsLegal (loop n (compFrame t buf nch par) p).2 :=
  loop_induction (fun _ (p : Memory × Gains) => gainsLegal p.2) h fun _ _ _ hy =>
    loop_induction (fun _ (p : Memory × Gains) => gainsLegal p.2) hy fun _ _ _ hz =>
      gainSet_legal hz (compSample_gain_legal ht (hz _ _))

/-! ## GAININIT -/

theorem gaininitLoop_get {bank : Byte} {g : Gains} {n b c : Nat} (hb : bank.toNat < 16) (hn : n ≤ 64) :
    gainGet (loop n (fun c g => gainSet g bank.toNat c unityGain) g) b c =
      if b = bank.toNat ∧ c < n then unityGain else gainGet g b c := by
  induction n with
  | zero => simp
  | succ k ih =>
    rw [loop_succ]
    by_cases h : b = bank.toNat ∧ c = k
    · obtain ⟨rfl, rfl⟩ := h
      rw [gainGet_gainSet_same _ hb (by omega), if_pos ⟨rfl, Nat.lt_succ_self _⟩]
    · rw [gainGet_gainSet_other _ (by omega), ih (by omega)]
      by_cases h2 : b = bank.toNat ∧ c < k
      · rw [if_pos h2, if_pos ⟨h2.1, by omega⟩]
      · rw [if_neg h2, if_neg (by omega)]

/-! ## FIR -/

theorem firBlock_raced (key st n : Nat) (m : Memory) : (firBlock key st n m).raced = m.raced := by
  unfold firBlock
  simp only
  refine (loop_fixed Memory.raced fun i y _ => writeCanon_raced ..).trans ?_
  exact loop_fixed Memory.raced fun i y _ => writeCanon_raced ..

theorem firBlock_frame {key st n x : Nat} {m : Memory} (h : x < st + 8 + 8 * n ∨ st + 8 + 24 * n ≤ x) :
    (firBlock key st n m).peek x = m.peek x := by
  unfold firBlock
  simp only
  refine (loop_fixed (fun m : Memory => m.peek x) fun i y hi => peek_writeCanon_other (by unfold firOut; omega)).trans ?_
  exact loop_fixed (fun m : Memory => m.peek x) fun i y hi => peek_writeCanon_other (by unfold firOut; omega)

theorem firBlock_wf {key st n size : Nat} {m : Memory} (h : m.wf size = true) (hs : st + firBlockBytes n ≤ size) :
    (firBlock key st n m).wf size = true := by
  unfold firBlockBytes at hs
  unfold firBlock
  simp only
  refine loop_induction (fun _ (m : Memory) => m.wf size = true) ?_ fun i y hi hy => writeCanon_wf _ hy (by unfold firOut; omega)
  exact loop_induction (fun _ (m : Memory) => m.wf size = true) h fun i y hi hy => writeCanon_wf _ hy (by unfold firOut; omega)

theorem firSample_raced (key st n : Nat) (x : Int) (m : Memory) (off : Nat) :
    (firSample key st n x m off).2.1.raced = m.raced := by
  unfold firSample
  simp only
  split <;> simp [firBlock_raced]

theorem firSample_frame {key st n off x : Nat} {v : Int} {m : Memory} (ho : off < n)
    (h : x < st + 8 ∨ st + 8 + 24 * n ≤ x) : (firSample key st n v m off).2.1.peek x = m.peek x := by
  unfold firSample
  simp only
  split
  · rw [firBlock_frame (by omega)]
    exact peek_writeCanon_other (by unfold firIn; omega)
  · exact peek_writeCanon_other (by unfold firIn; omega)

theorem firSample_wf {key st n off size : Nat} {v : Int} {m : Memory} (ho : off < n) (h : m.wf size = true)
    (hs : st + firBlockBytes n ≤ size) : (firSample key st n v m off).2.1.wf size = true := by
  have hb : st + 8 + 28 * n ≤ size := by unfold firBlockBytes at hs; omega
  have hw := writeCanon_wf (a := firIn st off) v h (by unfold firIn; omega)
  unfold firSample
  simp only
  split
  · exact firBlock_wf hw hs
  · exact hw

/-- OFF stays a legal offset (R176). -/
theorem firSample_off {key st n off : Nat} {v : Int} {m : Memory} (ho : off < n) :
    (firSample key st n v m off).2.2 < n := by
  unfold firSample
  simp only
  split
  · exact Nat.lt_of_le_of_lt (Nat.zero_le _) ho
  · simp only; omega

theorem firLoop_raced (buf : Stream) (st n k : Nat) (p : Memory × Nat) :
    (loop k (firStep buf st n) p).1.raced = p.1.raced :=
  loop_fixed (fun p : Memory × Nat => p.1.raced) fun i y _ => by simp [firStep, firSample_raced]

theorem firLoop_off {buf : Stream} {st n k : Nat} {p : Memory × Nat} (h : p.2 < n) :
    (loop k (firStep buf st n) p).2 < n :=
  loop_induction (fun _ (p : Memory × Nat) => p.2 < n) h fun _ _ _ hy => firSample_off hy

theorem firLoop_frame {buf : Stream} {st n k x : Nat} {p : Memory × Nat} (ho : p.2 < n)
    (hb : ∀ i < k, x < Stream.sampleAddr buf i ∨ Stream.sampleAddr buf i + 8 ≤ x)
    (hs : x < st + 8 ∨ st + 8 + 24 * n ≤ x) : (loop k (firStep buf st n) p).1.peek x = p.1.peek x :=
  (loop_induction (fun _ (q : Memory × Nat) => q.1.peek x = p.1.peek x ∧ q.2 < n) ⟨rfl, ho⟩ fun i y hi hy => by
    refine ⟨?_, firSample_off hy.2⟩
    simp only [firStep]
    rw [peek_writeCanon_other (hb i hi), firSample_frame hy.2 hs, hy.1]).1

theorem firLoop_wf {buf : Stream} {st n k size : Nat} {p : Memory × Nat} (ho : p.2 < n) (h : p.1.wf size = true)
    (hb : ∀ i < k, Stream.sampleAddr buf i + 8 ≤ size) (hs : st + firBlockBytes n ≤ size) :
    (loop k (firStep buf st n) p).1.wf size = true :=
  (loop_induction (fun _ (q : Memory × Nat) => q.1.wf size = true ∧ q.2 < n) ⟨h, ho⟩ fun i y hi hy => by
    refine ⟨?_, firSample_off hy.2⟩
    simp only [firStep]
    exact writeCanon_wf _ (firSample_wf hy.2 hy.1 hs) (hb i hi)).1

end Sys2Proof.Laws
end

