-- ==== Sys2Proof/Laws/PerInstr.lean ====
section
/-! SUPPORT. Statements about every command as syntax, one lemma per constructor. -/

namespace Sys2Proof.Laws

/-! ## Bytes and masks -/

theorem byte0_and (x y : Word) : byte0 (x &&& y) = byte0 x &&& byte0 y := by simp [byte0, BitVec.extractLsb'_and]
theorem byte1_and (x y : Word) : byte1 (x &&& y) = byte1 x &&& byte1 y := by simp [byte1, BitVec.extractLsb'_and]
theorem byte2_and (x y : Word) : byte2 (x &&& y) = byte2 x &&& byte2 y := by simp [byte2, BitVec.extractLsb'_and]
theorem byte3_and (x y : Word) : byte3 (x &&& y) = byte3 x &&& byte3 y := by simp [byte3, BitVec.extractLsb'_and]

/-- A word is 0 when its four bytes are. -/
theorem eq_zero_of_bytes {w : Word} (h0 : byte0 w = 0) (h1 : byte1 w = 0) (h2 : byte2 w = 0) (h3 : byte3 w = 0) :
    w = 0 := by
  rw [← pack_bytes w, h0, h1, h2, h3]
  decide

/-- A word whose bytes are clear under a mask's bytes is clear under the mask. -/
theorem pack_and_eq_zero {b3 b2 b1 b0 : Byte} {m : Word} (h0 : b0 &&& byte0 m = 0) (h1 : b1 &&& byte1 m = 0)
    (h2 : b2 &&& byte2 m = 0) (h3 : b3 &&& byte3 m = 0) : pack b3 b2 b1 b0 &&& m = 0 := by
  apply eq_zero_of_bytes
  · rw [byte0_and, byte0_pack, h0]
  · rw [byte1_and, byte1_pack, h1]
  · rw [byte2_and, byte2_pack, h2]
  · rw [byte3_and, byte3_pack, h3]

/-- FLAGS[7:4] of MIX's flag byte are 0 (R72). -/
theorem mixFlags_toByte_high (f : MixFlags) : f.toByte &&& 0xF0 = 0 := by
  obtain ⟨a, b, c, d⟩ := f
  cases a <;> cases b <;> cases c <;> cases d <;> decide

/-- FLAGS[7:1] of COMP's flag byte are 0 (R72). -/
theorem enToByte_high (en : Bool) : enToByte en &&& 0xFE = 0 := by cases en <;> decide

/-! ## The encoding of every command keeps the reserved bits 0 (R68, R81) -/

/-- The descriptor of a command names its opcode and has no reserved bit that is 1. -/
def EncodingClear.Statement (i : Instr) : Prop :=
  byte0 (encode i).w0 = i.opcode.code ∧ lowestReserved 0 (encode i).toList (reservedMasks i.opcode).toList = none

theorem EncodingClear.halt : EncodingClear.Statement .halt := ⟨by decide, by decide⟩

theorem EncodingClear.importWire (fmt : Byte) (count src dst : Word) :
    EncodingClear.Statement (.importWire fmt count src dst) := by
  refine ⟨by simp [encode], ?_⟩
  have h : pack 0#8 0#8 fmt Opcode.importWire.code &&& 0xFFFF0000#32 = 0#32 :=
    pack_and_eq_zero (by decide) (by simp [byte1]) (by simp) (by simp)
  simp [encode, reservedMasks, Words.toList, lowestReserved, Instr.opcode, h]

theorem EncodingClear.exportWire (fmt : Byte) (count src dst : Word) :
    EncodingClear.Statement (.exportWire fmt count src dst) := by
  refine ⟨by simp [encode], ?_⟩
  have h : pack 0#8 0#8 fmt Opcode.exportWire.code &&& 0xFFFF0000#32 = 0#32 :=
    pack_and_eq_zero (by decide) (by simp [byte1]) (by simp) (by simp)
  simp [encode, reservedMasks, Words.toList, lowestReserved, Instr.opcode, h]

theorem EncodingClear.silence (fmt : Byte) (count dst : Word) : EncodingClear.Statement (.silence fmt count dst) := by
  refine ⟨by simp [encode], ?_⟩
  have h : pack 0#8 0#8 fmt Opcode.silence.code &&& 0xFFFF0000#32 = 0#32 :=
    pack_and_eq_zero (by decide) (by simp [byte1]) (by simp) (by simp)
  simp [encode, reservedMasks, Words.toList, lowestReserved, Instr.opcode, h]

theorem EncodingClear.maxv (fmt : Byte) (dst : Word) : EncodingClear.Statement (.maxv fmt dst) := by
  refine ⟨by simp [encode], ?_⟩
  have h : pack 0#8 0#8 fmt Opcode.maxv.code &&& 0xFFFF0000#32 = 0#32 :=
    pack_and_eq_zero (by decide) (by simp [byte1]) (by simp) (by simp)
  simp [encode, reservedMasks, Words.toList, lowestReserved, Instr.opcode, h]

theorem EncodingClear.mix (flags : MixFlags) (shift : Byte) (count : Word) (src dst : Stream) (volume : Word) :
    EncodingClear.Statement (.mix flags shift count src dst volume) := by
  refine ⟨by simp [encode], ?_⟩
  have h : pack shift flags.toByte 0#8 Opcode.mix.code &&& 0x00F0FF00#32 = 0#32 :=
    pack_and_eq_zero (by decide) (by simp) (mixFlags_toByte_high flags) (by simp [byte3])
  simp [encode, reservedMasks, Words.toList, lowestReserved, Instr.opcode, h]

theorem EncodingClear.comp (fmt : Byte) (en : Bool) (count buf : Word) (nch : Byte) (par : CompParams) :
    EncodingClear.Statement (.comp fmt en count buf nch par) := by
  refine ⟨by simp [encode], ?_⟩
  have h : pack 0#8 (enToByte en) fmt Opcode.comp.code &&& 0xFFFE0000#32 = 0#32 :=
    pack_and_eq_zero (by decide) (by simp [byte1]) (enToByte_high en) (by simp)
  have h4 : pack 0#8 0#8 nch 0#8 &&& 0xFFFF00FF#32 = 0#32 := pack_and_eq_zero (by simp) (by simp [byte1]) (by simp) (by simp)
  simp [encode, reservedMasks, Words.toList, lowestReserved, Instr.opcode, h, h4]

theorem EncodingClear.gaininit (bank : Byte) : EncodingClear.Statement (.gaininit bank) := by
  refine ⟨by simp [encode], ?_⟩
  have h : pack 0#8 0#8 0#8 Opcode.gaininit.code &&& 0xFFFFFF00#32 = 0#32 := by decide
  have h5 : pack bank 0#8 0#8 0#8 &&& 0x00FFFFFF#32 = 0#32 := pack_and_eq_zero (by simp) (by simp) (by simp) (by simp [byte3])
  simp [encode, reservedMasks, Words.toList, lowestReserved, Instr.opcode, h, h5]

theorem EncodingClear.fir (count : Word) (buf : Stream) (state : Word) :
    EncodingClear.Statement (.fir count buf state) := by
  refine ⟨by simp [encode], ?_⟩
  have h : pack 0#8 0#8 0#8 Opcode.fir.code &&& 0xFFFFFF00#32 = 0#32 := by decide
  have h4 : pack 0#8 0#8 buf.nch buf.ch &&& 0xFFFF0000#32 = 0#32 :=
    pack_and_eq_zero (by simp [byte0]) (by simp [byte1]) (by simp) (by simp)
  simp [encode, reservedMasks, Words.toList, lowestReserved, Instr.opcode, h, h4]

end Sys2Proof.Laws
end

