-- ==== Sys2Proof/Laws/Sequencer.lean ====
section
/-! SUPPORT. What the sequencer's operations can do, said once: the command it runs, its turn, the boundary it passes, the
command that a reset cuts short, and what a host read of memory returns meanwhile. -/

namespace Sys2Proof.Laws

open Sys2Proof.Machine

/-! ## The turn (R92) -/

/-- Past the boundary the step is a fetch fault, a decode fault, or the decoded command. -/
theorem runCommand_cases (s : State) :
    (s.config.memSize < s.cmdPtr.toNat + 32 ∧ runCommand s = .next (s.takeFault ⟨.fetchAccess, s.cmdPtr⟩)) ∨
    (s.cmdPtr.toNat + 32 ≤ s.config.memSize ∧
      ((∃ f, decode (fetchWords s) = .error f ∧ runCommand s = .next (s.takeFault f)) ∨
        (∃ i, decode (fetchWords s) = .ok i ∧ runCommand s = exec i s))) := by
  unfold runCommand
  by_cases h : s.cmdPtr.toNat + 32 ≤ s.config.memSize
  · refine .inr ⟨h, ?_⟩
    rw [if_pos (show fetchInRange s = true from decide_eq_true h)]
    cases hd : decode (fetchWords s) with
    | error f => exact .inl ⟨f, rfl, rfl⟩
    | ok i => exact .inr ⟨i, rfl, rfl⟩
  · exact .inl ⟨by omega, by rw [if_neg (by rw [show fetchInRange s = false from decide_eq_false h]; exact Bool.false_ne_true)]⟩

/-- The sequencer's turn idles, takes a stop at a boundary, or runs a command. -/
theorem sequencerStep_cases (s : State) :
    (s.busy = true ∧ s.stopPending = true ∧ s.executing = false ∧ sequencerStep s = .next s.takeStop) ∨
    (s.busy = true ∧ s.stopsHere = false ∧ sequencerStep s = runCommand s) ∨
    (s.busy = false ∧ sequencerStep s = .next s) := by
  unfold sequencerStep State.stopsHere
  cases s.busy <;> cases s.stopPending <;> cases s.executing <;> simp

/-- Passing a boundary takes a pending stop or begins a command, and does nothing while idle. -/
theorem beginCommand_cases (s : State) :
    (s.busy = true ∧ s.stopPending = true ∧ s.executing = false ∧ s.beginCommand = s.takeStop) ∨
    (s.stopsHere = false ∧ s.beginCommand = { s with executing := s.busy }) := by
  unfold State.beginCommand State.stopsHere
  cases s.busy <;> cases s.stopPending <;> cases s.executing <;> simp

/-! ## At a command boundary nothing is in flight (R104, R232) -/

theorem wholeMemory_boundary {s : State} (h : s.executing = false) : s.wholeMemory = s.mem := by
  simp [State.wholeMemory, h]

theorem inFlightBytes_boundary {s : State} (h : s.executing = false) : inFlightBytes s = [] := by
  simp [inFlightBytes, h]

/-- With no racing host a reset changes no byte but the executing command's destination bytes (R231, R232). -/
theorem resetStrobe_peek {s : State} {a : Nat} (hq : s.quiet) (h : a ∉ inFlightBytes s) :
    s.resetStrobe.mem.peek a = s.mem.peek a := by
  rw [resetStrobe_mem]
  split
  · rw [endRun_peek a ((cutShort_raced ..).trans hq), cutShort_peek_other _ h]
  · rfl

/-! ## Unspecified bytes (R59(c), R232, R237(e)) -/

theorem not_defined_unspecified {m : Memory} {a : Nat} (h : a ∈ m.unspecified) : m.defined a = false := by
  simp [Memory.defined, h]

theorem defined_put_same (m : Memory) (a : Nat) (b : Byte) : (m.put a b).defined a = true := by
  simp [Memory.defined, Memory.put, lookup_insert_same]

theorem defined_hostWrite_same (m : Memory) (busy : Bool) (a : Nat) (b : Byte) :
    (m.hostWrite busy a b).defined a = true := by
  simp [Memory.defined, Memory.hostWrite, lookup_insert_same]

/-- What a reset cut short is not defined afterwards (R232). -/
theorem not_defined_cutShort (m whole : Memory) {addrs : List Nat} {a : Nat} (h : a ∈ addrs) :
    ((m.cutShort whole addrs).endRun).defined a = false :=
  not_defined_unspecified (by simp [Memory.endRun, Memory.cutShort, h])

/-! ## Launch (R237) -/

/-- From a legal idle state a START whose run reads defined bytes launches it. -/
theorem launched_of_start {s : State} {ctrl : Word} {reads : List Nat} (h : s.Inv) (hb : s.busy = false)
    (h0 : ctrl.getLsbD 0 = true) (h2 : ctrl.getLsbD 2 = false) (hd : ∀ a ∈ reads, s.mem.defined a = true) :
    ∃ t, State.launched s t ctrl reads := by
  obtain ⟨hraced, hlog, -⟩ := h.idle hb
  have hstop : s.stopPending = false := by
    cases hp : s.stopPending with
    | false => rfl
    | true => rw [h.stopPending hp] at hb; cases hb
  have hw : s.writeCtrl ctrl = { s.startRun with stopPending := ctrl.getLsbD 1 } := by
    unfold State.writeCtrl
    have hs : (if ctrl.getLsbD 0 && !s.busy then s.startRun else s) = s.startRun := by rw [h0, hb]; rfl
    rw [if_neg (h2 ▸ Bool.false_ne_true), hs]
    cases h1 : ctrl.getLsbD 1
    · show s.startRun = { s.startRun with stopPending := false }
      rw [← hstop]
      rfl
    · rfl
  refine ⟨State.afterAccess { s.startRun with stopPending := ctrl.getLsbD 1 } .none, hb, ⟨h0, h2⟩, ?_, rfl, ⟨rfl, rfl, rfl⟩,
    ⟨rfl, rfl⟩, rfl, ⟨rfl, hlog, rfl⟩, hraced, hd⟩
  rw [← hw]
  rfl

/-! ## Host reads (R59(d)) -/

/-- Where host and run have not both written a byte, a host read returns one of the values it has held. -/
theorem hostRead_held {m : Memory} {a : Nat} (h : m.raced.contains a = false ∨ m.runWrote a = false) :
    m.hostRead a ∈ m.held a := by
  have hlen : 0 < (m.held a).length := by simp [Memory.held]
  have hif : (m.raced.contains a && m.runWrote a) = false := by
    rcases h with h | h
    · rw [h, Bool.false_and]
    · rw [h, Bool.and_false]
  unfold Memory.hostRead
  rw [hif, if_neg Bool.false_ne_true, List.getD_eq_getElem _ _ (Nat.mod_lt _ hlen)]
  exact List.getElem_mem _

end Sys2Proof.Laws
end

