-- ==== Sys2Proof/Machine/Disassemble.lean ====
section
/-! DEFINITION. The text of a descriptor (R88) in the spelling of R86. The machine does not use it: R19 has the spelling
for examples only. -/

namespace Sys2Proof.Machine

/-- A hexadecimal digit. -/
def hexDigit (n : Nat) : Char := ("0123456789abcdef".toList[n]?).getD '0'

/-- A word as `0x` and eight hexadecimal digits. -/
def hexWord (w : Word) : String :=
  "0x" ++ String.ofList ([7, 6, 5, 4, 3, 2, 1, 0].map (fun k => hexDigit (w.toNat / 16 ^ k % 16)))

/-- The name of a format code in R70's table. -/
def fmtName (fmt : Byte) : String :=
  if fmt = 0x00 then "s8" else if fmt = 0x01 then "s16le" else if fmt = 0x02 then "s24le"
  else if fmt = 0x03 then "s32le" else if fmt = 0x04 then "u8" else if fmt = 0x05 then "u16le"
  else if fmt = 0x06 then "u24le" else if fmt = 0x07 then "u32le" else if fmt = 0x08 then "s8be"
  else if fmt = 0x09 then "s16be" else if fmt = 0x0A then "s24be" else if fmt = 0x0B then "s32be"
  else if fmt = 0x0C then "u8be" else if fmt = 0x0D then "u16be" else if fmt = 0x0E then "u24be"
  else if fmt = 0x0F then "u32be" else if fmt = 0x13 then "f32le" else "f32be"

/-- A number in decimal. -/
def decNat (n : Nat) : String := Nat.repr n

/-- A signed number in decimal. -/
def decInt (v : Int) : String := if v < 0 then "-" ++ Nat.repr v.natAbs else Nat.repr v.natAbs

/-- The operands of a line. -/
def operands (xs : List String) : String := String.intercalate ", " xs

/-- A stream operand `<base>[<ch>/<nch>]`. -/
def Stream.text (st : Stream) : String :=
  hexWord st.base ++ "[" ++ decNat st.ch.toNat ++ "/" ++ decNat st.nch.toNat ++ "]"

/-- A suffix that is there when its flag is set. -/
def suffix (b : Bool) (text : String) : String := if b then text else ""

/-- The line of a legal command (R86). -/
def Instr.text : Instr → String
  | .halt => "halt"
  | .importWire fmt count src dst => "import " ++ operands [fmtName fmt, decNat count.toNat, hexWord src, hexWord dst]
  | .exportWire fmt count src dst => "export " ++ operands [fmtName fmt, decNat count.toNat, hexWord src, hexWord dst]
  | .silence fmt count dst => "silence " ++ operands [fmtName fmt, decNat count.toNat, hexWord dst]
  | .maxv fmt dst => "maxv " ++ operands [fmtName fmt, hexWord dst]
  | .mix flags shift count src dst volume =>
    "mix" ++ suffix flags.assign ".a" ++ suffix flags.invert ".i" ++ suffix flags.mute ".m" ++
      suffix flags.dither ".d" ++ " " ++
      operands [decNat count.toNat, Stream.text src, Stream.text dst, decInt volume.toInt, decInt shift.toInt]
  | .comp fmt en count buf nch par =>
    "comp" ++ suffix en ".e" ++ " " ++
      operands [fmtName fmt, decNat count.toNat, hexWord buf ++ "/" ++ decNat nch.toNat, decNat par.bank.toNat,
        decNat par.knee.toNat, decNat par.attack.toNat, decNat par.decay.toNat]
  | .gaininit bank => "gaininit " ++ decNat bank.toNat
  | .fir count buf state => "fir " ++ operands [decNat count.toNat, Stream.text buf, hexWord state]

/-- The name of a cause (R201). -/
def causeName : Cause → String
  | .none => "NONE"
  | .fetchAccess => "FETCH_ACCESS"
  | .illegalOpcode => "ILLEGAL_OPCODE"
  | .reservedField => "RESERVED_FIELD"
  | .illegalFormat => "ILLEGAL_FORMAT"
  | .illegalChannel => "ILLEGAL_CHANNEL"
  | .illegalParam => "ILLEGAL_PARAM"
  | .misaligned => "MISALIGNED"
  | .access => "ACCESS"
  | .firState => "FIR_STATE"
  | .overlap => "OVERLAP"

/-- The text of a descriptor (R88). -/
def disassemble (w : Words) : String :=
  match verdict w with
  | .ok i => Instr.text i
  | .error f => ".illegal " ++ causeName f.cause ++ " " ++ String.intercalate " " (w.toList.map hexWord)

end Sys2Proof.Machine
end

