-- ==== Sys2Proof/Tests/Slice0.lean ====
section
/-! SUPPORT. The package's own tests: ill-formed commands, words written out from spec/30_encoding.md, one step of each
command on the examples of spec/95_test_vectors.md, and for each obligation with hypotheses a state that meets them. -/

namespace Sys2Proof.Tests

set_option Elab.async false

open Sys2Proof Sys2Proof.Machine

/-! ## Helpers -/

/-- Bytes listed from an address on. -/
def listed (a : Nat) (bs : List Byte) : List Host.Cell := bs.mapIdx (fun k b => (a + k, b))

/-- The bytes of a descriptor. -/
def descriptor (w : Words) : List Byte := w.toList.flatMap wordBytes

/-- The eight bytes of a canonical word. -/
def canon (v : Int) : List Byte := (List.range 8).map (fun k => BitVec.ofInt 8 (v / 256 ^ k))

/-- The reset state with a run in progress at CMD_PTR = 0 and a memory that lists some bytes. -/
def running (cells : List Host.Cell) : State :=
  { State.reset with busy := true, mem := { State.reset.mem with cells := cells } }

/-- The same with a memory of a given size. -/
def runningIn (lastAddress : Word) (cells : List Host.Cell) : State :=
  { running cells with config := { lastAddress := lastAddress } }

/-- Something of the next state, none where a step gives no next state. -/
def observe {α : Type} (o : Host.Outcome State Fault Refusal) (f : State → α) : Option α :=
  match o with
  | .next t => some (f t)
  | .fault _ => none
  | .refused _ => none

/-- The bytes of a memory from an address on. -/
def bytesAt (m : Memory) (a n : Nat) : List Byte := (List.range n).map (fun k => m.peek (a + k))

/-- The fault a state records, with its STATUS. -/
def faultOf (s : State) : Word × Cause × Word := (s.statusWord, s.faultCause, s.faultInfo)

/-! ## WellFormed refuses each ill-formed field -/

theorem test_wf_format : Instr.wf (.importWire 0x17 1 0x1000 0x2000) = false := by decide
theorem test_wf_export_format : Instr.wf (.exportWire 0x1F 1 0x1000 0x2000) = false := by decide
theorem test_wf_silence_format : Instr.wf (.silence 0x20 1 0x1000) = false := by decide
theorem test_wf_maxv_format : Instr.wf (.maxv 0x10 0x1000) = false := by decide
theorem test_wf_mix_source : Instr.wf (.mix ⟨true, false, false, false⟩ 0 1 ⟨0, 1, 1⟩ ⟨0, 0, 1⟩ 1) = false := by decide
theorem test_wf_mix_destination : Instr.wf (.mix ⟨true, false, false, false⟩ 0 1 ⟨0, 0, 1⟩ ⟨0, 0, 65⟩ 1) = false := by decide
theorem test_wf_mix_shift : Instr.wf (.mix ⟨true, false, false, false⟩ 0xC0 1 ⟨0, 0, 1⟩ ⟨0, 0, 1⟩ 1) = false := by decide
theorem test_wf_comp_format : Instr.wf (.comp 0x17 true 1 0 1 ⟨0, 0, 0, 0⟩) = false := by decide
theorem test_wf_comp_channels : Instr.wf (.comp 0x01 true 1 0 0 ⟨0, 0, 0, 0⟩) = false := by decide
theorem test_wf_comp_attack : Instr.wf (.comp 0x01 true 1 0 1 ⟨0, 64, 0, 0⟩) = false := by decide
theorem test_wf_comp_decay : Instr.wf (.comp 0x01 true 1 0 1 ⟨0, 0, 64, 0⟩) = false := by decide
theorem test_wf_comp_bank : Instr.wf (.comp 0x01 false 1 0 1 ⟨0, 0, 0, 16⟩) = false := by decide
theorem test_wf_gaininit_bank : Instr.wf (.gaininit 16) = false := by decide
theorem test_wf_fir_channel : Instr.wf (.fir 1 ⟨0, 2, 2⟩ 0x6000) = false := by decide

/-! ## Decoding: words from R87 and from the programs and vectors of spec/95_test_vectors.md -/

theorem test_decode_halt : decode ⟨0, 0, 0, 0, 0, 0, 0, 0⟩ = .ok .halt := by decide
theorem test_decode_nop : decode ⟨0x00000003, 0, 0, 0, 0, 0, 0, 0⟩ = .ok Instr.nop := by decide
theorem test_decode_import :
    decode ⟨0x00001301, 4, 0x1000, 0x2000, 0, 0, 0, 0⟩ = .ok (.importWire 0x13 4 0x1000 0x2000) := by decide
theorem test_decode_export :
    decode ⟨0x00000302, 1, 0x3000, 0x24, 0, 0, 0, 0⟩ = .ok (.exportWire 0x03 1 0x3000 0x24) := by decide
theorem test_decode_silence : decode ⟨0x00000903, 0, 0, 0x5000, 0, 0, 0, 0⟩ = .ok (.silence 0x09 0 0x5000) := by decide
theorem test_decode_maxv : decode ⟨0x00000A04, 0, 0, 0x4000, 0, 0, 0, 0⟩ = .ok (.maxv 0x0A 0x4000) := by decide
theorem test_decode_mix :
    decode ⟨0xC10A0010, 1, 0x2000, 0x3000, 0x02010403, 0xFFFFFFFF, 0, 0⟩ =
      .ok (.mix ⟨false, true, false, true⟩ 0xC1 1 ⟨0x2000, 3, 4⟩ ⟨0x3000, 1, 2⟩ 0xFFFFFFFF) := by decide
theorem test_decode_comp :
    decode ⟨0x00010120, 2, 0x2000, 0, 0x200, 0x02040180, 0, 0⟩ = .ok (.comp 0x01 true 2 0x2000 2 ⟨128, 1, 4, 2⟩) := by
  decide
theorem test_decode_gaininit : decode ⟨0x21, 0, 0, 0, 0, 0x02000000, 0, 0⟩ = .ok (.gaininit 2) := by decide
theorem test_decode_fir :
    decode ⟨0x30, 2, 0x3000, 0x6000, 0x200, 0, 0, 0⟩ = .ok (.fir 2 ⟨0x3000, 0, 2⟩ 0x6000) := by decide
theorem test_decode_table_word : decodeTableWord 256 0x02000000 = none := by decide
theorem test_decode_table_word_gaininit : decodeTableWord 256 (0x21 + 0x02000000 * 2 ^ 160) = some (.gaininit 2) := by decide

/-- Section 2.1's rows whose fault a reserved bit or an opcode raises. -/
theorem test_decode_rejects :
    decode ⟨0x05, 0, 0, 0, 0, 0, 0, 0⟩ = .error ⟨.illegalOpcode, 5⟩ ∧
    decode ⟨0, 0, 0, 0, 0, 0, 1, 0⟩ = .error ⟨.reservedField, 6⟩ ∧
    decode ⟨0x00011701, 1, 0, 0, 0, 0, 0, 0⟩ = .error ⟨.reservedField, 0⟩ ∧
    decode ⟨0x00010120, 1, 0, 0, 0x201, 0, 0, 0⟩ = .error ⟨.reservedField, 4⟩ ∧
    decode ⟨0x21, 0, 0, 0, 0, 0x02000001, 0, 0⟩ = .error ⟨.reservedField, 5⟩ := by decide

/-- Section 2.1's rows whose fault a field raises, and the two that decode. -/
theorem test_verdicts :
    verdict ⟨0x00001F02, 1, 0, 0, 0, 0, 0, 0⟩ = .error ⟨.illegalFormat, 0x1F⟩ ∧
    verdict ⟨0x40000010, 1, 0, 0, 0x100, 0, 0, 0⟩ = .error ⟨.illegalChannel, 0x100⟩ ∧
    verdict ⟨0xC0000010, 1, 0, 0, 0x01000100, 1, 0, 0⟩ = .error ⟨.illegalParam, 0⟩ ∧
    verdict ⟨0xC1000010, 1, 0, 0, 0x01000100, 1, 0, 0⟩ =
      .ok (.mix ⟨false, false, false, false⟩ 0xC1 1 ⟨0, 0, 1⟩ ⟨0, 0, 1⟩ 1) ∧
    verdict ⟨0x00000120, 1, 0, 0, 0x100, 0x10000000, 0, 0⟩ = .error ⟨.illegalParam, 5⟩ := by decide

/-- R86's spelling of two commands of section 3, and R88's of a rejected descriptor. -/
theorem test_disassemble :
    disassemble ⟨0x01010010, 3, 0x2000, 0x3000, 0x01000100, 1, 0, 0⟩ =
      "mix.a 3, 0x00002000[0/1], 0x00003000[0/1], 1, 1" ∧
    disassemble ⟨0x00010120, 2, 0x2000, 0, 0x200, 0x02040180, 0, 0⟩ =
      "comp.e s16le, 2, 0x00002000/2, 2, 128, 1, 4" := by decide +kernel

/-! ## Conversions: rows of sections 2.3, 2.4 and 2.5 -/

theorem test_float_import :
    [0x80000000, 0x807FFFFF, 0x3F800000, 0xBF800000, 0x3F000000, 0xFF800000, 0x7FC00000, 0xB0000000, 0x30400000,
      0x33000001, 0x3F7FFFFF, 0x3EAAAAAB].map decodeF32 =
    [0, 0, 2147483647, -2147483648, 1073741824, -2147483648, 2147483647, -1, 1, 64, 2147483520, 715827904] := by
  decide +kernel

theorem test_float_export :
    ([0, -1, 3, 2 ^ 30, 2 ^ 31 - 1, 2 ^ 31 - 2, -2 ^ 31, -2 ^ 31 + 1, 2 ^ 40, 16777217, 123456789] : List Int).map encodeF32 =
    [0, 0xB0000000, 0x30C00000, 0x3F000000, 0x3F800000, 0x3F7FFFFF, 0xBF800000, 0xBF7FFFFF, 0x3F800000, 0x3C000000,
      0x3D6B79A2] := by
  decide +kernel

/-- Bytes 12 34 56 78 and their prefixes, imported in s24le, u16le, u24be and u32be. -/
theorem test_integer_import :
    (fun m => [(0x02, 3), (0x05, 2), (0x0E, 3), (0x0F, 4)].map
      (fun p : Byte × Nat => importSample p.1 (readWire m 0 p.1 0))) (running (listed 0 [0x12, 0x34, 0x56, 0x78])).mem =
    [5649426, -19438, -7195562, -1842063752] := by decide +kernel

/-! ## One step of each command -/

/-- R95's example. -/
theorem test_halt_step :
    observe (step { running (listed 0x100 (List.replicate 32 0)) with cmdPtr := 0x100 })
      (fun t => (t.statusWord, t.cmdPtr)) = some (2, 0x100) := by decide +kernel

/-- R116's example. -/
theorem test_import_step :
    observe (step (running (listed 0 (descriptor ⟨0x101, 2, 0x1000, 0x2000, 0, 0, 0, 0⟩) ++
        listed 0x1000 [0xFF, 0x7F, 0x00, 0x80])))
      (fun t => (t.mem.readCanon 0 0x2000, t.mem.readCanon 0 0x2008, t.cmdPtr)) = some (32767, -32768, 0x20) := by
  decide +kernel

/-- Section 2.2, misaligned canonical destination. -/
theorem test_import_misaligned :
    observe (exec (.importWire 0x01 1 0x1000 0x2004) (running [])) faultOf = some (4, .misaligned, 0x2004) := by
  decide +kernel

/-- R124's example. -/
theorem test_export_step :
    observe (exec (.exportWire 0x09 2 0x2000 0x3000) (running (listed 0x2000 (canon 40000 ++ canon (-5)))))
      (fun t => bytesAt t.mem 0x3000 4) = some [0x7F, 0xFF, 0xFF, 0xFB] := by decide +kernel

/-- Program P5: the command list writes its own next command. -/
theorem test_export_into_descriptor :
    observe (step (running (listed 0 (descriptor ⟨0x302, 1, 0x3000, 0x24, 0, 0, 0, 0⟩) ++
        listed 0x20 (descriptor ⟨0x903, 0, 0, 0x5000, 0, 0, 0, 0⟩) ++ listed 0x3000 (canon 3))))
      (fun t => decode (fetchWords t)) = some (.ok (.silence 0x09 3 0x5000)) := by decide +kernel

/-- R130's example. -/
theorem test_silence_step :
    observe (exec (.silence 0x05 2 0x3000) (running [])) (fun t => bytesAt t.mem 0x3000 4) =
      some [0x00, 0x80, 0x00, 0x80] := by decide +kernel

/-- Section 2.2, range uses unbounded sums. -/
theorem test_silence_top_of_memory :
    observe (exec (.silence 0x04 1 0xFFFFFFFF) (running [])) (fun t => t.mem.peek 0xFFFFFFFF) = some 0x80 ∧
    observe (exec (.silence 0x04 2 0xFFFFFFFF) (running [])) faultOf = some (4, .access, 0xFFFFFFFF) := by decide +kernel

/-- R134's example. -/
theorem test_maxv_step :
    observe (exec (.maxv 0x0A 0x4000) (running [])) (fun t => bytesAt t.mem 0x4000 8) =
      some [0xFF, 0xFF, 0x7F, 0, 0, 0, 0, 0] := by decide +kernel

/-- R145's example. -/
theorem test_mix_step :
    observe (exec (.mix ⟨true, false, false, false⟩ 0xFF 1 ⟨0x2000, 0, 1⟩ ⟨0x3000, 0, 1⟩ 3)
        (running (listed 0x2000 (canon (-5)))))
      (fun t => (t.mem.readCanon 0 0x3000, t.lfsr)) = some (-8, 1) := by decide +kernel

/-- R142: the sum wraps to 64 bits. -/
theorem test_mix_wraps :
    observe (exec (.mix ⟨false, false, false, false⟩ 0 1 ⟨0x2000, 0, 1⟩ ⟨0x3000, 0, 1⟩ 3)
        (running (listed 0x2000 (canon 1) ++ listed 0x3000 (canon (2 ^ 63 - 1)))))
      (fun t => t.mem.readCanon 0 0x3000) = some (-2 ^ 63 + 2) := by decide +kernel

/-- Section 2.8, two frames with dither from LFSR = 0x80200003. -/
theorem test_mix_dither :
    observe (exec (.mix ⟨true, false, false, true⟩ 0 2 ⟨0x2000, 0, 1⟩ ⟨0x3000, 0, 1⟩ 10)
        { running (listed 0x2000 (canon 100 ++ canon 100)) with lfsr := 0x80200003 })
      (fun t => (t.mem.readCanon 0 0x3000, t.mem.readCanon 0 0x3008, t.lfsr)) = some (990, 1010, 0x60180001) := by
  decide +kernel

/-- R160's example. -/
theorem test_comp_step :
    observe (exec (.comp 0x01 true 1 0x2000 1 ⟨128, 0, 63, 0⟩) (running (listed 0x2000 (canon 32767))))
      (fun t => (t.mem.readCanon 0 0x2000, gainGet t.gains 0 0)) = some (16446, 1077903487) := by decide +kernel

/-- Program P2's two stereo frames from a bank at unity. -/
theorem test_comp_stereo :
    observe (exec (.comp 0x01 true 2 0x2000 2 ⟨128, 1, 4, 2⟩)
        (running (listed 0x2000 (canon 32767 ++ canon 100 ++ canon 32767 ++ canon (-32768)))))
      (fun t => (List.range 4).map (fun j => t.mem.readCanon 0 (0x2000 + 8 * j)) ++
        [((gainGet t.gains 2 0).toNat : Int), (gainGet t.gains 2 1).toNat]) =
    some [24607, 100, 20782, -24608, 1411102776, 1646102528] := by decide +kernel

/-- R165: a bank that a GAIN_DATA write set returns to unity, another bank does not. -/
theorem test_gaininit_step :
    observe (exec (.gaininit 2) { running [] with gains := gainSet (gainSet unityGains 2 1 777) 3 1 778 })
      (fun t => (gainGet t.gains 2 1, gainGet t.gains 3 1)) = some (0x80000000, 778) := by decide +kernel

/-- The state block of R183's example. -/
def unitFilter : List Byte :=
  [1, 0, 0, 0, 0, 0, 0, 0] ++ canon 0 ++ canon 0 ++ canon 0 ++ [0x00, 0x00, 0x00, 0x40]

/-- R183's example. -/
theorem test_fir_step :
    observe (exec (.fir 3 ⟨0x2000, 0, 1⟩ 0x3000)
        (running (listed 0x2000 (canon 5 ++ canon 6 ++ canon 7) ++ listed 0x3000 unitFilter)))
      (fun t => ([0x2000, 0x2008, 0x2010, 0x3008, 0x3010, 0x3018].map (t.mem.readCanon 0), firOff t.mem 0x3000)) =
    some ([0, 5, 6, 7, 7, 0], 0) := by decide +kernel

/-- R187: with N = 1 and H[0] = 1.0, an upper history word of 2^63 − 1 plus the sample 3 wraps. -/
theorem test_fir_wraps :
    observe (exec (.fir 1 ⟨0x2000, 0, 1⟩ 0x3000)
        (running (listed 0x2000 (canon 3) ++ listed 0x3000 ([1, 0, 0, 0, 0, 0, 0, 0] ++ canon 0 ++ canon 0 ++
          canon (2 ^ 63 - 1) ++ [0x00, 0x00, 0x00, 0x40]))))
      (fun t => [0x3010, 0x3018].map (t.mem.readCanon 0)) = some [-2 ^ 63 + 2, 0] := by decide +kernel

/-- Section 2.10, N = 2 with coefficients 1.0 and 0.5, over 4, 8, −2, 6. -/
theorem test_fir_two_taps :
    observe (exec (.fir 4 ⟨0x2000, 0, 1⟩ 0x3000)
        (running (listed 0x2000 (canon 4 ++ canon 8 ++ canon (-2) ++ canon 6) ++
          listed 0x3000 ([2, 0, 0, 0, 0, 0, 0, 0] ++ List.replicate 48 0 ++ [0, 0, 0, 0x40, 0, 0, 0, 0x20]))))
      (fun t => [0x2000, 0x2008, 0x2010, 0x2018, 0x3018, 0x3020].map (t.mem.readCanon 0)) =
    some [0, 0, 4, 10, 2, 5] := by decide +kernel

/-! ## The host (section 2.11) -/

theorem test_start_and_stop :
    ((State.reset.writeRegister 0x04 3).statusWord, observe (step (State.reset.writeRegister 0x04 3)) State.statusWord) =
      (0x11, some 8) := by decide +kernel

theorem test_status_w1c :
    (({ State.reset with fault := true }.writeRegister 0x08 2).statusWord,
      ({ State.reset with fault := true }.writeRegister 0x08 4).statusWord) = (4, 0) := by decide

theorem test_register_masks :
    ((State.reset.writeRegister 0x10 0x123F).readRegister 0x10, (State.reset.writeRegister 0x0C 0xFFFFFFFF).readRegister 0x0C,
      (State.reset.writeRegister 0x20 0xFFFFFFFF).readRegister 0x20) = (0x1220, 0xE, 0xF3F) := by decide

theorem test_gain_data_clamp :
    gainGet ((State.reset.writeRegister 0x20 0x305).writeRegister 0x24 0xFFFFFFFF).gains 3 5 = 0x80000000 ∧
    ((State.reset.writeRegister 0x20 0x305).writeRegister 0x24 0x40000000).readRegister 0x24 = 0x40000000 := by
  decide +kernel

/-- A START written by the host begins a run at CMD_PTR = 0 (R91, R234). -/
theorem test_host_starts_a_run :
    observe (step { State.reset with schedule := [.host (.windowWrite 0x04 4 1)] })
      (fun t => (t.statusWord, t.cmdPtr, t.schedule)) = some (1, 0, []) := by decide +kernel

/-- R205(b): a STOP pending while a HALT executes ends the run at the HALT, at a boundary it ends the run stopped. -/
theorem test_stop_during_halt :
    (fun cells => [true, false].map (fun during =>
      observe (step { running cells with stopPending := true, executing := during }) State.statusWord))
      (listed 0 (List.replicate 32 0)) = [some 2, some 8] := by decide +kernel

/-- R98, R104: passing the boundary before a STOP is written lets the command run; a STOP that is pending is taken. -/
theorem test_command_begins :
    [true, false].map (fun pending =>
      observe (step { running [] with stopPending := pending, schedule := [.commandBegins] })
        (fun t => (t.statusWord, t.executing))) = [some (8, false), some (1, true)] := by decide +kernel

/-- The state the opcode table's words run in fetches and runs the word (a MAXV of s8 at address 0). -/
theorem test_with_fetch_word :
    observe (step (State.reset.withFetchWord 256 0x04)) (fun t => (t.cmdPtr, t.mem.peek 0)) = some (0x20, 0x7F) := by
  decide +kernel

/-- R59(d): while a MAXV of s8 executes over a byte that holds 0x55, a host read may show 0x7F or 0x55. -/
theorem test_read_during_maxv :
    ({ running (listed 0 (descriptor ⟨0x04, 0, 0, 0x1000, 0, 0, 0, 0⟩) ++ listed 0x1000 [0x55]) with
      executing := true }).wholeMemory.held 0x1000 = [0x7F, 0x55] := by decide +kernel

/-- R232: a RESET that cuts the MAXV leaves its bytes unspecified and the byte after them as it was, with a STOP pending too. -/
theorem test_reset_during_maxv :
    (fun m : Memory => ([0xFFF, 0x1000, 0x1007, 0x1008].map m.defined, m.peek 0x1008))
      ({ running (listed 0 (descriptor ⟨0x04, 0, 0, 0x1000, 0, 0, 0, 0⟩) ++ listed 0xFFF (List.replicate 10 0x55)) with
        executing := true, stopPending := true }.writeRegister 0x04 4).mem =
      ([true, false, false, true], 0x55) := by decide +kernel

/-! ## States that meet the obligations' hypotheses, one theorem per obligation -/

/-- A run at a command list of one descriptor at address 0. -/
def atDescriptor (w : Words) : State := running (listed 0 (descriptor w))

theorem fetching_atDescriptor (w : Words) : (atDescriptor w).fetching := ⟨rfl, rfl, rfl, show 0 + 32 ≤ 4294967295 + 1 by decide⟩

theorem witness_EncodeOfDecode :
    decode ⟨0x00010120, 2, 0x2000, 0, 0x200, 0x02040180, 0, 0⟩ = .ok (.comp 0x01 true 2 0x2000 2 ⟨128, 1, 4, 2⟩) := by
  decide

/-- The reserved opcodes next to HALT's group and at the top. -/
theorem witness_ReservedOpcodesFault :
    (byte0 (0x05 : Word) ∉ ([0x00, 0x01, 0x02, 0x03, 0x04, 0x10, 0x20, 0x21, 0x30] : List Byte) ∧
      (atDescriptor ⟨0x05, 0, 0, 0, 0, 0, 0, 0⟩).fetching ∧
      fetchWords (atDescriptor ⟨0x05, 0, 0, 0, 0, 0, 0, 0⟩) = ⟨0x05, 0, 0, 0, 0, 0, 0, 0⟩) ∧
    byte0 (0xFF : Word) ∉ ([0x00, 0x01, 0x02, 0x03, 0x04, 0x10, 0x20, 0x21, 0x30] : List Byte) :=
  ⟨⟨by decide, fetching_atDescriptor _, by decide +kernel⟩, by decide⟩

/-- A HALT with a bit of W6 set, no lower word of which has a reserved bit. -/
theorem witness_LowestReservedWordFaults :
    Opcode.ofCode (byte0 (0 : Word)) = some .halt ∧
    (Words.toList ⟨0, 0, 0, 0, 0, 0, 1, 0⟩)[6]? = some 1 ∧ (reservedMasks .halt).toList[6]? = some 0xFFFFFFFF ∧
    (1 : Word) &&& 0xFFFFFFFF ≠ 0 ∧
    (∀ (j : Nat) (wj mj : Word), j < 6 → (Words.toList ⟨0, 0, 0, 0, 0, 0, 1, 0⟩)[j]? = some wj →
      (reservedMasks .halt).toList[j]? = some mj → wj &&& mj = 0) ∧
    (atDescriptor ⟨0, 0, 0, 0, 0, 0, 1, 0⟩).fetching ∧
    fetchWords (atDescriptor ⟨0, 0, 0, 0, 0, 0, 1, 0⟩) = ⟨0, 0, 0, 0, 0, 0, 1, 0⟩ :=
  ⟨by decide, by decide, by decide, by decide, fun j wj mj hj hw _ => by
    have : wj = 0 := by interval_cases j <;> simp_all [Words.toList]
    simp [this], fetching_atDescriptor _, by decide +kernel⟩

/-- Each clause at the first value out of range. -/
theorem witness_IllegalFieldsFault :
    fmtWf 0x10 = false ∧ fmtWf 0x20 = false ∧
    ((Stream.wf ⟨0, 0, 0⟩ && Stream.wf ⟨0, 0, 1⟩) = false ∧ (Stream.wf ⟨0, 0, 1⟩ && Stream.wf ⟨0, 0, 65⟩) = false ∧
      (Stream.wf ⟨0, 1, 1⟩ && Stream.wf ⟨0, 0, 1⟩) = false) ∧
    (Stream.wf ⟨0, 63, 64⟩ = true ∧ Stream.wf ⟨0, 0, 1⟩ = true ∧ shiftWf 0xC0 = false ∧ shiftWf 0x40 = false) ∧
    (fmtWf 0x1B = true ∧ nchWf 0 = false ∧ nchWf 65 = false) ∧
    (nchWf 64 = true ∧ CompParams.wf ⟨0, 64, 0, 0⟩ = false ∧ CompParams.wf ⟨0, 0, 64, 0⟩ = false ∧
      CompParams.wf ⟨0, 0, 0, 16⟩ = false) ∧
    15 < (16 : Byte).toNat ∧ Stream.wf ⟨0, 2, 2⟩ = false := by decide +kernel

theorem witness_StepRunsDecodedCommand :
    (atDescriptor ⟨0x101, 3, 0x1000, 0x2000, 0, 0, 0, 0⟩).fetching ∧
    decode (fetchWords (atDescriptor ⟨0x101, 3, 0x1000, 0x2000, 0, 0, 0, 0⟩)) = .ok (.importWire 0x01 3 0x1000 0x2000) ∧
    (atDescriptor ⟨0x101, 3, 0x1000, 0x2000, 0, 0, 0, 0⟩).quiet ∧
    (∀ k < 32, (encodeBytes (.importWire 0x01 3 0x1000 0x2000))[k]? =
      some ((atDescriptor ⟨0x101, 3, 0x1000, 0x2000, 0, 0, 0, 0⟩).mem.peek ((0 : Word).toNat + k))) :=
  ⟨fetching_atDescriptor _, by decide +kernel, rfl, by decide +kernel⟩

/-- −2^31 + 1 and 2^31 − 2 lie next to the extremes, 1 is the least magnitude. -/
theorem witness_ExportedFloatsAreNormal :
    ((-(2 ^ 31) + 1 : Int) ≠ 0 ∧ -(2 ^ 31) < (-(2 ^ 31) + 1 : Int) ∧ (2 ^ 30 : Int) ≤ |(-(2 ^ 31) + 1 : Int)| ∧
      |(-(2 ^ 31) + 1 : Int)| < 2 ^ (30 + 1)) ∧
    ((2 ^ 31 - 2 : Int) < 2 ^ 31 - 1 ∧ (2 ^ 30 : Int) ≤ |(2 ^ 31 - 2 : Int)| ∧ |(2 ^ 31 - 2 : Int)| < 2 ^ (30 + 1)) ∧
    ((2 ^ 0 : Int) ≤ |(1 : Int)| ∧ |(1 : Int)| < 2 ^ (0 + 1)) ∧ (2 ^ 31 - 1 : Int) ≤ 2 ^ 31 - 1 ∧
    (-(2 ^ 31) : Int) ≤ -(2 ^ 31) ∧ fmtFloat 0x13 = true := by decide

/-- The idle reset state, and CMD_PTR at the first address past the last whole descriptor. -/
theorem witness_SequencerIdlesOrFaultsWithoutFetch :
    (State.reset.schedule = [] ∧ State.reset.busy = false) ∧
    (fun s : State => s.schedule = [] ∧ s.busy = true ∧ s.stopsHere = false ∧ s.config.memSize < s.cmdPtr.toNat + 32)
      { runningIn 0xFFE [] with cmdPtr := 0xFE0 } :=
  ⟨⟨rfl, rfl⟩, rfl, rfl, rfl, by decide⟩

/-- A run whose command, of a given descriptor at address 0, is executing. -/
def midCommand (w : Words) : State := { atDescriptor w with executing := true }

/-- At a boundary, and during a HALT, a MAXV that faults and one that completes. -/
theorem witness_StopIsTakenAtBoundary :
    (fun s : State => s.schedule = [] ∧ s.busy = true ∧ s.stopPending = true ∧ s.quiet ∧ s.executing = false)
      { running [] with stopPending := true } ∧
    (fun s : State => s.schedule = [] ∧ s.busy = true ∧ s.stopPending = true ∧ s.executing = true ∧
      s.cmdPtr.toNat + 32 ≤ s.config.memSize ∧ decode (fetchWords s) = .ok .halt)
      { midCommand ⟨0, 0, 0, 0, 0, 0, 0, 0⟩ with stopPending := true } ∧
    (fun s : State => decode (fetchWords s) = .ok (.maxv 0 0x1001) ∧
      commandCheck (.maxv 0 0x1001) s = some ⟨.misaligned, 0x1001⟩)
      { midCommand ⟨0x04, 0, 0, 0x1001, 0, 0, 0, 0⟩ with stopPending := true } ∧
    (fun s : State => decode (fetchWords s) = .ok (.maxv 0 0x1000) ∧ Instr.maxv 0 0x1000 ≠ .halt ∧
      commandCheck (.maxv 0 0x1000) s = none ∧ s.quiet)
      { midCommand ⟨0x04, 0, 0, 0x1000, 0, 0, 0, 0⟩ with stopPending := true } :=
  ⟨⟨rfl, rfl, rfl, rfl, rfl⟩, ⟨rfl, rfl, rfl, rfl, by decide, by decide +kernel⟩, ⟨by decide +kernel, by decide +kernel⟩,
    by decide +kernel, by decide, by decide +kernel, rfl⟩

theorem witness_FaultEndsTheRun : (running []).quiet := rfl

theorem witness_FailedCheckIsPrecise :
    commandCheck (.maxv 0x01 0x4004) (running []) = some ⟨.misaligned, 0x4004⟩ := by decide +kernel

theorem witness_EveryCheckedCommandCompletes :
    Instr.maxv 0x01 0xFFFFFFF8 ≠ .halt ∧ commandCheck (.maxv 0x01 0xFFFFFFF8) (running []) = none :=
  ⟨by decide, by decide +kernel⟩

/-- Each clause of the CODEC commands, in a memory of 0x2010 bytes, at spans one element too long or one byte off. -/
theorem witness_SpanChecksFaultInOrder_codec :
    fmtWf 0x03 = true ∧ (3 : Word) ≠ 0 ∧ (runningIn 0x200F []).config.memSize = 0x2010 ∧
    (0x1001 : Word).toNat % 8 ≠ 0 ∧ (0x1000 : Word).toNat % 8 = 0 ∧ (0x2000 : Word).toNat % 8 = 0 ∧
    0x2010 < (0x2005 : Word).toNat + (3 : Word).toNat * fmtBytes 0x03 ∧
    (0x2004 : Word).toNat + (3 : Word).toNat * fmtBytes 0x03 ≤ 0x2010 ∧
    0x2010 < (0x2000 : Word).toNat + 8 * (3 : Word).toNat ∧ (0x1000 : Word).toNat + 8 * (3 : Word).toNat ≤ 0x2010 ∧
    0x2010 < (0x2010 : Word).toNat + 8 := by decide +kernel

/-- Each clause of MIX and COMP, in a memory of 0x2010 bytes. -/
theorem witness_SpanChecksFaultInOrder_streams :
    Stream.wf ⟨0x1000, 0, 1⟩ = true ∧ Stream.wf ⟨0x1004, 0, 1⟩ = true ∧ Stream.wf ⟨0x2000, 0, 1⟩ = true ∧
    Stream.wf ⟨0x2000, 1, 2⟩ = true ∧ shiftWf 0 = true ∧ (2 : Word) ≠ 0 ∧ (0x1004 : Word).toNat % 8 ≠ 0 ∧
    (0x1000 : Word).toNat % 8 = 0 ∧ (0x2000 : Word).toNat % 8 = 0 ∧
    0x2010 < (0x2000 : Word).toNat + 8 * (2 : Word).toNat * (2 : Byte).toNat ∧
    (0x2000 : Word).toNat + 8 * (2 : Word).toNat * (1 : Byte).toNat ≤ 0x2010 ∧
    (fmtWf 0x01 = true ∧ nchWf 2 = true ∧ CompParams.wf ⟨128, 63, 63, 15⟩ = true) := by decide

/-- Addresses that no check would pass. -/
theorem witness_ZeroCountTouchesNothing :
    Instr.wf (.importWire 0x01 0 0xFFFFFFFF 1) = true ∧ Instr.wf (.exportWire 0x01 0 1 0xFFFFFFFF) = true ∧
    Instr.wf (.silence 0x01 0 0xFFFFFFFF) = true ∧
    Instr.wf (.mix ⟨false, false, false, true⟩ 0 0 ⟨0x2001, 0, 1⟩ ⟨0xFFFFFFF8, 0, 1⟩ 1) = true ∧
    Instr.wf (.comp 0x01 true 0 0x2003 1 ⟨128, 0, 0, 0⟩) = true ∧ Instr.wf (.fir 0 ⟨0x2001, 0, 1⟩ 0x6004) = true := by
  decide

theorem witness_HaltEndsTheRun : (running []).quiet := rfl

theorem witness_IntegerFormatsRoundTrip :
    fmtWf 0x0E = true ∧ fmtFloat 0x0E = false ∧ 2 ^ 24 - 1 < 2 ^ fmtWidth 0x0E := by decide

theorem witness_FloatRoundTripIsCanonicalExact : 0xBF800000 < 2 ^ 32 ∧ 0x80000000 < 2 ^ 32 := by decide

/-- u24be's and s8's patterns at the ends of their ranges, and the float patterns of −0.0, of the largest below 1.0, of 1.0
and of a negative NaN. -/
theorem witness_ImportedSamplesAreInRange :
    (fmtWf 0x0E = true ∧ fmtFloat 0x0E = false ∧ fmtUnsigned 0x0E = true ∧ 0 < 2 ^ fmtWidth 0x0E ∧
      2 ^ 24 - 1 < 2 ^ fmtWidth 0x0E) ∧
    (fmtWf 0x00 = true ∧ fmtFloat 0x00 = false ∧ fmtUnsigned 0x00 = false ∧ 127 < 2 ^ (fmtWidth 0x00 - 1) ∧
      ¬ 128 < 2 ^ (fmtWidth 0x00 - 1) ∧ 128 < 2 ^ fmtWidth 0x00) ∧
    (fmtWf 0x13 = true ∧ fmtFloat 0x13 = true ∧ 0x80000000 / 2 ^ 23 % 2 ^ 8 = 0 ∧ 0x3F7FFFFF / 2 ^ 23 % 2 ^ 8 = 126 ∧
      0x3F800000 / 2 ^ 23 % 2 ^ 8 = 127 ∧ 0xFFFFFFFF / 2 ^ 23 % 2 ^ 8 = 255 ∧ 0xFFFFFFFF < 2 ^ 32) := by decide

/-- Each clause next to the ends of u8's range. -/
theorem witness_ExportClampsToTheRange :
    fmtWf 0x04 = true ∧ maxOf 0x04 < 128 ∧ (-129 : Int) < minOf 0x04 ∧
    (fmtFloat 0x04 = false ∧ minOf 0x04 ≤ -128 ∧ (-128 : Int) ≤ maxOf 0x04) := by decide

/-- Four s16le samples at 0x1000 imported to 0x2000 … 0x201F, in a memory that ends there. -/
def importState : State := runningIn 0x201F (listed 0x1000 [0xFF, 0x7F, 0x64, 0x00, 0xFF, 0x7F, 0x00, 0x80])

theorem witness_ImportRunsInElementOrder :
    fmtWf 0x01 = true ∧ importState.quiet ∧ (0x2000 : Word).toNat % 8 = 0 ∧
    (0x2000 : Word).toNat + (4 : Word).toNat * fmtBytes 0x01 ≤ importState.config.memSize ∧
    (0x2000 : Word).toNat + 8 * (4 : Word).toNat ≤ importState.config.memSize :=
  ⟨by decide, rfl, by decide, by decide, by decide⟩

theorem witness_ImportConvertsEverySample :
    fmtWf 0x01 = true ∧ importState.quiet ∧ (0x2000 : Word).toNat % 8 = 0 ∧
    (0x1000 : Word).toNat + (4 : Word).toNat * fmtBytes 0x01 ≤ importState.config.memSize ∧
    (0x2000 : Word).toNat + 8 * (4 : Word).toNat ≤ importState.config.memSize ∧
    (0x1000 : Word).toNat + (4 : Word).toNat * fmtBytes 0x01 ≤ (0x2000 : Word).toNat :=
  ⟨by decide, rfl, by decide, by decide, by decide, by decide⟩

/-- Two canonical words at 0x2000. -/
def exportState : State := running (listed 0x2000 (canon 40000 ++ canon (-5)))

theorem witness_ExportRunsInElementOrder :
    fmtWf 0x09 = true ∧ exportState.quiet ∧ (0x2000 : Word).toNat % 8 = 0 ∧
    (0x2000 : Word).toNat + 8 * (2 : Word).toNat ≤ exportState.config.memSize ∧
    (0x2004 : Word).toNat + (2 : Word).toNat * fmtBytes 0x09 ≤ exportState.config.memSize :=
  ⟨by decide, rfl, by decide, by decide, by decide⟩

/-- In place, and to the first byte after the source. -/
theorem witness_ExportConvertsEverySample :
    fmtWf 0x09 = true ∧ exportState.quiet ∧ (0x2000 : Word).toNat % 8 = 0 ∧
    (0x2000 : Word).toNat + 8 * (2 : Word).toNat ≤ exportState.config.memSize ∧
    (0x2010 : Word).toNat + (2 : Word).toNat * fmtBytes 0x09 ≤ exportState.config.memSize ∧
    ((0x2000 : Word).toNat + 8 * (2 : Word).toNat ≤ (0x2010 : Word).toNat ∧ (0x2000 : Word).toNat ≤ (0x2000 : Word).toNat) :=
  ⟨by decide, rfl, by decide, by decide, by decide, by decide⟩

theorem witness_SilenceWritesTheZeroPattern :
    fmtWf 0x04 = true ∧ (0xFFFFFFFF : Word).toNat + (1 : Word).toNat * fmtBytes 0x04 ≤ (running []).config.memSize := by
  decide +kernel

theorem witness_MaxvWritesTheMaximum :
    fmtWf 0x0A = true ∧ (0xFFFFFFF8 : Word).toNat % 8 = 0 ∧ (0xFFFFFFF8 : Word).toNat + 8 ≤ (running []).config.memSize := by
  decide +kernel

/-- Two frames of two channels at 0x2000 (the source), and two zero words at 0x2020 (the destination). -/
def mixState : State :=
  running (listed 0x2000 (canon 100 ++ canon 7 ++ canon (-5) ++ canon 8) ++ listed 0x2020 (canon 0 ++ canon 0))

/-- The second channel of the frames at 0x2000. -/
def mixSource : Stream := ⟨0x2000, 1, 2⟩

/-- The stream right after them. -/
def mixDestination : Stream := ⟨0x2020, 0, 1⟩

/-- The hypotheses on the two streams of `mixState`. -/
def MixPremises : Prop :=
  mixSource.wf = true ∧ mixDestination.wf = true ∧ shiftWf 0xC1 = true ∧ mixState.quiet ∧
  mixSource.base.toNat % 8 = 0 ∧ mixDestination.base.toNat % 8 = 0 ∧
  mixSource.base.toNat + 8 * (2 : Word).toNat * mixSource.nch.toNat ≤ mixState.config.memSize ∧
  mixDestination.base.toNat + 8 * (2 : Word).toNat * mixDestination.nch.toNat ≤ mixState.config.memSize

theorem witness_MixRunsInFrameOrder : MixPremises :=
  ⟨by decide, by decide, by decide, rfl, by decide, by decide, by decide, by decide⟩

theorem witness_CopyCopiesTheStream : MixPremises ∧ Stream.apart mixSource mixDestination (2 : Word).toNat :=
  ⟨witness_MixRunsInFrameOrder, by unfold Stream.apart; decide⟩

theorem witness_MixAccumulateLaw :
    MixPremises ∧ Stream.apart mixSource mixDestination (2 : Word).toNat ∧
    ∀ i < (2 : Word).toNat, ∀ k < 8, mixState.mem.peek (Stream.sampleAddr mixDestination i + k) = 0 :=
  ⟨witness_MixRunsInFrameOrder, witness_CopyCopiesTheStream.2, by decide +kernel⟩

theorem witness_MixStepsTheGenerator :
    commandCheck (.mix ⟨false, false, false, true⟩ 0xC1 2 mixSource mixDestination 10) mixState = none ∧
    (observe (exec (.mix ⟨false, false, false, true⟩ 0xC1 2 mixSource mixDestination 10) mixState) State.busy).isSome = true := by
  decide +kernel

theorem gainsLegal_unity : gainsLegal unityGains := fun b c => by
  rw [Laws.gainGet_unity]; exact BitVec.le_refl _

/-- The two frames of `mixState` in place, from a bank at unity. -/
theorem witness_CompRunsInSampleOrder :
    fmtWf 0x01 = true ∧ nchWf 2 = true ∧ CompParams.wf ⟨128, 63, 63, 15⟩ = true ∧ mixState.quiet ∧
    gainsLegal mixState.gains ∧ (0x2000 : Word).toNat % 8 = 0 ∧
    (0x2000 : Word).toNat + 8 * (2 : Word).toNat * (2 : Byte).toNat ≤ mixState.config.memSize :=
  ⟨by decide, by decide, by decide, rfl, gainsLegal_unity, by decide, by decide⟩

theorem witness_DisabledCompChangesNothing :
    fmtWf 0x1B = true ∧ nchWf 64 = true ∧ CompParams.wf ⟨0, 63, 63, 15⟩ = true := by decide

/-- A threshold of 32767 × 1 / 255 = 128 is above every sample of `mixState`. -/
theorem witness_CompBelowTheKneeIsTransparent :
    fmtWf 0x01 = true ∧ nchWf 2 = true ∧ CompParams.wf ⟨1, 1, 4, 2⟩ = true ∧ mixState.quiet ∧ (0x2000 : Word).toNat % 8 = 0 ∧
    (0x2000 : Word).toNat + 8 * (2 : Word).toNat * (2 : Byte).toNat ≤ mixState.config.memSize ∧
    (∀ c < (2 : Byte).toNat, gainGet mixState.gains (2 : Byte).toNat c = 0x80000000) ∧
    (∀ j < (2 : Word).toNat * (2 : Byte).toNat,
      |mixState.mem.readCanon 0 ((0x2000 : Word).toNat + 8 * j)| ≤ maxOf 0x01 * ((1 : Byte).toNat : Int) / 255) :=
  ⟨by decide, by decide, by decide, rfl, by decide, by decide, fun c _ => Laws.gainGet_unity _ c, by decide +kernel⟩

theorem witness_CompWithAttackZeroIsBounded :
    fmtWf 0x01 = true ∧ nchWf 2 = true ∧ CompParams.wf ⟨128, 0, 63, 0⟩ = true ∧ CompParams.attack ⟨128, 0, 63, 0⟩ = 0 ∧
    mixState.quiet ∧ gainsLegal mixState.gains ∧ (0x2000 : Word).toNat % 8 = 0 ∧
    (0x2000 : Word).toNat + 8 * (2 : Word).toNat * (2 : Byte).toNat ≤ mixState.config.memSize :=
  ⟨by decide, by decide, by decide, rfl, rfl, gainsLegal_unity, by decide, by decide⟩

theorem witness_CompBlocksConcatenate :
    fmtWf 0x01 = true ∧ nchWf 2 = true ∧ CompParams.wf ⟨128, 1, 4, 0⟩ = true ∧ mixState.quiet ∧ (0x2000 : Word).toNat % 8 = 0 ∧
    (2 : Word).toNat = (1 : Word).toNat + (1 : Word).toNat ∧
    (0x2010 : Word).toNat = (0x2000 : Word).toNat + 8 * ((1 : Word).toNat * (2 : Byte).toNat) ∧
    (0x2000 : Word).toNat + 8 * (2 : Word).toNat * (2 : Byte).toNat ≤ mixState.config.memSize :=
  ⟨by decide, by decide, by decide, rfl, by decide, by decide, by decide, by decide⟩

theorem witness_GaininitSetsTheBankToUnity : (15 : Byte).toNat ≤ 15 := by decide

/-- Samples 5, 6, 7 at 0x2000 and a state block at 0x3000 whose first words are given. -/
def firState (header : List Byte) : State :=
  running (listed 0x2000 (canon 5 ++ canon 6 ++ canon 7) ++ listed 0x3000 header)

/-- A NULL kernel, and a disabled filter. -/
theorem witness_FirBypassesChangeNothing :
    Stream.wf ⟨0x2001, 0, 1⟩ = true ∧ (0 : Word) = 0 ∧ (0x3000 : Word).toNat % 8 = 0 ∧
    (0x3000 : Word).toNat + 8 ≤ (firState (List.replicate 8 0)).config.memSize ∧
    firLen (firState (List.replicate 8 0)).mem (0x3000 : Word).toNat = 0 := by decide +kernel

theorem three_is_no_power (k : Nat) : 3 ≠ 2 ^ k := by
  rcases k with _ | k
  · decide
  · rw [Nat.pow_succ]; omega

/-- Each clause: the pointer, the header's range, N = 3, N = 131072, OFF = N = 2, the buffer, the state block's range, and
an overlap of one word. -/
theorem witness_FirChecksInOrder :
    (Stream.wf ⟨0x2000, 0, 1⟩ = true ∧ Stream.wf ⟨0x2004, 0, 1⟩ = true ∧ (1 : Word) ≠ 0 ∧ (0x3000 : Word) ≠ 0) ∧
    (0x3004 : Word).toNat % 8 ≠ 0 ∧ (runningIn 0x3006 []).config.memSize < (0x3000 : Word).toNat + 8 ∧
    firLen (firState [3, 0, 0, 0, 0, 0, 0, 0]).mem 0x3000 = 3 ∧ (∀ k, 3 ≠ 2 ^ k) ∧
    65536 < firLen (firState [0, 0, 2, 0, 0, 0, 0, 0]).mem 0x3000 ∧
    firLen (firState [2, 0, 0, 0, 2, 0, 0, 0]).mem 0x3000 ≤ firOff (firState [2, 0, 0, 0, 2, 0, 0, 0]).mem 0x3000 ∧
    (firLen (firState [2, 0, 0, 0, 1, 0, 0, 0]).mem 0x3000 = 2 ^ 1 ∧
      firOff (firState [2, 0, 0, 0, 1, 0, 0, 0]).mem 0x3000 < firLen (firState [2, 0, 0, 0, 1, 0, 0, 0]).mem 0x3000) ∧
    (0x2004 : Word).toNat % 8 ≠ 0 ∧
    (runningIn 0x303F []).config.memSize < (0x3038 : Word).toNat + 8 * (2 : Word).toNat * (1 : Byte).toNat ∧
    (runningIn 0x303E []).config.memSize < (0x3000 : Word).toNat + (8 + 28 * 2) ∧
    (∃ a, (0x3000 ≤ a ∧ a < 0x3000 + (8 + 28 * 2)) ∧ 0x3038 ≤ a ∧ a < 0x3038 + 8 * (1 : Word).toNat * (1 : Byte).toNat) :=
  ⟨by decide, by decide, by decide, by decide +kernel, three_is_no_power, by decide +kernel, by decide +kernel,
    by decide +kernel, by decide, by decide, by decide, ⟨0x3038, by decide⟩⟩

/-- The hypotheses that the statements about an active FIR share, for the stream at 0x2000 and the block at 0x3000. -/
def FirPremises (s : State) (count : Word) : Prop :=
  Stream.wf ⟨0x2000, 0, 1⟩ = true ∧ count ≠ 0 ∧ (0x3000 : Word) ≠ 0 ∧ s.quiet ∧ (0x3000 : Word).toNat % 8 = 0 ∧
  (0x2000 : Word).toNat % 8 = 0 ∧ 0x2000 + 8 * count.toNat * (1 : Byte).toNat ≤ s.config.memSize ∧
  0x3000 + (8 + 28 * firLen s.mem 0x3000) ≤ s.config.memSize ∧ 0x2000 + 8 * count.toNat * (1 : Byte).toNat ≤ 0x3000

/-- A state block of length 2 with OFF = 1. -/
def twoTaps : State := firState ([2, 0, 0, 0, 1, 0, 0, 0] ++ List.replicate 56 0)

theorem witness_FirFiltersInPlace :
    FirPremises twoTaps 3 ∧ firLen twoTaps.mem 0x3000 = 2 ^ 1 ∧ firLen twoTaps.mem 0x3000 ≤ 65536 ∧
    firOff twoTaps.mem 0x3000 < firLen twoTaps.mem 0x3000 :=
  ⟨⟨by decide, by decide, by decide, rfl, by decide, by decide, by decide, by decide +kernel, by decide⟩,
    by decide +kernel, by decide +kernel, by decide +kernel⟩

/-- The same filter, its block completed by one sample. -/
theorem witness_FirBlockIsTheConvolution :
    FirPremises twoTaps 1 ∧ firLen twoTaps.mem 0x3000 = 2 ^ 1 ∧ firLen twoTaps.mem 0x3000 ≤ 65536 ∧
    firOff twoTaps.mem 0x3000 + (1 : Word).toNat = firLen twoTaps.mem 0x3000 :=
  ⟨⟨by decide, by decide, by decide, rfl, by decide, by decide, by decide, by decide +kernel, by decide⟩,
    by decide +kernel, by decide +kernel, by decide +kernel⟩

/-- R183's example. -/
theorem witness_FirUnitKernelDelaysByOne :
    FirPremises (firState unitFilter) 3 ∧ firLen (firState unitFilter).mem 0x3000 = 1 ∧
    firOff (firState unitFilter).mem 0x3000 = 0 ∧ (firState unitFilter).mem.read 0 (firCoeff 0x3000 1 0) 4 = 2 ^ 30 ∧
    (firState unitFilter).mem.readCanon 0 (firOut 0x3000 1 1) = 0 :=
  ⟨⟨by decide, by decide, by decide, rfl, by decide, by decide, by decide, by decide +kernel, by decide⟩,
    by decide +kernel, by decide +kernel, by decide +kernel, by decide +kernel⟩

/-- The reset state is legal and its step gives a next state. -/
theorem witness_EveryStepKeepsLegality : State.reset.Inv ∧ step State.reset = .next State.reset :=
  ⟨⟨rfl, by simp [State.reset, Memory.atPowerOn], rfl, by decide, by decide, gainsLegal_unity, by decide, by decide,
    by decide, by decide, by decide, by decide, fun _ => ⟨rfl, rfl, rfl⟩, by simp [State.reset]⟩, rfl⟩

theorem witness_RunsEndInASmallMemory :
    (fun s : State => s.schedule = [] ∧ s.busy = true ∧ s.cmdPtr.toNat % 32 = 0 ∧ s.config.memSize < 2 ^ 32)
      { runningIn 0xFFFFFFFE [] with cmdPtr := 0xFFFFFFE0 } := ⟨rfl, rfl, by decide, by decide⟩

theorem witness_ResetStrobeResetsAllButMemory :
    (5 : Word).getLsbD 2 = true ∧ (running []).quiet ∧ (running []).executing = false := ⟨by decide, rfl, rfl⟩

/-- A MAXV that is cut at its eight destination bytes. -/
theorem witness_MidCommandResetKeepsOtherBytes :
    (fun s : State => s.quiet ∧ s.busy = true ∧ s.executing = true ∧ (4 : Word).getLsbD 2 = true ∧
      s.cmdPtr.toNat + 32 ≤ s.config.memSize ∧ decode (fetchWords s) = .ok (.maxv 0 0x1000) ∧
      commandCheck (.maxv 0 0x1000) s = none ∧ 0x1000 ∈ destBytes (.maxv 0 0x1000) s.mem ∧
      0x1007 ∈ destBytes (.maxv 0 0x1000) s.mem) (midCommand ⟨0x04, 0, 0, 0x1000, 0, 0, 0, 0⟩) :=
  ⟨rfl, rfl, rfl, by decide, by decide, by decide +kernel, by decide +kernel, by decide, by decide⟩

theorem witness_StartBeginsARun :
    (3 : Word).getLsbD 2 = false ∧ (3 : Word).getLsbD 0 = true ∧ State.reset.busy = false ∧ (running []).busy = true := by
  decide

/-- Each clause. -/
theorem witness_StrobesAreIgnoredOutOfTurn :
    ((1 : Word).getLsbD 2 = false ∧ (running []).busy = true ∧ (1 : Word).getLsbD 1 = false) ∧
    ((2 : Word).getLsbD 2 = false ∧ State.reset.busy = false ∧ (2 : Word).getLsbD 0 = false) ∧
    ((3 : Word).getLsbD 2 = false ∧ (running []).busy = true ∧ (3 : Word).getLsbD 1 = true) := by decide

theorem witness_BusyProtectsTheRun :
    (running []).busy = true ∧ (0x10 : Nat) ≠ 0x04 ∧ (observe (exec .halt (running [])) State.busy).isSome = true := by decide

/-- The idle reset state, and the first and the last cause. -/
theorem witness_RegistersReadBack :
    State.reset.busy = false ∧ State.reset.faultCause = .none ∧ ((running []).takeFault ⟨.overlap, 0⟩).faultCause = .overlap :=
  ⟨rfl, rfl, rfl⟩

theorem witness_GainDataReachesTheSelectedEntry : State.reset.busy = false ∧ (running []).busy = true := ⟨rfl, rfl⟩

theorem witness_ReservedOffsetsReadZero : 0x28 ≤ 0x28 ∧ 0x3C ≤ 0x3C := by decide

/-- A narrow access of an aligned offset, a 32-bit access of a misaligned one, an aligned one, and a scheduled action. -/
theorem witness_OddWindowAccessIsRefused : (2 ≠ 4 ∨ (0x08 : BitVec 6).toNat % 4 ≠ 0) ∧
    ((4 : Nat) ≠ 4 ∨ (0x3F : BitVec 6).toNat % 4 ≠ 0) ∧ (0x3C : BitVec 6).toNat % 4 = 0 ∧
    { State.reset with schedule := [.host .powerOn] }.schedule = .host .powerOn :: [] := by decide

/-- R237's premises are met from the reset state, with the STOP of the same write and no byte read. -/
theorem test_launched : ∃ t, State.launched State.reset t 3 [] :=
  Laws.launched_of_start witness_EveryStepKeepsLegality.1 rfl (by decide) (by decide) (by simp)

theorem witness_InterruptIsLevelSensitive :
    (running []).done = false ∧ (running []).fault = false ∧ (running []).stopped = false := by decide

theorem witness_ReadsDuringARunShowABoundary :
    (State.reset.startRun.busy = true ∧ State.reset.startRun.boundaries ≠ []) ∧
    Instr.maxv 0x01 0 ≠ .halt ∧ commandCheck (.maxv 0x01 0) (running []) = none ∧
    (observe (exec (.maxv 0x01 0) (running [])) State.busy).isSome = true :=
  ⟨⟨rfl, by simp⟩, by decide, by decide +kernel, by decide +kernel⟩

/-- The last address, a byte the host did not write, and a byte the run did not write. -/
theorem witness_HostWritesRaceOnlyWhereTheRunWrites :
    (0xFFFFFFFF : Word).toNat < State.reset.config.memSize ∧ 5 ∉ (running []).mem.raced ∧
    (∀ e ∈ (running []).mem.log, e.1 ≠ 5) := ⟨by decide, by decide, by decide⟩

/-- After a run, and during a MAXV that writes the byte read. -/
theorem witness_HostSeesMemoryAfterStatus :
    (fun s : State => s.busy = false ∧ s.executing = false ∧ s.mem.log = [] ∧ (0x1000 : Word).toNat < s.config.memSize ∧
      s.schedule = .host (.windowRead 0x08 4) :: .host (.memRead 0x1000) :: [])
      { State.reset with schedule := [.host (.windowRead 0x08 4), .host (.memRead 0x1000)] } ∧
    (fun s : State => s.busy = true ∧ s.executing = true ∧ s.quiet ∧ s.cmdPtr.toNat + 32 ≤ s.config.memSize ∧
      decode (fetchWords s) = .ok (.maxv 0 0x1000) ∧ commandCheck (.maxv 0 0x1000) s = none ∧ Instr.maxv 0 0x1000 ≠ .halt ∧
      (observe (exec (.maxv 0 0x1000) s) State.busy).isSome = true ∧ (0x1000 : Word).toNat < s.config.memSize)
      (midCommand ⟨0x04, 0, 0, 0x1000, 0, 0, 0, 0⟩) :=
  ⟨⟨rfl, rfl, rfl, by decide, rfl⟩, rfl, rfl, rfl, by decide, by decide +kernel, by decide +kernel, by decide,
    by decide +kernel, by decide⟩

end Sys2Proof.Tests
end

section
/-! SUPPORT. The register window on GAIN_DATA (R32, R33): what a write of it does and what a read of it gives, and the
statement about them. -/

namespace Sys2Proof.Proofs

open Sys2Proof.Machine Sys2Proof.Laws

/-! ## The registers a read shows while idle (R40) -/

theorem visibleBoundary_idle {s : State} (h : s.busy = false) : s.visibleBoundary = s.boundary := by
  simp [State.visibleBoundary, h]

/-! ## GAIN_DATA (R32, R33) -/

/-- GAIN_IDX's BANK and CH fields are four and six bits wide, so the entry they select is one of the banks' own. -/
theorem gainSet_selected_get (g : Gains) (idx v : Word) :
    gainGet (gainSet g (idx.extractLsb' 8 4).toNat (idx.extractLsb' 0 6).toNat v)
      (idx.extractLsb' 8 4).toNat (idx.extractLsb' 0 6).toNat = v :=
  gainGet_gainSet_same v (idx.extractLsb' 8 4).isLt (idx.extractLsb' 0 6).isLt

/-- The clamp of a GAIN_DATA write is `min` with unity on the numbers written. -/
theorem clampUnity_toNat (v : Word) : (if v ≤ unityGain then v else unityGain).toNat = min v.toNat (2 ^ 31) := by
  have unity : unityGain.toNat = 2 ^ 31 := rfl
  split
  · next h => rw [BitVec.le_def, unity] at h; exact (Nat.min_eq_left h).symm
  · next h => rw [BitVec.le_def, unity] at h; rw [unity, Nat.min_eq_right (by omega)]

theorem writeRegister_gainData_idle {s : State} (v : Word) (h : s.busy = false) :
    s.writeRegister 0x24 v = s.writeGainData v := by
  simp [State.writeRegister, h]

theorem writeRegister_gainData_busy {s : State} (v : Word) (h : s.busy = true) : s.writeRegister 0x24 v = s := by
  simp [State.writeRegister, h]

theorem readRegister_gainData_idle {s : State} (h : s.busy = false) :
    s.readRegister 0x24 = gainGet s.gains (s.gainIdx.extractLsb' 8 4).toNat (s.gainIdx.extractLsb' 0 6).toNat := by
  change gainData s.gainIdx s.visibleBoundary.gains = _
  rw [visibleBoundary_idle h]
  rfl

/-- The selected entry after a GAIN_DATA write while idle. -/
theorem writeGainData_selected (s : State) (v : Word) :
    (gainGet (s.writeGainData v).gains (s.gainIdx.extractLsb' 8 4).toNat (s.gainIdx.extractLsb' 0 6).toNat).toNat =
      min v.toNat (2 ^ 31) := by
  rw [writeGainData_gains, gainSet_selected_get, clampUnity_toNat]

theorem readRegister_gainData_reset : State.reset.readRegister 0x24 = unityGain := by
  rw [readRegister_gainData_idle rfl]
  exact gainGet_unity _ _

/-- Settles O54: while idle the access goes to the selected entry, which lies within the banks; in a run the write is
dropped; at reset every entry is unity. -/
theorem gainDataReachesTheSelectedEntry : Obligations.GainDataReachesTheSelectedEntry := by
  refine ⟨readRegister_gainData_reset, fun s v => ⟨fun idle => ?_, writeRegister_gainData_busy v⟩⟩
  rw [writeRegister_gainData_idle v idle]
  refine ⟨writeGainData_selected s v, ?readsBack, ?others, readRegister_gainData_idle idle⟩
  case readsBack =>
    rw [readRegister_gainData_idle (s := s.writeGainData v) idle]
    exact writeGainData_selected s v
  case others =>
    intro b' c' other
    rw [writeGainData_gains, gainGet_gainSet_other _ other]

end Sys2Proof.Proofs
end

section
/-! SUPPORT. Commands whose COUNT is 0 (R57): the checks they make and the effect they have, and the statement about them. -/

namespace Sys2Proof.Proofs

open Sys2Proof.Machine Sys2Proof.Laws

/-! ## The field checks (R82) -/

/-- The checks R82 makes in order and the tables of R70, R73, R76, R78 and R79 agree on which fields are legal. -/
theorem fieldFault_none_iff_wf (i : Instr) : fieldFault i = none ↔ i.wf = true := by
  cases i with
  | halt => simp [fieldFault, Instr.wf]
  | importWire | exportWire | silence | maxv => simp [fieldFault, Instr.wf, legalFmt_iff_table]
  | mix =>
    simp only [fieldFault, Instr.wf, Option.or_eq_none_iff, channelFault_none, paramFault_none, legalStream_iff_wf,
      shiftWf, Bool.and_eq_true]
  | comp =>
    simp only [fieldFault, Instr.wf, Option.or_eq_none_iff, fmtFault_none, channelFault_none, paramFault_none,
      legalFmt_iff_table, legalNch_iff_wf, CompParams.wf, Bool.and_eq_true]
  | gaininit => simp [fieldFault, Instr.wf]
  | fir => simp [fieldFault, Instr.wf, legalStream_iff_wf]

/-! ## The end of a command (R94) -/

theorem sameRegisters_refl (s : State) : s.sameRegisters s :=
  ⟨rfl, rfl, rfl, rfl, rfl, rfl, rfl, rfl, rfl, rfl, rfl, rfl, rfl⟩

/-- A command completes from `s` when its effect `e` changes memory, LFSR and gain entries only. -/
theorem completedTo_advance {s e : State} (registers : s.sameRegisters e) (cmdPtr : e.cmdPtr = s.cmdPtr) :
    s.completedTo e.advance where
  registers := { registers with }
  cmdPtr := by rw [advance_cmdPtr, cmdPtr]
  ended := advance_executing e

/-! ## COUNT = 0 (R57) -/

/-- The commands with a COUNT, at COUNT = 0. -/
inductive ZeroCount : Instr → Prop where
  | importWire (fmt : Byte) (src dst : Word) : ZeroCount (.importWire fmt 0 src dst)
  | exportWire (fmt : Byte) (src dst : Word) : ZeroCount (.exportWire fmt 0 src dst)
  | silence (fmt : Byte) (dst : Word) : ZeroCount (.silence fmt 0 dst)
  | mix (flags : MixFlags) (shift : Byte) (src dst : Stream) (volume : Word) :
    ZeroCount (.mix flags shift 0 src dst volume)
  | comp (fmt : Byte) (en : Bool) (buf : Word) (nch : Byte) (par : CompParams) : ZeroCount (.comp fmt en 0 buf nch par)
  | fir (buf : Stream) (state : Word) : ZeroCount (.fir 0 buf state)

@[simp] theorem compFrames_zero (en : Bool) : compFrames en 0 = 0 := by
  cases en <;> rfl

/-- No span is checked. -/
theorem ZeroCount.memoryCheck_none {i : Instr} (zero : ZeroCount i) (s : State) : memoryCheck i s = none := by
  cases zero with
  | importWire | exportWire | silence | mix | fir => rfl
  | comp => exact if_pos (.inr rfl)

/-- No element is processed: the effect to commit is the state the command found. -/
theorem ZeroCount.exec_eq_commit {i : Instr} (zero : ZeroCount i) (s : State) :
    exec i s = .next (s.commit (commandCheck i s) s) := by
  cases zero with
  | importWire | exportWire | silence | mix | fir => rfl
  | comp fmt en buf nch par =>
    simp only [exec, execComp, compFrames_zero, loop_zero, commandCheck, memoryCheck]

/-- With legal fields nothing is left to fail, so the command only completes. -/
theorem ZeroCount.exec_eq_advance {i : Instr} (zero : ZeroCount i) (legal : i.wf = true) (s : State) :
    exec i s = .next s.advance := by
  have passes : commandCheck i s = none :=
    Option.or_eq_none_iff.mpr ⟨(fieldFault_none_iff_wf i).mpr legal, zero.memoryCheck_none s⟩
  rw [zero.exec_eq_commit, passes, commit_none]

/-- Settles O15: at COUNT = 0 neither a span is checked nor an element processed, and a command without effect leaves
every register but CMD_PTR and every byte. -/
theorem zeroCountTouchesNothing : Obligations.ZeroCountTouchesNothing := by
  intro i s legal forms
  have zero : ZeroCount i := by
    obtain ⟨_, _, _, rfl⟩ | ⟨_, _, _, rfl⟩ | ⟨_, _, rfl⟩ | ⟨_, _, _, _, _, rfl⟩ | ⟨_, _, _, _, _, rfl⟩ | ⟨_, _, rfl⟩ := forms
      <;> constructor
  exact ⟨s.advance, zero.exec_eq_advance legal s, completedTo_advance (sameRegisters_refl s) rfl, advance_lfsr s,
    advance_gains s, fun a => tick_peek s.mem a⟩

end Sys2Proof.Proofs
end

section
/-! SUPPORT. The decoder on reserved bits (R81) and the step that fetches a descriptor which does not decode (R83, R96),
and the statement about them. -/

namespace Sys2Proof.Proofs

open Sys2Proof.Machine Sys2Proof.Laws

/-! ## Reserved bits (R81) -/

/-- The search for a reserved bit stops at the first word that has one, whatever index it counts from. -/
theorem lowestReserved_eq_some {k : Nat} {wk mk : Word} (set : wk &&& mk ≠ 0) :
    ∀ (n : Nat) (ws ms : List Word), ws[k]? = some wk → ms[k]? = some mk →
      (∀ (j : Nat) (wj mj : Word), j < k → ws[j]? = some wj → ms[j]? = some mj → wj &&& mj = 0) →
      lowestReserved n ws ms = some (n + k) := by
  induction k with
  | zero =>
    intro n ws ms word mask _
    match ws, ms, word, mask with
    | _ :: _, _ :: _, rfl, rfl => exact if_neg set
  | succ k ih =>
    intro n ws ms word mask clear
    match ws, ms, word, mask with
    | w :: ws, m :: ms, word, mask =>
      have head : w &&& m = 0 := clear 0 w m k.succ_pos rfl rfl
      have tail : lowestReserved (n + 1) ws ms = some (n + 1 + k) :=
        ih (n + 1) ws ms word mask fun j wj mj below => clear (j + 1) wj mj (Nat.succ_lt_succ below)
      rw [lowestReserved, if_pos head, tail, Nat.add_right_comm, Nat.add_assoc]

theorem decode_of_lowestReserved {w : Words} {op : Opcode} {k : Nat} (opcode : Opcode.ofCode (byte0 w.w0) = some op)
    (lowest : lowestReserved 0 w.toList (reservedMasks op).toList = some k) :
    decode w = .error ⟨.reservedField, BitVec.ofNat 32 k⟩ := by
  simp only [decode, opcode, lowest]

/-! ## The step that fetches (R92) -/

theorem step_fetching {s : State} (fetching : s.fetching) : step s = runCommand s := by
  obtain ⟨idleSchedule, busy, noStop, -⟩ := fetching
  simp only [step, turn, idleSchedule, sequencerStep, noStop, busy, if_true, if_false, Bool.false_eq_true]

/-- A fetched descriptor that does not decode ends the run with the decoder's fault. -/
theorem step_decode_error {s : State} {f : FaultReport} (fetching : s.fetching)
    (rejected : decode (fetchWords s) = .error f) : step s = .next (s.takeFault f) := by
  rw [step_fetching fetching]
  obtain ⟨outside, -⟩ | ⟨-, ⟨f', faults, runs⟩ | ⟨i, decodes, -⟩⟩ := runCommand_cases s
  · exact absurd fetching.inRange (Nat.not_le.mpr outside)
  · obtain rfl : f = f' := Except.error.inj (rejected.symm.trans faults)
    exact runs
  · cases rejected.symm.trans decodes

/-- Settles O5: the decoder's search finds word k, and the step passes the decoder's verdict on. -/
theorem lowestReservedWordFaults : Obligations.LowestReservedWordFaults := by
  intro w op k wk mk opcode word mask set clear
  have lowest : lowestReserved 0 w.toList (reservedMasks op).toList = some k := by
    simpa using lowestReserved_eq_some set 0 w.toList (reservedMasks op).toList word mask clear
  have rejected := decode_of_lowestReserved opcode lowest
  exact ⟨rejected, fun s fetching fetched => step_decode_error fetching (fetched ▸ rejected)⟩

end Sys2Proof.Proofs
end

section
/-! SUPPORT. Commands whose fields are illegal (R82): the fault that the order of the field checks names, that executing
the command takes it before anything else, and the statement about them. -/

namespace Sys2Proof.Proofs

open Sys2Proof.Machine Sys2Proof.Laws

/-! ## Check, then execute (R100) -/

/-- Every command but HALT, which makes no check, commits its effect under all of its checks. -/
theorem exec_commits {i : Instr} (checked : i ≠ .halt) (s : State) :
    ∃ effect, exec i s = .next (s.commit (commandCheck i s) effect) := by
  cases i with
  | halt => exact absurd rfl checked
  | gaininit bank =>
    have check : commandCheck (.gaininit bank) s = fieldFault (.gaininit bank) := Option.or_none
    rw [check]
    exact ⟨_, rfl⟩
  | importWire | exportWire | silence | maxv | mix | comp | fir => exact ⟨_, rfl⟩

theorem exec_of_commandCheck {i : Instr} {s : State} {f : FaultReport} (fails : commandCheck i s = some f) :
    exec i s = .next (s.takeFault f) := by
  have checked : i ≠ .halt := by
    rintro rfl
    cases fails
  obtain ⟨effect, commits⟩ := exec_commits checked s
  rw [commits, fails, commit_some]

/-- The field checks come before the memory checks, so a fault of theirs is the command's. -/
theorem exec_of_fieldFault {i : Instr} {f : FaultReport} (illegal : fieldFault i = some f) (s : State) :
    exec i s = .next (s.takeFault f) :=
  exec_of_commandCheck (by rw [commandCheck, illegal, Option.some_or])

/-! ## Each field check where it fails (R82) -/

@[simp] theorem channelFault_false (w4 : Word) : channelFault false w4 = some ⟨.illegalChannel, w4⟩ := rfl

@[simp] theorem paramFault_false (k : Word) : paramFault false k = some ⟨.illegalParam, k⟩ := rfl

theorem fmtFault_illegal {fmt : Byte} (illegal : fmtWf fmt = false) :
    fmtFault fmt = some ⟨.illegalFormat, fmt.setWidth 32⟩ := by
  rw [fmtFault, legalFmt_iff_table, illegal, if_neg Bool.false_ne_true]

theorem fmtFault_legal {fmt : Byte} (legal : fmtWf fmt = true) : fmtFault fmt = none :=
  (fmtFault_none fmt).mpr (legalFmt_iff_table fmt ▸ legal)

/-! ## The order of the field checks of each command (R82) -/

section Mix

variable {flags : MixFlags} {shift : Byte} {count : Word} {src dst : Stream} {volume : Word}

theorem fieldFault_mix_channel (illegal : (src.wf && dst.wf) = false) :
    fieldFault (.mix flags shift count src dst volume) =
      some ⟨.illegalChannel, (encode (.mix flags shift count src dst volume)).w4⟩ := by
  simp only [fieldFault, legalStream_iff_wf, illegal, channelFault_false, Option.some_or, encode]

theorem fieldFault_mix_shift (legalSrc : src.wf = true) (legalDst : dst.wf = true) (illegal : shiftWf shift = false) :
    fieldFault (.mix flags shift count src dst volume) = some ⟨.illegalParam, 0⟩ := by
  have channels : (legalStream src && legalStream dst) = true := Bool.and_eq_true_iff.mpr ⟨legalSrc, legalDst⟩
  rw [fieldFault, (channelFault_none ..).mpr channels, Option.none_or, ← shiftWf, illegal, paramFault_false]

end Mix

section Comp

variable {fmt : Byte} {en : Bool} {count buf : Word} {nch : Byte} {par : CompParams}

theorem fieldFault_comp_format (illegal : fmtWf fmt = false) :
    fieldFault (.comp fmt en count buf nch par) = some ⟨.illegalFormat, fmt.setWidth 32⟩ := by
  simp only [fieldFault, fmtFault_illegal illegal, Option.some_or]

theorem fieldFault_comp_channel (fmtLegal : fmtWf fmt = true) (illegal : nchWf nch = false) :
    fieldFault (.comp fmt en count buf nch par) =
      some ⟨.illegalChannel, (encode (.comp fmt en count buf nch par)).w4⟩ := by
  simp only [fieldFault, fmtFault_legal fmtLegal, legalNch_iff_wf, illegal, channelFault_false, Option.none_or,
    Option.some_or, encode]

theorem fieldFault_comp_param (fmtLegal : fmtWf fmt = true) (nchLegal : nchWf nch = true) (illegal : par.wf = false) :
    fieldFault (.comp fmt en count buf nch par) = some ⟨.illegalParam, 5⟩ := by
  rw [fieldFault, fmtFault_legal fmtLegal, legalNch_iff_wf, (channelFault_none ..).mpr nchLegal, Option.none_or,
    Option.none_or, ← CompParams.wf, illegal, paramFault_false]

end Comp

theorem fieldFault_gaininit_bank {bank : Byte} (illegal : 15 < bank.toNat) :
    fieldFault (.gaininit bank) = some ⟨.illegalParam, 5⟩ := by
  rw [fieldFault, decide_eq_false (Nat.not_le.mpr illegal), paramFault_false]

theorem fieldFault_fir_channel {count st : Word} {buf : Stream} (illegal : buf.wf = false) :
    fieldFault (.fir count buf st) = some ⟨.illegalChannel, (encode (.fir count buf st)).w4⟩ := by
  simp only [fieldFault, legalStream_iff_wf, illegal, channelFault_false, encode]

/-- Settles O7: each command takes the first fault of its field checks, whatever its other operands. -/
theorem illegalFieldsFault : Obligations.IllegalFieldsFault := by
  refine ⟨?format, ?mix, ?comp, ?gaininit, ?fir⟩
  case format =>
    intro fmt s illegal faults
    have single : ∀ i : Instr, fieldFault i = fmtFault fmt → faults i := fun _ only =>
      exec_of_fieldFault (only.trans (fmtFault_illegal illegal)) s
    exact ⟨fun _ _ _ => single _ rfl, fun _ _ _ => single _ rfl, fun _ _ => single _ rfl, fun _ => single _ rfl,
      fun _ _ _ _ _ => exec_of_fieldFault (fieldFault_comp_format illegal) s⟩
  case mix =>
    exact fun _ _ _ _ _ _ s => ⟨fun illegal => exec_of_fieldFault (fieldFault_mix_channel illegal) s,
      fun legalSrc legalDst illegal => exec_of_fieldFault (fieldFault_mix_shift legalSrc legalDst illegal) s⟩
  case comp =>
    exact fun _ _ _ _ _ _ s fmtLegal =>
      ⟨fun illegal => exec_of_fieldFault (fieldFault_comp_channel fmtLegal illegal) s,
        fun nchLegal illegal => exec_of_fieldFault (fieldFault_comp_param fmtLegal nchLegal illegal) s⟩
  case gaininit => exact fun _ s illegal => exec_of_fieldFault (fieldFault_gaininit_bank illegal) s
  case fir => exact fun _ _ _ s illegal => exec_of_fieldFault (fieldFault_fir_channel illegal) s

end Sys2Proof.Proofs
end

section
/-! SUPPORT. The sequencer's operations on a run (R91, R94, R96): what every command but HALT changes when its checks
pass, and the statements about completing, faulting and starting. -/

namespace Sys2Proof.Proofs

open Sys2Proof.Machine Sys2Proof.Laws

/-! ## Addresses outside a destination (R52) -/

theorem outside_byteRange {a n x : Nat} (outside : x ∉ byteRange a n) : x < a ∨ a + n ≤ x := by
  rw [mem_byteRange] at outside
  omega

theorem outside_sampleBytes {st : Stream} {count : Word} {x : Nat} (outside : x ∉ Stream.sampleBytes st count) :
    ∀ i < count.toNat, x < Stream.sampleAddr st i ∨ Stream.sampleAddr st i + 8 ≤ x := by
  intro i frame
  rw [mem_sampleBytes] at outside
  by_contra inside
  exact outside ⟨i, frame, by omega⟩

/-! ## FIR (R177, R179) -/

theorem firRun_inactive {m : Memory} {count st : Word} (buf : Stream) (inactive : firActive m count st = false) :
    firRun m count buf st = m := by
  simp only [firRun, inactive, Bool.false_eq_true, if_false]

theorem firRun_active {m : Memory} {count st : Word} (buf : Stream) (active : firActive m count st = true) :
    firRun m count buf st =
      (loop count.toNat (firStep buf st.toNat (firLen m st.toNat)) (m, firOff m st.toNat)).1.write (st.toNat + 4) 4
        (loop count.toNat (firStep buf st.toNat (firLen m st.toNat)) (m, firOff m st.toNat)).2 := by
  simp only [firRun, active, if_true]

theorem firDest_active {m : Memory} {count st : Word} (buf : Stream) (active : firActive m count st = true) :
    firDest m count buf st =
      Stream.sampleBytes buf count ++ byteRange (st.toNat + 4) (4 + 24 * firLen m st.toNat) := by
  simp only [firDest, active, if_true]

theorem firStateCheck_off {c : Config} {count st : Word} {buf : Stream} {n off : Nat} (enabled : n ≠ 0)
    (passes : firStateCheck c count buf st n off = none) : off < n := by
  by_contra late
  simp [firStateCheck, enabled, Nat.le_of_not_lt late] at passes

/-- A filter that runs has a header whose OFF its checks accepted. -/
theorem firCheck_off {c : Config} {m : Memory} {count st : Word} {buf : Stream}
    (active : firActive m count st = true) (passes : firCheck c m count buf st = none) :
    firOff m st.toNat < firLen m st.toNat := by
  simp only [firActive, Bool.and_eq_true, bne_iff_ne] at active
  obtain ⟨⟨counted, kernel⟩, enabled⟩ := active
  simp only [firCheck, counted, kernel, if_false, Option.or_eq_none_iff] at passes
  obtain ⟨-, -, header⟩ := passes
  exact firStateCheck_off enabled header

theorem firRun_raced (m : Memory) (count : Word) (buf : Stream) (st : Word) :
    (firRun m count buf st).raced = m.raced := by
  cases active : firActive m count st with
  | false => rw [firRun_inactive buf active]
  | true => rw [firRun_active buf active, write_raced, firLoop_raced]

theorem firRun_sameOutside {c : Config} {m : Memory} {count : Word} {buf : Stream} {st : Word}
    (passes : firCheck c m count buf st = none) :
    m.sameOutside (firDest m count buf st) (firRun m count buf st) := by
  intro x outside
  cases active : firActive m count st with
  | false => rw [firRun_inactive buf active]
  | true =>
    rw [firDest_active buf active, List.mem_append, not_or] at outside
    obtain ⟨samples, block⟩ := outside
    have away := outside_byteRange block
    rw [firRun_active buf active, peek_write_other (by omega)]
    exact firLoop_frame (firCheck_off active passes) (outside_sampleBytes samples) (by omega)

/-! ## What a command may change before it completes (R94) -/

/-- An effect of a command that keeps to what the command may write: its destination bytes, the LFSR for MIX, gain
entries for COMP and GAININIT. -/
structure Confined (i : Instr) (s e : State) : Prop where
  registers : s.sameRegisters e
  cmdPtr : e.cmdPtr = s.cmdPtr
  memory : s.mem.sameOutside (destBytes i s.mem) e.mem
  lfsr : i.opcode ≠ .mix → e.lfsr = s.lfsr
  gains : i.opcode ≠ .comp → i.opcode ≠ .gaininit → e.gains = s.gains

/-- An effect that replaces only memory, LFSR and gain entries has no other register to answer for. -/
theorem Confined.of_replaced {i : Instr} {s : State} {m : Memory} {l : Word} {g : Gains} (raced : m.raced = s.mem.raced)
    (memory : s.mem.sameOutside (destBytes i s.mem) m) (lfsr : i.opcode ≠ .mix → l = s.lfsr)
    (gains : i.opcode ≠ .comp → i.opcode ≠ .gaininit → g = s.gains) :
    Confined i s { s with mem := m, lfsr := l, gains := g } where
  registers := { sameRegisters_refl s with raced := raced }
  cmdPtr := rfl
  memory := memory
  lfsr := lfsr
  gains := gains

/-- The same for an effect that replaces memory alone. -/
theorem Confined.of_memory {i : Instr} {s : State} {m : Memory} (raced : m.raced = s.mem.raced)
    (memory : s.mem.sameOutside (destBytes i s.mem) m) : Confined i s { s with mem := m } :=
  of_replaced raced memory (fun _ => rfl) fun _ _ => rfl

/-- Every command but HALT commits, under its checks, an effect that is confined where they pass. FIR needs them for
that: an OFF beyond its block would take its writes elsewhere. -/
theorem exec_commits_confined {i : Instr} (checked : i ≠ .halt) {s : State} (passes : commandCheck i s = none) :
    ∃ e, exec i s = .next (s.commit (commandCheck i s) e) ∧ Confined i s e := by
  cases i with
  | halt => exact absurd rfl checked
  | importWire =>
    exact ⟨_, rfl, .of_memory (importLoop_raced ..) fun _ outside =>
      importLoop_frame (Nat.mul_comm .. ▸ outside_byteRange outside)⟩
  | exportWire =>
    exact ⟨_, rfl, .of_memory (exportLoop_raced ..) fun _ outside => exportLoop_frame (outside_byteRange outside)⟩
  | silence =>
    exact ⟨_, rfl, .of_memory (silenceLoop_raced ..) fun _ outside => silenceLoop_frame (outside_byteRange outside)⟩
  | maxv =>
    exact ⟨_, rfl, .of_memory (writeCanon_raced ..) fun _ outside => peek_writeCanon_other (outside_byteRange outside)⟩
  | mix =>
    exact ⟨_, rfl, .of_replaced (mixLoop_raced ..) (fun _ outside => mixLoop_frame (outside_sampleBytes outside))
      (fun other => absurd rfl other) fun _ _ => rfl⟩
  | comp =>
    exact ⟨_, rfl, .of_replaced (compLoop_raced ..) (fun _ outside => compLoop_frame (outside_byteRange outside))
      (fun _ => rfl) fun other => absurd rfl other⟩
  | gaininit bank =>
    have check : commandCheck (.gaininit bank) s = fieldFault (.gaininit bank) := Option.or_none
    rw [check]
    exact ⟨_, rfl, .of_replaced rfl (fun _ _ => rfl) (fun _ => rfl) fun _ other => absurd rfl other⟩
  | fir count buf st =>
    obtain ⟨-, memoryPasses⟩ := Option.or_eq_none_iff.mp passes
    exact ⟨_, rfl, .of_memory (firRun_raced ..) (firRun_sameOutside memoryPasses)⟩

/-- Settles O13: the effect is confined, and completing it moves CMD_PTR and nothing else that the statement names. -/
theorem everyCheckedCommandCompletes : Obligations.EveryCheckedCommandCompletes := by
  intro i s checked passes
  obtain ⟨e, commits, confined⟩ := exec_commits_confined checked passes
  rw [passes, commit_none] at commits
  exact ⟨e.advance, commits, completedTo_advance confined.registers confined.cmdPtr, confined.memory, confined.lfsr,
    confined.gains⟩

/-! ## Taking a fault (R96) -/

/-- Settles O11: a fault writes its five fields, and the end of the run it makes keeps every byte that no host raced
for. -/
theorem faultEndsTheRun : Obligations.FaultEndsTheRun := fun s f =>
  ⟨takeFault_busy s f, takeFault_fault s f, takeFault_stopPending s f, takeFault_faultCause s f,
    takeFault_faultInfo s f, takeFault_cmdPtr s f, takeFault_lfsr s f, takeFault_gains s f, takeFault_irqEn s f,
    takeFault_gainIdx s f, takeFault_done s f, takeFault_stopped s f, takeFault_config s f,
    fun quiet a => endRun_peek a quiet⟩

/-! ## The strobes of a CTRL write without RESET (R25) -/

/-- While idle START begins a run, which a STOP of the same write asks to stop. -/
theorem writeRegister_ctrl_start {s : State} {v : Word} (noReset : v.getLsbD 2 = false) (start : v.getLsbD 0 = true)
    (idle : s.busy = false) :
    s.writeRegister 0x04 v = { s.startRun with stopPending := s.stopPending || v.getLsbD 1 } := by
  change s.writeCtrl v = _
  have started : (if v.getLsbD 0 && !s.busy then s.startRun else s) = s.startRun := by rw [start, idle]; rfl
  rw [State.writeCtrl, noReset, started]
  cases v.getLsbD 1 with
  | false => rw [Bool.or_false]; rfl
  | true => rw [Bool.or_true]; rfl

/-- During a run only STOP is looked at, whatever START is. -/
theorem writeRegister_ctrl_busy {s : State} {v : Word} (noReset : v.getLsbD 2 = false) (busy : s.busy = true) :
    s.writeRegister 0x04 v = if v.getLsbD 1 then { s with stopPending := true } else s := by
  change s.writeCtrl v = _
  simp only [State.writeCtrl, noReset, busy, Bool.not_true, Bool.and_false, Bool.and_true, Bool.false_eq_true, if_false]

/-- Settles O49: the write while idle is `startRun` with the write's STOP, and while busy it is STOP alone. -/
theorem startBeginsARun : Obligations.StartBeginsARun := by
  intro s v noReset start
  refine ⟨fun idle => ?_, writeRegister_ctrl_busy noReset⟩
  rw [writeRegister_ctrl_start noReset start idle]
  exact ⟨startRun_busy s, startRun_done s, startRun_fault s, startRun_stopped s, startRun_faultCause s,
    startRun_faultInfo s, rfl, startRun_cmdPtr s, startRun_lfsr s, startRun_gains s, startRun_mem s, startRun_irqEn s,
    startRun_gainIdx s⟩

end Sys2Proof.Proofs
end

section
/-! SUPPORT. MIX with legal fields and spans (R145): what the mixing term is and what one frame does to the generator and
the memory, and the statement about the frames in order. -/

namespace Sys2Proof.Proofs

open Sys2Proof.Machine Sys2Proof.Laws

/-! ## The wrap of a sum (R11) -/

theorem wrap64_eq_bmod (v : Int) : wrap64 v = v.bmod (2 ^ 64) := BitVec.toInt_ofInt v

section Mix

variable {flags : MixFlags} {shift : Byte} {count : Word} {src dst : Stream} {volume : Word}

/-! ## The mixing term (R144) -/

theorem mixTerm_lfsr (flags : MixFlags) (shift volume x : Int) (g : Word) :
    (mixTerm flags shift volume x g).2 = if flags.dither = true ∧ flags.mute = false then lfsrStep g else g := by
  cases mute : flags.mute <;> simp [mixTerm, mute]

/-- The dither is the value of the generator after its step, and INVERT negates signal and dither together. -/
theorem mixTerm_value {flags : MixFlags} {g after : Word}
    (stepped : after = if flags.dither = true ∧ flags.mute = false then lfsrStep g else g) (shift volume x : Int) :
    (mixTerm flags shift volume x g).1 =
      if flags.mute then 0 else
        (if flags.invert then -1 else 1) *
          (shl (x * volume) shift + if flags.dither then shl (ditherValue after * volume) shift else 0) := by
  subst stepped
  cases mute : flags.mute with
  | true => simp [mixTerm, mute]
  | false => cases invert : flags.invert <;> cases dither : flags.dither <;> simp [mixTerm, mute, invert, dither]

/-! ## One frame (R145) -/

/-- A frame reads its two samples under keys of their own, which without a racing host do not matter (R59). -/
theorem readCanon_key {m : Memory} (quiet : m.raced = []) (key key' a : Nat) : m.readCanon key a = m.readCanon key' a :=
  readCanon_congr quiet quiet fun _ _ _ => rfl

theorem mixStep_lfsr (flags : MixFlags) (shift : Byte) (src dst : Stream) (volume : Word) (i : Nat)
    (p : Memory × Word) :
    (mixStep flags shift src dst volume i p).2 =
      if flags.dither = true ∧ flags.mute = false then lfsrStep p.2 else p.2 := mixTerm_lfsr ..

theorem mixStep_sameOutside (i : Nat) (p : Memory × Word) :
    p.1.sameOutside (byteRange (Stream.sampleAddr dst i) 8) (mixStep flags shift src dst volume i p).1 :=
  fun _ outside => peek_writeCanon_other (outside_byteRange outside)

theorem mixStep_readCanon {i : Nat} {p : Memory × Word} (quiet : p.1.raced = []) :
    (mixStep flags shift src dst volume i p).1.readCanon 0 (Stream.sampleAddr dst i) =
      ((if flags.assign then 0 else p.1.readCanon 0 (Stream.sampleAddr dst i)) +
        (mixTerm flags (shiftOf shift) (volumeOf volume) (p.1.readCanon 0 (Stream.sampleAddr src i)) p.2).1).bmod
          (2 ^ 64) := by
  simp only [mixStep, readCanon_writeCanon_same _ _ _ quiet, readCanon_key quiet (2 * i + 1) 0,
    readCanon_key quiet (2 * i + 2) 0]
  rw [wrap64_eq_bmod, wrap64_eq_bmod, Int.bmod_bmod]

/-! ## The checks and the effect (R100, R145) -/

theorem mixCheck_passes {c : Config} (srcAligned : src.base.toNat % 8 = 0) (dstAligned : dst.base.toNat % 8 = 0)
    (srcInRange : src.base.toNat + Stream.spanBytes src count ≤ c.memSize)
    (dstInRange : dst.base.toNat + Stream.spanBytes dst count ≤ c.memSize) : mixCheck c count src dst = none := by
  simp [mixCheck, (checkAlign8_none _).mpr srcAligned, (checkAlign8_none _).mpr dstAligned,
    (checkRange_none ..).mpr srcInRange, (checkRange_none ..).mpr dstInRange]

theorem mix_wf (srcLegal : src.wf = true) (dstLegal : dst.wf = true) (shiftLegal : shiftWf shift = true) :
    (Instr.mix flags shift count src dst volume).wf = true := by
  rw [Instr.wf, srcLegal, dstLegal, shiftLegal]
  rfl

/-- Memory and generator after `n` frames from `s`. -/
def mixFrames (flags : MixFlags) (shift : Byte) (src dst : Stream) (volume : Word) (s : State) (n : Nat) :
    Memory × Word :=
  loop n (mixStep flags shift src dst volume) (s.mem, s.lfsr)

theorem mixFrames_quiet {s : State} (quiet : s.quiet) (n : Nat) :
    (mixFrames flags shift src dst volume s n).1.raced = [] := (mixLoop_raced ..).trans quiet

theorem exec_mix {s : State} (passes : commandCheck (.mix flags shift count src dst volume) s = none) :
    exec (.mix flags shift count src dst volume) s =
      .next { s with
        mem := (mixFrames flags shift src dst volume s count.toNat).1
        lfsr := (mixFrames flags shift src dst volume s count.toNat).2 }.advance := by
  change Host.Outcome.next (s.commit (commandCheck (.mix flags shift count src dst volume) s) _) = _
  rw [passes, commit_none]
  rfl

end Mix

/-- Settles O28: M and L are the memory and the generator of `mixFrames`, each frame of which is one `mixStep`: its
generator step, then its term from the stepped generator, then the word it writes. -/
theorem mixRunsInFrameOrder : Obligations.MixRunsInFrameOrder := by
  intro flags shift count src dst volume s srcLegal dstLegal shiftLegal quiet srcAligned dstAligned srcInRange dstInRange
    shifted
  have passes : commandCheck (.mix flags shift count src dst volume) s = none :=
    Option.or_eq_none_iff.mpr ⟨(fieldFault_none_iff_wf _).mpr (mix_wf srcLegal dstLegal shiftLegal),
      mixCheck_passes srcAligned dstAligned srcInRange dstInRange⟩
  let frames := mixFrames flags shift src dst volume s
  refine ⟨_, exec_mix passes, completedTo_advance { sameRegisters_refl s with raced := mixLoop_raced .. } rfl, rfl,
    fun i => (frames i).1, fun i => (frames i).2, rfl, rfl, fun a => tick_peek _ a, rfl, fun i _ => ?_⟩
  have generator := mixStep_lfsr flags shift src dst volume i (frames i)
  have term := mixTerm_value generator (shiftOf shift) (volumeOf volume)
    ((frames i).1.readCanon 0 (Stream.sampleAddr src i))
  exact ⟨generator, ⟨_, term, mixStep_readCanon (mixFrames_quiet quiet i)⟩, mixStep_sameOutside i (frames i)⟩

end Sys2Proof.Proofs
end

section
/-! SUPPORT. COMP sample by sample (R160, R164): the loop over frames and channels as one loop over the samples, what one
sample does to memory and gain banks, and the statement about the samples in order. -/

namespace Sys2Proof.Proofs

open Sys2Proof.Machine Sys2Proof.Laws

/-! ## Loops within loops (R14) -/

/-- Loops whose iterations agree. -/
theorem loop_congr {α : Type} {n : Nat} {f g : Nat → α → α} {x : α} (agree : ∀ i < n, f i = g i) :
    loop n f x = loop n g x := by
  induction n with
  | zero => rfl
  | succ k ih => rw [loop_succ, loop_succ, ih fun i below => agree i (below.trans k.lt_succ_self), agree k k.lt_succ_self]

/-- A loop of `k` iterations within one of `n` is a single loop, whose index counts the inner iterations. -/
theorem loop_nested {α : Type} {k : Nat} (n : Nat) (f : Nat → Nat → α → α) (x : α) :
    loop n (fun i => loop k (f i)) x = loop (n * k) (fun j => f (j / k) (j % k)) x := by
  induction n with
  | zero => rw [Nat.zero_mul, loop_zero, loop_zero]
  | succ n ih =>
    rw [loop_succ, ih, Nat.succ_mul, loop_add]
    refine loop_congr fun c below => ?_
    have frame : (n * k + c) / k = n := by
      rw [Nat.mul_comm, Nat.mul_add_div (Nat.zero_lt_of_lt below), Nat.div_eq_of_lt below, Nat.add_zero]
    have channel : (n * k + c) % k = c := Nat.mul_add_mod_of_lt below
    rw [frame, channel]

/-! ## One sample's arithmetic (R158, R159) -/

theorem absInt_eq_abs (v : Int) : absInt v = |v| := by
  unfold absInt
  split
  · next nonneg => exact (abs_of_nonneg nonneg).symm
  · next negative => exact (abs_of_neg (not_le.mp negative)).symm

theorem attackGain_eq (t : Int) (k : Nat) (g a : Int) :
    attackGain t k g a = if t < |a| then g - (g - min g (t * 2 ^ 31 / |a|)) / 2 ^ k else g := by
  rw [← absInt_eq_abs]
  rfl

theorem legal_toNat {g : Word} (legal : g ≤ unityGain) : (g.toNat : Int) ≤ unityInt := by
  rw [← unityGain_toNat]
  exact_mod_cast BitVec.le_def.mp legal

/-- From a legal gain, the gain that multiplies the sample is legal. -/
theorem attackGain_legal {t : Int} {g : Word} (k : Nat) (a : Int) (threshold : 0 ≤ t) (legal : g ≤ unityGain) :
    0 ≤ attackGain t k g.toNat a ∧ attackGain t k g.toNat a ≤ unityInt := by
  obtain ⟨nonneg, noLarger⟩ := attackGain_range (a := a) k threshold (Int.natCast_nonneg g.toNat)
  exact ⟨nonneg, noLarger.trans (legal_toNat legal)⟩

/-- A gain of at most unity keeps a sample's product in the range of a canonical sample, so writing it loses nothing. -/
theorem wrap64_product {a g : Int} (low : -2 ^ 63 ≤ a) (high : a < 2 ^ 63) (nonneg : 0 ≤ g) (legal : g ≤ unityInt) :
    wrap64 (floorDiv (a * g) unityInt) = a * g / 2 ^ 31 := by
  have unity : unityInt = 2 ^ 31 := rfl
  rw [unity] at legal
  rw [unity, floorDiv_def]
  refine wrap64_of_range ?low ?high
  case low =>
    rw [Int.le_ediv_iff_mul_le (by norm_num)]
    nlinarith
  case high =>
    rw [Int.ediv_lt_iff_lt_mul (by norm_num)]
    nlinarith

/-- A legal gain is stored as it is. -/
theorem ofInt_gain_toNat {r : Int} (nonneg : 0 ≤ r) (legal : r ≤ unityInt) : ((BitVec.ofInt 32 r).toNat : Int) = r := by
  have unity : unityInt = 2147483648 := rfl
  rw [BitVec.toNat_ofInt]
  omega

section Comp

variable {t : Int} {fmt : Byte} {count buf : Word} {nch : Byte} {par : CompParams}

/-! ## One sample (R160) -/

/-- Sample `j` in memory order: channel `j mod NCH` of frame `j / NCH`. -/
def compSampleStep (t : Int) (buf : Word) (nch : Byte) (par : CompParams) (j : Nat) (p : Memory × Gains) :
    Memory × Gains :=
  compStep t buf nch par (j / nch.toNat) (j % nch.toNat) p

/-- The frames of a COMP are its samples in memory order. -/
theorem compFrames_eq_samples (n : Nat) (p : Memory × Gains) :
    loop n (compFrame t buf nch par) p = loop (n * nch.toNat) (compSampleStep t buf nch par) p :=
  loop_nested n (compStep t buf nch par) p

/-- The gain that multiplies sample `j`: the entry of its channel after the attack move. -/
def movedGain (t : Int) (buf : Word) (nch : Byte) (par : CompParams) (j : Nat) (p : Memory × Gains) : Int :=
  attackGain t par.attack.toNat (gainGet p.2 par.bank.toNat (j % nch.toNat)).toNat
    (p.1.readCanon 0 (buf.toNat + 8 * j))

theorem movedGain_legal (threshold : 0 ≤ t) {p : Memory × Gains} (legal : gainsLegal p.2) (j : Nat) :
    0 ≤ movedGain t buf nch par j p ∧ movedGain t buf nch par j p ≤ unityInt :=
  attackGain_legal _ _ threshold (legal _ _)

theorem compSampleStep_eq {j : Nat} {p : Memory × Gains} (quiet : p.1.raced = []) :
    compSampleStep t buf nch par j p =
      (p.1.writeCanon (buf.toNat + 8 * j)
        (floorDiv (p.1.readCanon 0 (buf.toNat + 8 * j) * movedGain t buf nch par j p) unityInt),
       gainSet p.2 par.bank.toNat (j % nch.toNat)
        (BitVec.ofInt 32 (relaxGain par.decay.toNat (movedGain t buf nch par j p)))) := by
  simp only [compSampleStep, compStep, compSample, movedGain, Nat.div_add_mod', readCanon_key quiet (j + 1) 0]

theorem compSampleStep_raced (j : Nat) (p : Memory × Gains) :
    (compSampleStep t buf nch par j p).1.raced = p.1.raced := writeCanon_raced ..

theorem compSampleStep_legal (threshold : 0 ≤ t) (j : Nat) {p : Memory × Gains} (legal : gainsLegal p.2) :
    gainsLegal (compSampleStep t buf nch par j p).2 :=
  gainSet_legal legal (compSample_gain_legal threshold (legal _ _))

theorem compSampleStep_sameOutside {j : Nat} {p : Memory × Gains} (quiet : p.1.raced = []) :
    p.1.sameOutside (byteRange (buf.toNat + 8 * j) 8) (compSampleStep t buf nch par j p).1 := fun _ outside => by
  rw [compSampleStep_eq quiet]
  exact peek_writeCanon_other (outside_byteRange outside)

theorem compSampleStep_gain_other {j b c : Nat} (p : Memory × Gains)
    (other : b ≠ par.bank.toNat ∨ c ≠ j % nch.toNat) :
    gainGet (compSampleStep t buf nch par j p).2 b c = gainGet p.2 b c := gainGet_gainSet_other _ other

/-- The word written is the sample times the moved gain, floored: the product has the range of a canonical sample. -/
theorem compSampleStep_readCanon {j : Nat} {p : Memory × Gains} (threshold : 0 ≤ t) (quiet : p.1.raced = [])
    (legal : gainsLegal p.2) :
    (compSampleStep t buf nch par j p).1.readCanon 0 (buf.toNat + 8 * j) =
      p.1.readCanon 0 (buf.toNat + 8 * j) * movedGain t buf nch par j p / 2 ^ 31 := by
  obtain ⟨low, high⟩ := readCanon_range p.1 0 (buf.toNat + 8 * j)
  obtain ⟨nonneg, atMostUnity⟩ := movedGain_legal threshold legal j
  rw [compSampleStep_eq quiet, readCanon_writeCanon_same _ _ _ quiet]
  exact wrap64_product low high nonneg atMostUnity

/-- The entry of the sample's channel takes the moved gain relaxed toward unity. -/
theorem compSampleStep_gain {j : Nat} {p : Memory × Gains} (threshold : 0 ≤ t) (quiet : p.1.raced = [])
    (legal : gainsLegal p.2) (bank : par.bank.toNat < 16) (channel : j % nch.toNat < 64) :
    ((gainGet (compSampleStep t buf nch par j p).2 par.bank.toNat (j % nch.toNat)).toNat : Int) =
      relaxGain par.decay.toNat (movedGain t buf nch par j p) := by
  obtain ⟨nonneg, atMostUnity⟩ := movedGain_legal threshold legal j
  obtain ⟨relaxedNonneg, relaxedLegal⟩ := relaxGain_range par.decay.toNat nonneg atMostUnity
  rw [compSampleStep_eq quiet, gainGet_gainSet_same _ bank channel]
  exact ofInt_gain_toNat relaxedNonneg relaxedLegal

/-! ## The samples before sample n (R164) -/

/-- Memory and gain banks after `n` samples from `s`. -/
def compSamples (t : Int) (buf : Word) (nch : Byte) (par : CompParams) (s : State) (n : Nat) : Memory × Gains :=
  loop n (compSampleStep t buf nch par) (s.mem, s.gains)

theorem compSamples_raced (s : State) (n : Nat) : (compSamples t buf nch par s n).1.raced = s.mem.raced :=
  loop_fixed (fun p : Memory × Gains => p.1.raced) fun j p _ => compSampleStep_raced j p

theorem compSamples_legal {s : State} (threshold : 0 ≤ t) (legal : gainsLegal s.gains) (n : Nat) :
    gainsLegal (compSamples t buf nch par s n).2 :=
  loop_induction (fun _ (p : Memory × Gains) => gainsLegal p.2) legal fun j _ _ => compSampleStep_legal threshold j

/-! ## The checks and the effect (R100, R160) -/

theorem compCheck_passes {c : Config} (en : Bool) (aligned : buf.toNat % 8 = 0)
    (inRange : buf.toNat + 8 * count.toNat * nch.toNat ≤ c.memSize) : compCheck c en count buf nch = none := by
  simp only [compCheck, (checkAlign8_none _).mpr aligned, (checkRange_none ..).mpr inRange, Option.or_none, ite_self]

theorem comp_wf {en : Bool} (fmtLegal : fmtWf fmt = true) (nchLegal : nchWf nch = true) (parLegal : par.wf = true) :
    (Instr.comp fmt en count buf nch par).wf = true := by
  rw [Instr.wf, fmtLegal, nchLegal, parLegal]
  rfl

theorem exec_comp_enabled {s : State} (passes : commandCheck (.comp fmt true count buf nch par) s = none) :
    exec (.comp fmt true count buf nch par) s =
      .next { s with
        mem := (compSamples (kneeThreshold fmt par.knee) buf nch par s (count.toNat * nch.toNat)).1
        gains := (compSamples (kneeThreshold fmt par.knee) buf nch par s (count.toNat * nch.toNat)).2 }.advance := by
  rw [compSamples, ← compFrames_eq_samples]
  change Host.Outcome.next (s.commit (commandCheck (.comp fmt true count buf nch par) s) _) = _
  rw [passes, commit_none]
  rfl

/-- BANK and a channel of a legal COMP name an entry of the banks. -/
theorem comp_entry_bounds (nchLegal : nchWf nch = true) (parLegal : par.wf = true) (j : Nat) :
    par.bank.toNat < 16 ∧ j % nch.toNat < 64 := by
  simp only [nchWf, CompParams.wf, Bool.and_eq_true, decide_eq_true_eq] at nchLegal parLegal
  obtain ⟨positive, atMost⟩ := nchLegal
  obtain ⟨-, bank⟩ := parLegal
  have channel := Nat.mod_lt j positive
  omega

end Comp

/-- Settles O32: M and G are the memory and the gain banks of `compSamples`, each sample of which is one
`compSampleStep` from a quiet memory and legal gains. -/
theorem compRunsInSampleOrder : Obligations.CompRunsInSampleOrder := by
  intro fmt count buf nch par s fmtLegal nchLegal parLegal quiet gainsAreLegal aligned inRange
  have passes : commandCheck (.comp fmt true count buf nch par) s = none :=
    Option.or_eq_none_iff.mpr ⟨(fieldFault_none_iff_wf _).mpr (comp_wf fmtLegal nchLegal parLegal),
      compCheck_passes true aligned inRange⟩
  have threshold := kneeThreshold_nonneg fmt par.knee
  let samples := compSamples (kneeThreshold fmt par.knee) buf nch par s
  refine ⟨_, exec_comp_enabled passes,
    completedTo_advance { sameRegisters_refl s with raced := compSamples_raced s _ } rfl, rfl,
    fun j => (samples j).1, fun j => (samples j).2, rfl, rfl, fun a => tick_peek _ a, rfl, fun j _ => ?_⟩
  have quietBefore : (samples j).1.raced = [] := (compSamples_raced s j).trans quiet
  have legalBefore : gainsLegal (samples j).2 := compSamples_legal threshold gainsAreLegal j
  obtain ⟨bank, channel⟩ := comp_entry_bounds nchLegal parLegal j
  exact ⟨⟨kneeThreshold fmt par.knee, _, _, _, _, _, rfl, rfl, rfl, rfl, attackGain_eq .., rfl,
      compSampleStep_readCanon threshold quietBefore legalBefore,
      compSampleStep_gain threshold quietBefore legalBefore bank channel⟩,
    fun _ _ => compSampleStep_gain_other (samples j), compSampleStep_sameOutside quietBefore⟩

end Sys2Proof.Proofs
end

section
/-! SUPPORT. FIR's bypasses (R177) and the block convolution (R181, R182): what a loop of word writes leaves, what the
completed block leaves in OUT, what the frames up to it leave in IN, and the statements about both. -/

namespace Sys2Proof.Proofs

open Sys2Proof.Machine Sys2Proof.Laws

/-! ## Words written one after the other (R12, R14) -/

/-- The memory after `n` words are written, word `j` at `addr j`; its value may depend on the memory that it finds. -/
def writeWords (addr : Nat → Nat) (value : Nat → Memory → Int) (n : Nat) (m : Memory) : Memory :=
  loop n (fun j m' => m'.writeCanon (addr j) (value j m')) m

section Words

variable {addr : Nat → Nat} {value : Nat → Memory → Int} {n : Nat} {m : Memory}

theorem writeWords_succ (addr : Nat → Nat) (value : Nat → Memory → Int) (n : Nat) (m : Memory) :
    writeWords addr value (n + 1) m =
      (writeWords addr value n m).writeCanon (addr n) (value n (writeWords addr value n m)) := rfl

@[simp] theorem writeWords_raced (addr : Nat → Nat) (value : Nat → Memory → Int) (n : Nat) (m : Memory) :
    (writeWords addr value n m).raced = m.raced :=
  loop_fixed Memory.raced fun _ _ _ => writeCanon_raced ..

theorem writeWords_frame {x : Nat} (outside : ∀ j < n, x < addr j ∨ addr j + 8 ≤ x) :
    (writeWords addr value n m).peek x = m.peek x :=
  loop_fixed (fun m : Memory => m.peek x) fun j _ written => peek_writeCanon_other (outside j written)

/-- A word that the writes do not touch reads as before, under whatever key (R59). -/
theorem writeWords_readCanon_other {a : Nat} (key : Nat) (quiet : m.raced = [])
    (outside : ∀ j < n, a + 8 ≤ addr j ∨ addr j + 8 ≤ a) :
    (writeWords addr value n m).readCanon key a = m.readCanon 0 a :=
  readCanon_congr quiet ((writeWords_raced ..).trans quiet) fun x low high =>
    writeWords_frame fun j written => by have := outside j written; omega

/-- Words at rising addresses: each reads as it was written, for no later one covers it. -/
theorem writeWords_readCanon {j : Nat} (quiet : m.raced = []) (rising : ∀ i k, i < k → addr i + 8 ≤ addr k)
    (written : j < n) :
    (writeWords addr value n m).readCanon 0 (addr j) = wrap64 (value j (writeWords addr value j m)) := by
  induction n with
  | zero => exact absurd written j.not_lt_zero
  | succ k ih =>
    have quietBefore : (writeWords addr value k m).raced = [] := (writeWords_raced ..).trans quiet
    rw [writeWords_succ]
    obtain earlier | rfl := Nat.lt_succ_iff_lt_or_eq.mp written
    · rw [← ih earlier]
      have below := rising j k earlier
      exact readCanon_congr quietBefore ((writeCanon_raced ..).trans quietBefore) fun _ _ _ =>
        peek_writeCanon_other (by omega)
    · exact readCanon_writeCanon_same _ _ _ quietBefore

end Words

/-! ## The exact convolution (R181) -/

theorem sumTo_eq_sum (n : Nat) (f : Nat → Int) : sumTo n f = ∑ m ∈ Finset.range n, f m := by
  induction n with
  | zero => rfl
  | succ k ih => rw [sumTo_succ, ih, Finset.sum_range_succ]

/-- Of the products of one coefficient, only that with IN[j − m] falls on index j, where IN has that sample. -/
theorem sum_products_eq (n m j : Nat) (h x : Nat → Int) :
    (∑ i ∈ Finset.range n, if m + i = j then h m * x i else 0) =
      if m ≤ j ∧ j - m < n then h m * x (j - m) else 0 := by
  by_cases below : m ≤ j
  · have index : ∀ i, m + i = j ↔ j - m = i := fun i => by omega
    simp only [index, Finset.sum_ite_eq, Finset.mem_range, below, true_and]
  · rw [if_neg fun both => below both.1]
    exact Finset.sum_eq_zero fun i _ => if_neg (by omega)

/-- The convolution looks at the `n` coefficients and the `n` samples and at nothing else. -/
theorem convOut_eq_sum {n : Nat} {h h' x x' : Nat → Int} (coeffs : ∀ m < n, h' m = h m) (samples : ∀ i < n, x' i = x i)
    (j : Nat) :
    convOut n h' x' j = (∑ m ∈ Finset.range n, ∑ i ∈ Finset.range n, if m + i = j then h m * x i else 0) / 2 ^ 30 := by
  have exactSum : convSum n h' x' j =
      ∑ m ∈ Finset.range n, ∑ i ∈ Finset.range n, if m + i = j then h m * x i else 0 := by
    rw [convSum, sumTo_eq_sum]
    refine Finset.sum_congr rfl fun m inKernel => ?_
    rw [sum_products_eq, coeffs m (Finset.mem_range.mp inKernel)]
    split
    · next inBlock => rw [samples _ inBlock.2]
    · rfl
  rw [convOut, floorDiv_def, exactSum]
  rfl

/-- H[m] of a memory that has the kernel of `m₀`, as the signed number R178 reads. -/
theorem readCoeff_eq_bmod {m m₀ : Memory} {st n i : Nat} (key : Nat) (quiet : m.raced = []) (quiet₀ : m₀.raced = [])
    (kernel : ∀ x, firCoeff st n i ≤ x → x < firCoeff st n i + 4 → m.peek x = m₀.peek x) :
    readCoeff m key st n i = (m₀.read 0 (firCoeff st n i) 4 : Int).bmod (2 ^ 32) := by
  rw [readCoeff, sext, BitVec.toInt_ofNat', read_congr quiet₀ quiet kernel]

/-! ## The completed block (R182) -/

section Block

variable {key st n j : Nat} {m : Memory}

theorem firOut_rising {st n i k : Nat} (earlier : i < k) : firOut st n i + 8 ≤ firOut st n k := by
  unfold firOut
  omega

/-- The lower half of OUT, then the upper half. -/
theorem firBlock_eq_writeWords (key st n : Nat) (m : Memory) :
    firBlock key st n m =
      writeWords (fun j => firOut st n (n + j))
        (fun j _ => wrap64 (convOut n (readCoeff m key st n) (readIn m key st) (n + j))) n
        (writeWords (firOut st n)
          (fun j m' => wrap64 (readOut m' key st n (n + j) + convOut n (readCoeff m key st n) (readIn m key st) j))
          n m) := rfl

theorem firBlock_readOut_low (quiet : m.raced = []) (inBlock : j < n) :
    (firBlock key st n m).readCanon 0 (firOut st n j) =
      (m.readCanon 0 (firOut st n (n + j)) + convOut n (readCoeff m key st n) (readIn m key st) j).bmod (2 ^ 64) := by
  have kept : ∀ i < n, firOut st n j + 8 ≤ firOut st n (n + i) := fun i _ => firOut_rising (by omega)
  have unread : ∀ i < j, firOut st n i + 8 ≤ firOut st n (n + j) := fun i _ => firOut_rising (by omega)
  rw [firBlock_eq_writeWords,
    writeWords_readCanon_other 0 ((writeWords_raced ..).trans quiet) fun i below => .inl (kept i below),
    writeWords_readCanon quiet (fun _ _ => firOut_rising) inBlock, readOut,
    writeWords_readCanon_other key quiet fun i below => .inr (unread i below), wrap64_eq_bmod, wrap64_eq_bmod,
    Int.bmod_bmod]

theorem firBlock_readOut_high (quiet : m.raced = []) (inBlock : j < n) :
    (firBlock key st n m).readCanon 0 (firOut st n (n + j)) =
      (convOut n (readCoeff m key st n) (readIn m key st) (n + j)).bmod (2 ^ 64) := by
  rw [firBlock_eq_writeWords]
  refine (writeWords_readCanon (addr := fun j => firOut st n (n + j)) ((writeWords_raced ..).trans quiet)
    (fun _ _ earlier => firOut_rising (by omega)) inBlock).trans ?_
  rw [wrap64_eq_bmod, wrap64_eq_bmod, Int.bmod_bmod]

end Block

/-! ## One frame (R182, R183) -/

section Frame

variable {buf : Stream} {st n i : Nat} {p : Memory × Nat}

/-- The memory once frame `i` has put its sample into IN[OFF]. -/
def firReceive (buf : Stream) (st i : Nat) (m : Memory) (off : Nat) : Memory :=
  m.writeCanon (firIn st off) (m.readCanon (i + 2) (Stream.sampleAddr buf i))

theorem firStep_within (within : p.2 + 1 ≠ n) :
    firStep buf st n i p =
      ((firReceive buf st i p.1 p.2).writeCanon (Stream.sampleAddr buf i)
        (readOut (firReceive buf st i p.1 p.2) (i + 2) st n p.2),
        p.2 + 1) := by
  simp only [firStep, firSample, if_neg within, firReceive]

theorem firStep_completing (completes : p.2 + 1 = n) :
    firStep buf st n i p =
      ((firBlock (i + 2) st n (firReceive buf st i p.1 p.2)).writeCanon (Stream.sampleAddr buf i)
        (readOut (firReceive buf st i p.1 p.2) (i + 2) st n p.2), 0) := by
  simp only [firStep, firSample, if_pos completes, firReceive]

end Frame

/-! ## The checks and the effect (R179, R183) -/

theorem exec_fir {count st : Word} {buf : Stream} {s : State} (legal : buf.wf = true)
    (passes : firCheck s.config s.mem count buf st = none) :
    exec (.fir count buf st) s = .next { s with mem := firRun s.mem count buf st }.advance := by
  have fields : fieldFault (.fir count buf st) = none := (fieldFault_none_iff_wf _).mpr legal
  change Host.Outcome.next (s.commit ((fieldFault (.fir count buf st)).or (firCheck s.config s.mem count buf st)) _) = _
  rw [fields, passes, Option.none_or, commit_none]

theorem completedTo_fir (count st : Word) (buf : Stream) (s : State) :
    s.completedTo { s with mem := firRun s.mem count buf st }.advance :=
  completedTo_advance { sameRegisters_refl s with raced := firRun_raced .. } rfl

theorem firCheck_null (c : Config) (m : Memory) (count : Word) (buf : Stream) : firCheck c m count buf 0 = none := by
  rw [firCheck, if_pos (rfl : (0 : Word) = 0), ite_self]

theorem firActive_null (m : Memory) (count : Word) : firActive m count 0 = false := by
  rw [firActive, bne_self_eq_false, Bool.and_false, Bool.false_and]

/-- With N = 0 only the header is checked. -/
theorem firCheck_disabled {c : Config} {m : Memory} {count st : Word} (buf : Stream) (aligned : st.toNat % 8 = 0)
    (header : st.toNat + 8 ≤ c.memSize) (disabled : firLen m st.toNat = 0) : firCheck c m count buf st = none := by
  rw [firCheck, (checkAlign8_none st).mpr aligned, (checkRange_none ..).mpr header, firStateCheck, if_pos disabled,
    Option.or_none, Option.or_none, ite_self, ite_self]

theorem firActive_disabled {m : Memory} {st : Word} (count : Word) (disabled : firLen m st.toNat = 0) :
    firActive m count st = false := by
  rw [firActive, disabled, bne_self_eq_false, Bool.and_false]

theorem firActive_iff {m : Memory} {count st : Word} :
    firActive m count st = true ↔ count ≠ 0 ∧ st ≠ 0 ∧ firLen m st.toNat ≠ 0 := by
  simp only [firActive, Bool.and_eq_true, bne_iff_ne, and_assoc]

theorem isPowerOfTwo_two_pow (k : Nat) : isPowerOfTwo (2 ^ k) = true := by
  simp [isPowerOfTwo, Nat.log2_two_pow]

theorem firOverlap_of_apart {buf : Stream} {count st : Word} {n : Nat}
    (apart : st.toNat + firBlockBytes n ≤ buf.base.toNat ∨ buf.base.toNat + Stream.spanBytes buf count ≤ st.toNat) :
    firOverlap buf count st n = false := by
  simp only [firOverlap, Bool.and_eq_false_iff, decide_eq_false_iff_not]
  omega

theorem firCheck_passes {c : Config} {m : Memory} {count st : Word} {buf : Stream} {k : Nat}
    (power : firLen m st.toNat = 2 ^ k) (short : firLen m st.toNat ≤ 65536)
    (offset : firOff m st.toNat < firLen m st.toNat) (aligned : st.toNat % 8 = 0) (bufAligned : buf.base.toNat % 8 = 0)
    (bufInRange : buf.base.toNat + Stream.spanBytes buf count ≤ c.memSize)
    (inRange : st.toNat + firBlockBytes (firLen m st.toNat) ≤ c.memSize)
    (apart : st.toNat + firBlockBytes (firLen m st.toNat) ≤ buf.base.toNat ∨
      buf.base.toNat + Stream.spanBytes buf count ≤ st.toNat) : firCheck c m count buf st = none := by
  have header : st.toNat + 8 ≤ c.memSize := by unfold firBlockBytes at inRange; omega
  have kernel : ¬(isPowerOfTwo (firLen m st.toNat) = false ∨ Config.firMaxLen < firLen m st.toNat) := by
    rw [power, isPowerOfTwo_two_pow, ← power, Config.firMaxLen]
    simp [short]
  have state : firStateCheck c count buf st (firLen m st.toNat) (firOff m st.toNat) = none := by
    rw [firStateCheck, if_neg (by omega), if_neg kernel, if_neg (by omega), (checkAlign8_none _).mpr bufAligned,
      (checkRange_none ..).mpr bufInRange, (checkRange_none ..).mpr inRange, firOverlap_of_apart apart]
    rfl
  rw [firCheck, (checkAlign8_none st).mpr aligned, (checkRange_none ..).mpr header, state, Option.or_none,
    Option.or_none, ite_self, ite_self]

/-- Settles O38: in both cases the checks pass and the filter is not active, so the command only completes. -/
theorem firBypassesChangeNothing : Obligations.FirBypassesChangeNothing := by
  intro count buf st s legal bypass
  obtain ⟨passes, inactive⟩ : firCheck s.config s.mem count buf st = none ∧ firActive s.mem count st = false := by
    obtain rfl | ⟨aligned, header, disabled⟩ := bypass
    · exact ⟨firCheck_null .., firActive_null ..⟩
    · exact ⟨firCheck_disabled buf aligned header disabled, firActive_disabled count disabled⟩
  refine ⟨_, exec_fir legal passes, completedTo_fir count st buf s, rfl, rfl, fun a => ?_⟩
  rw [advance_mem, tick_peek, firRun_inactive buf inactive]

/-! ## The frames of one block (R182, R186) -/

theorem stream_channel {buf : Stream} (legal : buf.wf = true) : buf.ch.toNat < buf.nch.toNat := by
  simp only [Stream.wf, Bool.and_eq_true, decide_eq_true_eq] at legal
  exact legal.2

/-- The words of a stream's frames lie one after the other. -/
theorem sampleAddr_rising {buf : Stream} (legal : buf.wf = true) {i k : Nat} (earlier : i < k) :
    Stream.sampleAddr buf i + 8 ≤ Stream.sampleAddr buf k := by
  have channel := stream_channel legal
  have frames : (i + 1) * buf.nch.toNat ≤ k * buf.nch.toNat := Nat.mul_le_mul_right _ earlier
  rw [Nat.succ_mul] at frames
  unfold Stream.sampleAddr
  omega

/-- The words of a stream's first `c` frames lie outside the state block of length `n` at `st`. -/
def FramesApart (buf : Stream) (st n c : Nat) : Prop :=
  ∀ i < c, Stream.sampleAddr buf i + 8 ≤ st ∨ st + (8 + 28 * n) ≤ Stream.sampleAddr buf i

theorem framesApart_of_spans {buf : Stream} {count st : Word} {n : Nat} (legal : buf.wf = true)
    (apart : st.toNat + (8 + 28 * n) ≤ buf.base.toNat ∨ buf.base.toNat + Stream.spanBytes buf count ≤ st.toNat) :
    FramesApart buf st.toNat n count.toNat := fun i frame => by
  obtain ⟨low, high⟩ := sampleAddr_in_span (stream_channel legal) frame
  omega

theorem FramesApart.mono {buf : Stream} {st n b c : Nat} (apart : FramesApart buf st n c) (fewer : b ≤ c) :
    FramesApart buf st n b := fun i frame => apart i (frame.trans_le fewer)

/-- An address of the state block is in no word of those frames. -/
theorem FramesApart.outside {buf : Stream} {st n c x : Nat} (apart : FramesApart buf st n c) (low : st ≤ x)
    (high : x < st + (8 + 28 * n)) : ∀ i < c, x < Stream.sampleAddr buf i ∨ Stream.sampleAddr buf i + 8 ≤ x :=
  fun i frame => by
    have := apart i frame
    omega

/-- Sample `j` of the current block, of which `off` samples came with earlier commands. -/
def blockSample (m : Memory) (buf : Stream) (st off j : Nat) : Int :=
  if j < off then m.readCanon 0 (firIn st j) else m.readCanon 0 (Stream.sampleAddr buf (j - off))

/-- Memory `m'` within a block that the command found in `m`: `received` of the command's samples stand in IN, and
`emitted` of its frames have been replaced in the stream. -/
structure BlockPart (m : Memory) (buf : Stream) (st n off received emitted : Nat) (m' : Memory) : Prop where
  quiet : m'.raced = []
  input : ∀ j < off + received, m'.readCanon 0 (firIn st j) = blockSample m buf st off j
  frame : ∀ x, x < st + 8 ∨ st + 8 + 8 * n ≤ x →
    (∀ i < emitted, x < Stream.sampleAddr buf i ∨ Stream.sampleAddr buf i + 8 ≤ x) → m'.peek x = m.peek x

section BlockFrames

variable {m m' : Memory} {buf : Stream} {st n off c i : Nat}

theorem blockPart_start (quiet : m.raced = []) (buf : Stream) (st n off : Nat) : BlockPart m buf st n off 0 0 m where
  quiet := quiet
  input _ received := (if_pos received).symm
  frame _ _ _ := rfl

/-- The next sample goes into IN: it is still the one the command found in the stream. -/
theorem BlockPart.receive (part : BlockPart m buf st n off i i m') (quiet : m.raced = [])
    (legal : buf.wf = true) (within : off + i < n)
    (apart : Stream.sampleAddr buf i + 8 ≤ st ∨ st + (8 + 28 * n) ≤ Stream.sampleAddr buf i) :
    BlockPart m buf st n off (i + 1) i (firReceive buf st i m' (off + i)) where
  quiet := (writeCanon_raced ..).trans part.quiet
  input j received := by
    have found : m'.readCanon (i + 2) (Stream.sampleAddr buf i) = m.readCanon 0 (Stream.sampleAddr buf i) :=
      readCanon_congr quiet part.quiet fun x low high => part.frame x (by omega) fun k earlier => by
        have := sampleAddr_rising legal earlier
        omega
    obtain before | rfl : j < off + i ∨ j = off + i := by omega
    · rw [← part.input j before]
      exact readCanon_congr part.quiet ((writeCanon_raced ..).trans part.quiet) fun x low high =>
        peek_writeCanon_other (by unfold firIn at low high ⊢; omega)
    · obtain ⟨low, high⟩ := readCanon_range m 0 (Stream.sampleAddr buf i)
      rw [firReceive, readCanon_writeCanon_same _ _ _ part.quiet, found, wrap64_of_range low high, blockSample,
        if_neg (by omega), Nat.add_sub_cancel_left]
  frame x outside untouched := by
    rw [← part.frame x outside untouched]
    exact peek_writeCanon_other (by unfold firIn; omega)

/-- The word written back lies outside the state block. -/
theorem BlockPart.emit (part : BlockPart m buf st n off (i + 1) i m') (y : Int) (within : off + i < n)
    (apart : Stream.sampleAddr buf i + 8 ≤ st ∨ st + (8 + 28 * n) ≤ Stream.sampleAddr buf i) :
    BlockPart m buf st n off (i + 1) (i + 1) (m'.writeCanon (Stream.sampleAddr buf i) y) where
  quiet := (writeCanon_raced ..).trans part.quiet
  input j received := by
    rw [← part.input j received]
    exact readCanon_congr part.quiet ((writeCanon_raced ..).trans part.quiet) fun x low high =>
      peek_writeCanon_other (by unfold firIn at low high; omega)
  frame x outside untouched := by
    rw [← part.frame x outside fun k earlier => untouched k (by omega)]
    exact peek_writeCanon_other (untouched i i.lt_succ_self)

/-- The frames that do not complete the block: OFF moves on by one with each. -/
theorem firLoop_blockPart (quiet : m.raced = []) (legal : buf.wf = true) (within : off + c < n)
    (apart : FramesApart buf st n c) :
    (loop c (firStep buf st n) (m, off)).2 = off + c ∧
      BlockPart m buf st n off c c (loop c (firStep buf st n) (m, off)).1 := by
  refine loop_induction (fun i (p : Memory × Nat) => p.2 = off + i ∧ BlockPart m buf st n off i i p.1)
    ⟨rfl, blockPart_start quiet buf st n off⟩ ?_
  rintro i ⟨m', o⟩ frame ⟨rfl, part⟩
  rw [firStep_within (by simp only; omega)]
  exact ⟨rfl, (part.receive quiet legal (by omega) (apart i frame)).emit _ (by omega) (apart i frame)⟩

/-! ## The frame that completes the block -/

/-- In the block that all samples have reached, what R181 computes is a sum over the command's operands. -/
theorem BlockPart.convOut_eq (part : BlockPart m buf st n off (c + 1) c m') (key : Nat) (quiet : m.raced = [])
    (complete : off + (c + 1) = n) (apart : FramesApart buf st n c) (j : Nat) :
    convOut n (readCoeff m' key st n) (readIn m' key st) j =
      (∑ k ∈ Finset.range n, ∑ i ∈ Finset.range n,
        if k + i = j then (m.read 0 (firCoeff st n k) 4 : Int).bmod (2 ^ 32) * blockSample m buf st off i else 0) /
          2 ^ 30 := by
  refine convOut_eq_sum (fun k inKernel => ?_) (fun i inBlock => ?_) j
  · refine readCoeff_eq_bmod key part.quiet quiet fun x low high => ?_
    unfold firCoeff at low high
    exact part.frame x (by omega) (apart.outside (by omega) (by omega))
  · exact (readCanon_key part.quiet key 0 _).trans (part.input i (by omega))

/-- The upper half of OUT is still as the command found it. -/
theorem BlockPart.readOut_high (part : BlockPart m buf st n off (c + 1) c m') (quiet : m.raced = []) {j : Nat}
    (inBlock : j < n) (apart : FramesApart buf st n c) :
    m'.readCanon 0 (firOut st n (n + j)) = m.readCanon 0 (firOut st n (n + j)) := by
  refine readCanon_congr quiet part.quiet fun x low high => ?_
  unfold firOut at low high
  exact part.frame x (by omega) (apart.outside (by omega) (by omega))

/-- A FIR whose last frame completes the current block: its frames before leave a memory in which the whole block has
been received, and what follows is the convolution, the last word of the stream and OFF = 0. -/
theorem firRun_completing {count st : Word} (active : firActive m count st = true) (quiet : m.raced = [])
    (legal : buf.wf = true) (counted : count.toNat = c + 1) (complete : firOff m st.toNat + (c + 1) = firLen m st.toNat)
    (apart : FramesApart buf st.toNat (firLen m st.toNat) (c + 1)) :
    ∃ m' y, BlockPart m buf st.toNat (firLen m st.toNat) (firOff m st.toNat) (c + 1) c m' ∧
      firRun m count buf st =
        ((firBlock (c + 2) st.toNat (firLen m st.toNat) m').writeCanon (Stream.sampleAddr buf c) y).write
          (st.toNat + 4) 4 0 := by
  have within : firOff m st.toNat + c < firLen m st.toNat := by omega
  obtain ⟨offset, part⟩ := firLoop_blockPart quiet legal within (apart.mono c.le_succ)
  rw [firRun_active buf active, counted, loop_succ, firStep_completing (by rw [offset]; omega), offset]
  exact ⟨_, _, part.receive quiet legal within (apart c c.lt_succ_self), rfl⟩

/-- The last word of the stream and OFF lie outside IN and OUT, so both read as the completed block left them. -/
theorem completed_readCanon {a : Nat} {y : Int} (quiet : m.raced = []) (low : st + 8 ≤ a)
    (high : a + 8 ≤ st + 8 + 24 * n)
    (apart : Stream.sampleAddr buf c + 8 ≤ st ∨ st + (8 + 28 * n) ≤ Stream.sampleAddr buf c) :
    ((m.writeCanon (Stream.sampleAddr buf c) y).write (st + 4) 4 0).tick.readCanon 0 a = m.readCanon 0 a := by
  refine readCanon_congr quiet (by simpa using quiet) fun x above below => ?_
  rw [tick_peek, peek_write_other (by omega), peek_writeCanon_other (by omega)]

/-- IN is as the last frame before the convolution left it. -/
theorem firBlock_readIn {key j : Nat} (quiet : m.raced = []) (inBlock : j < n) :
    (firBlock key st n m).readCanon 0 (firIn st j) = m.readCanon 0 (firIn st j) :=
  readCanon_congr quiet ((firBlock_raced ..).trans quiet) fun x low high =>
    firBlock_frame (by unfold firIn at low high; omega)

theorem firOff_write {m : Memory} (quiet : m.raced = []) (st off : Nat) :
    firOff (m.write (st + 4) 4 off).tick st = off % 256 ^ 4 := by
  rw [← read_write_same firHeaderKey (st + 4) 4 off quiet]
  exact read_congr ((write_raced ..).trans quiet) ((write_raced ..).trans quiet) fun _ _ _ => tick_peek _ _

end BlockFrames

/-- Settles O41: the memory that the last frame convolves has received the whole block, and IN and OUT are read through
the two writes after the convolution. -/
theorem firBlockIsTheConvolution : Obligations.FirBlockIsTheConvolution := by
  intro count buf st k s legal counted kernel quiet n off span power short complete aligned bufAligned bufInRange
    inRange apart x h p
  obtain ⟨c, frames⟩ : ∃ c, count.toNat = c + 1 :=
    Nat.exists_eq_succ_of_ne_zero fun zero => counted (BitVec.eq_of_toNat_eq zero)
  have offset : off < n := by omega
  have active := firActive_iff.mpr ⟨counted, kernel, Nat.ne_zero_of_lt offset⟩
  have allApart : FramesApart buf st.toNat n (c + 1) := frames ▸ framesApart_of_spans legal apart
  rw [frames] at complete
  obtain ⟨m', y, part, run⟩ := firRun_completing active quiet legal frames complete allApart
  have convolution : ∀ j, convOut n (readCoeff m' (c + 2) st.toNat n) (readIn m' (c + 2) st.toNat) j = p j :=
    part.convOut_eq (c + 2) quiet complete (allApart.mono c.le_succ)
  have blockQuiet : (firBlock (c + 2) st.toNat n m').raced = [] := (firBlock_raced ..).trans part.quiet
  have history : ∀ a, st.toNat + 8 ≤ a → a + 8 ≤ st.toNat + 8 + 24 * n →
      (firRun s.mem count buf st).tick.readCanon 0 a = (firBlock (c + 2) st.toNat n m').readCanon 0 a :=
    fun a low high => run ▸ completed_readCanon blockQuiet low high (allApart c c.lt_succ_self)
  refine ⟨_, exec_fir legal (firCheck_passes power short offset aligned bufAligned bufInRange inRange apart),
    completedTo_fir count st buf s, ?off, fun j inBlock => ?input, fun j inBlock => ?low, fun j inBlock => ?high⟩
  case off =>
    rw [advance_mem, run]
    exact firOff_write ((writeCanon_raced ..).trans blockQuiet) _ 0
  case input =>
    rw [advance_mem, history _ (by unfold firIn; omega) (by unfold firIn; omega), firBlock_readIn part.quiet inBlock]
    exact part.input j (by omega)
  case low =>
    rw [advance_mem, history _ (by unfold firOut; omega) (by unfold firOut; omega),
      firBlock_readOut_low part.quiet inBlock, convolution,
      part.readOut_high quiet inBlock (allApart.mono c.le_succ)]
  case high =>
    rw [advance_mem, history _ (by unfold firOut; omega) (by unfold firOut; omega),
      firBlock_readOut_high part.quiet inBlock, convolution]

end Sys2Proof.Proofs
end

section
/-! SUPPORT. The interrupt output (R210): when it is 1, and what it is when a single one of its sources is pending; the
statement about it and the three ends of a run. -/

namespace Sys2Proof.Proofs

open Sys2Proof.Machine Sys2Proof.Laws

variable {s : State}

/-! ## IRQ as a function of the three status bits -/

theorem irq_iff :
    s.irq = true ↔ (s.done = true ∧ s.irqEn.getLsbD 1 = true) ∨ (s.fault = true ∧ s.irqEn.getLsbD 2 = true) ∨
      (s.stopped = true ∧ s.irqEn.getLsbD 3 = true) := by
  simp only [State.irq, Bool.or_eq_true, Bool.and_eq_true, or_assoc]

theorem irq_of_done_only (done : s.done = true) (fault : s.fault = false) (stopped : s.stopped = false) :
    s.irq = s.irqEn.getLsbD 1 := by
  simp [State.irq, done, fault, stopped]

theorem irq_of_fault_only (done : s.done = false) (fault : s.fault = true) (stopped : s.stopped = false) :
    s.irq = s.irqEn.getLsbD 2 := by
  simp [State.irq, done, fault, stopped]

theorem irq_of_stopped_only (done : s.done = false) (fault : s.fault = false) (stopped : s.stopped = true) :
    s.irq = s.irqEn.getLsbD 3 := by
  simp [State.irq, done, fault, stopped]

/-! ## The ends of a run (R95, R96, R97) -/

/-- Settles O57: each end of a run sets its own source and leaves the two others and IRQ_EN, so that from no pending
source its own is the only one. -/
theorem interruptIsLevelSensitive : Obligations.InterruptIsLevelSensitive := by
  intro s f
  refine ⟨irq_iff, fun done fault stopped => ⟨?halt, ?fault, ?stop⟩⟩
  case halt =>
    rw [irq_of_done_only (takeHalt_done s) (takeHalt_fault s ▸ fault) (takeHalt_stopped s ▸ stopped), takeHalt_irqEn]
  case fault =>
    rw [irq_of_fault_only (takeFault_done s f ▸ done) (takeFault_fault s f) (takeFault_stopped s f ▸ stopped),
      takeFault_irqEn]
  case stop =>
    rw [irq_of_stopped_only (takeStop_done s ▸ done) (takeStop_fault s ▸ fault) (takeStop_stopped s), takeStop_irqEn]

end Sys2Proof.Proofs
end

section
/-! SUPPORT. The decoder and the encoder against each other (R66 to R69, R81), and the statements about them: what an
encoding decodes to, what a descriptor that decodes was, and what a reserved opcode does. -/

namespace Sys2Proof.Proofs

open Sys2Proof.Machine Sys2Proof.Laws

/-! ## Decoding an encoding (R68) -/

/-- The encoding of every command names its opcode and keeps the reserved bits 0. -/
theorem encoding_clear (i : Instr) : EncodingClear.Statement i := by
  cases i with
  | halt => exact EncodingClear.halt
  | importWire => exact EncodingClear.importWire ..
  | exportWire => exact EncodingClear.exportWire ..
  | silence => exact EncodingClear.silence ..
  | maxv => exact EncodingClear.maxv ..
  | mix => exact EncodingClear.mix ..
  | comp => exact EncodingClear.comp ..
  | gaininit => exact EncodingClear.gaininit ..
  | fir => exact EncodingClear.fir ..

/-- The fields read from a command's own words are the command's operands. -/
theorem instrOf_encode (i : Instr) : instrOf i.opcode (encode i) = i := by
  cases i <;> simp [Instr.opcode, instrOf, encode]

theorem decode_encode (i : Instr) : decode (encode i) = .ok i := by
  obtain ⟨code, clear⟩ := encoding_clear i
  simp only [decode, code, ofCode_code, clear, instrOf_encode]

/-- The byte decoder is the word decoder on the eight words at the front. -/
theorem decodeBytes_wordBytes {w : Words} {i : Instr} (decodes : decode w = .ok i) (rest : List Byte) :
    decodeBytes (w.toList.flatMap wordBytes ++ rest) = .ok (i, rest) := by
  simp only [decodeBytes, takeWords_wordBytes, decodes]

/-- Settles O1: the words of an encoding decode to the command, and its bytes read back as those words. -/
theorem decodeOfEncode : Obligations.DecodeOfEncode := fun i rest =>
  ⟨decode_encode i, decodeBytes_wordBytes (decode_encode i) rest⟩

/-! ## Encoding what a descriptor decodes to (R81) -/

theorem code_of_ofCode {b : Byte} {op : Opcode} (opcode : Opcode.ofCode b = some op) : op.code = b := by
  simpa using List.find?_some opcode

/-- A descriptor that decodes has a legal opcode and no reserved bit that is 1. -/
theorem decode_eq_ok {w : Words} {i : Instr} (decodes : decode w = .ok i) :
    ∃ op, byte0 w.w0 = Opcode.code op ∧ lowestReserved 0 w.toList (reservedMasks op).toList = none ∧
      i = instrOf op w := by
  unfold decode at decodes
  split at decodes
  · cases decodes
  · next op opcode =>
    split at decodes
    · cases decodes
    · next clear => exact ⟨op, (code_of_ofCode opcode).symm, clear, (Except.ok.inj decodes).symm⟩

/-- A search that finds no reserved bit has found each word clear under its mask. -/
theorem lowestReserved_cons_none {k : Nat} {w m : Word} {ws ms : List Word} :
    lowestReserved k (w :: ws) (m :: ms) = none ↔ w &&& m = 0 ∧ lowestReserved (k + 1) ws ms = none := by
  rw [lowestReserved]
  split
  · next clear => exact ⟨fun rest => ⟨clear, rest⟩, fun both => both.2⟩
  · next set => exact ⟨fun found => absurd found (Option.some_ne_none k), fun both => absurd both.1 set⟩

/-- A byte that is clear under a byte of all ones is 0. -/
theorem eq_zero_of_and_allOnes {b m : Byte} (clear : b &&& m = 0) (ones : m = 0xFF) : b = 0 := by
  rw [ones, show (0xFF : Byte) = BitVec.allOnes 8 from rfl, BitVec.and_allOnes] at clear
  exact clear

/-- The bytes of a word that is clear under a mask are clear under the mask's bytes. -/
theorem bytes_clear {w m : Word} (clear : w &&& m = 0) :
    byte0 w &&& byte0 m = 0 ∧ byte1 w &&& byte1 m = 0 ∧ byte2 w &&& byte2 m = 0 ∧ byte3 w &&& byte3 m = 0 := by
  refine ⟨?_, ?_, ?_, ?_⟩
  · rw [← byte0_and, clear]; rfl
  · rw [← byte1_and, clear]; rfl
  · rw [← byte2_and, clear]; rfl
  · rw [← byte3_and, clear]; rfl

theorem word_clear {w : Word} (clear : w &&& 0xFFFFFFFF = 0) : w = 0 := by
  rw [show (0xFFFFFFFF : Word) = BitVec.allOnes 32 from rfl, BitVec.and_allOnes] at clear
  exact clear

/-- A flag byte whose bits above FLAGS[3] are 0 is the byte of MIX's four flags (R72). -/
theorem mixFlags_toByte_ofByte : ∀ b : Byte, b &&& 0xF0 = 0 → (MixFlags.ofByte b).toByte = b := by decide +kernel

/-- A flag byte whose bits above FLAGS[0] are 0 is the byte of EN (R72). -/
theorem enToByte_enOfByte : ∀ b : Byte, b &&& 0xFE = 0 → enToByte (enOfByte b) = b := by decide +kernel

/-- A word is any four bytes that are its own. -/
theorem pack_eq {w : Word} {b3 b2 b1 b0 : Byte} (h3 : b3 = byte3 w) (h2 : b2 = byte2 w) (h1 : b1 = byte1 w)
    (h0 : b0 = byte0 w) : pack b3 b2 b1 b0 = w := by
  rw [h3, h2, h1, h0, pack_bytes]

/-- A word with no bit set but in its two low bytes. -/
theorem pack_low_half {w : Word} (clear : w &&& 0xFFFF0000 = 0) : pack 0 0 (byte1 w) (byte0 w) = w := by
  obtain ⟨-, -, c2, c3⟩ := bytes_clear clear
  exact pack_eq (eq_zero_of_and_allOnes c3 rfl).symm (eq_zero_of_and_allOnes c2 rfl).symm rfl rfl

/-- A word with no bit set but in its lowest byte. -/
theorem pack_low_byte {w : Word} (clear : w &&& 0xFFFFFF00 = 0) : pack 0 0 0 (byte0 w) = w := by
  obtain ⟨-, c1, c2, c3⟩ := bytes_clear clear
  exact pack_eq (eq_zero_of_and_allOnes c3 rfl).symm (eq_zero_of_and_allOnes c2 rfl).symm
    (eq_zero_of_and_allOnes c1 rfl).symm rfl

/-- W0 of MIX: flags with their high half clear, SHIFT, and the opcode (R66, R72). -/
theorem pack_mix_w0 {w : Word} (clear : w &&& 0x00F0FF00 = 0) :
    pack (byte3 w) (MixFlags.ofByte (byte2 w)).toByte 0 (byte0 w) = w := by
  obtain ⟨-, c1, c2, -⟩ := bytes_clear clear
  exact pack_eq rfl (mixFlags_toByte_ofByte _ c2) (eq_zero_of_and_allOnes c1 rfl).symm rfl

/-- W0 of COMP: EN, FMT and the opcode (R66, R72). -/
theorem pack_comp_w0 {w : Word} (clear : w &&& 0xFFFE0000 = 0) :
    pack 0 (enToByte (enOfByte (byte2 w))) (byte1 w) (byte0 w) = w := by
  obtain ⟨-, -, c2, c3⟩ := bytes_clear clear
  exact pack_eq (eq_zero_of_and_allOnes c3 rfl).symm (enToByte_enOfByte _ c2) rfl rfl

/-- W4 of COMP: NCH_A alone (R66). -/
theorem pack_comp_w4 {w : Word} (clear : w &&& 0xFFFF00FF = 0) : pack 0 0 (byte1 w) 0 = w := by
  obtain ⟨c0, -, c2, c3⟩ := bytes_clear clear
  exact pack_eq (eq_zero_of_and_allOnes c3 rfl).symm (eq_zero_of_and_allOnes c2 rfl).symm rfl
    (eq_zero_of_and_allOnes c0 rfl).symm

/-- W5 of GAININIT: BANK alone (R66). -/
theorem pack_gaininit_w5 {w : Word} (clear : w &&& 0x00FFFFFF = 0) : pack (byte3 w) 0 0 0 = w := by
  obtain ⟨c0, c1, c2, -⟩ := bytes_clear clear
  exact pack_eq rfl (eq_zero_of_and_allOnes c2 rfl).symm (eq_zero_of_and_allOnes c1 rfl).symm
    (eq_zero_of_and_allOnes c0 rfl).symm

/-- A descriptor with its opcode's reserved bits 0 is the encoding of the fields read from it: word by word, what the
fields do not hold is reserved. -/
theorem encode_instrOf {w : Words} {op : Opcode} (code : byte0 w.w0 = op.code)
    (clear : lowestReserved 0 w.toList (reservedMasks op).toList = none) : encode (instrOf op w) = w := by
  obtain ⟨w0, w1, w2, w3, w4, w5, w6, w7⟩ := w
  cases op <;> simp only [Words.toList, reservedMasks, lowestReserved_cons_none] at clear <;>
    obtain ⟨c0, c1, c2, c3, c4, c5, c6, c7, -⟩ := clear <;>
    simp only [instrOf, encode, Instr.opcode, ← code, Words.mk.injEq, true_and]
  case halt =>
    exact ⟨pack_low_byte c0, (word_clear c1).symm, (word_clear c2).symm, (word_clear c3).symm, (word_clear c4).symm,
      (word_clear c5).symm, (word_clear c6).symm, (word_clear c7).symm⟩
  case importWire | exportWire =>
    exact ⟨pack_low_half c0, (word_clear c4).symm, (word_clear c5).symm, (word_clear c6).symm,
      (word_clear c7).symm⟩
  case silence =>
    exact ⟨pack_low_half c0, (word_clear c2).symm, (word_clear c4).symm, (word_clear c5).symm,
      (word_clear c6).symm, (word_clear c7).symm⟩
  case maxv =>
    exact ⟨pack_low_half c0, (word_clear c1).symm, (word_clear c2).symm, (word_clear c4).symm,
      (word_clear c5).symm, (word_clear c6).symm, (word_clear c7).symm⟩
  case mix =>
    exact ⟨pack_mix_w0 c0, pack_bytes w4, (word_clear c6).symm, (word_clear c7).symm⟩
  case comp =>
    exact ⟨pack_comp_w0 c0, (word_clear c3).symm, pack_comp_w4 c4, pack_bytes w5, (word_clear c6).symm,
      (word_clear c7).symm⟩
  case gaininit =>
    exact ⟨pack_low_byte c0, (word_clear c1).symm, (word_clear c2).symm, (word_clear c3).symm, (word_clear c4).symm,
      pack_gaininit_w5 c5, (word_clear c6).symm, (word_clear c7).symm⟩
  case fir =>
    exact ⟨pack_low_byte c0, pack_low_half c4, (word_clear c5).symm, (word_clear c6).symm,
      (word_clear c7).symm⟩

/-- Settles O2: a descriptor that decodes has its reserved bits 0, so its fields are all it holds. -/
theorem encodeOfDecode : Obligations.EncodeOfDecode := by
  intro w i decodes
  obtain ⟨op, code, clear, rfl⟩ := decode_eq_ok decodes
  exact encode_instrOf code clear

/-! ## Reserved opcodes (R69) -/

/-- The codes of the nine opcodes are the nine of R67. -/
theorem code_mem_table (op : Opcode) :
    op.code ∈ ([0x00, 0x01, 0x02, 0x03, 0x04, 0x10, 0x20, 0x21, 0x30] : List Byte) := by
  cases op <;> decide

theorem decode_reserved_opcode {w : Words}
    (reserved : byte0 w.w0 ∉ ([0x00, 0x01, 0x02, 0x03, 0x04, 0x10, 0x20, 0x21, 0x30] : List Byte)) :
    decode w = .error ⟨.illegalOpcode, w.w0⟩ := by
  have unknown : Opcode.ofCode (byte0 w.w0) = none := by
    rw [Option.eq_none_iff_forall_ne_some]
    intro op opcode
    exact reserved (code_of_ofCode opcode ▸ code_mem_table op)
  simp only [decode, unknown]

/-- Settles O4: no opcode has a reserved code, and the step that fetches one takes the decoder's fault. -/
theorem reservedOpcodesFault : Obligations.ReservedOpcodesFault := fun w reserved =>
  ⟨decode_reserved_opcode reserved, fun s fetching fetched => by
    subst fetched
    exact step_decode_error fetching (decode_reserved_opcode reserved)⟩

/-! ## Legal fields and listed descriptors -/

/-- Settles O6: the agreement of the ordered checks with the tables, command by command. -/
theorem legalFieldsAreWellFormed : Obligations.LegalFieldsAreWellFormed := fieldFault_none_iff_wf

/-- Settles O3: each descriptor is decoded by evaluation. -/
theorem specDescriptorsDecode : Obligations.SpecDescriptorsDecode :=
  ⟨by decide, by decide, by decide, by decide, by decide⟩

end Sys2Proof.Proofs
end

section
/-! SUPPORT. What a command does as one function of memory, LFSR and gain entries, what its memory checks say when they
pass, that every fault has a cause (R201), and so all that the sequencer's turn can answer. -/

namespace Sys2Proof.Proofs

open Sys2Proof.Machine Sys2Proof.Laws

/-! ## The effect of a command (R100) -/

/-- What a command whose checks pass makes of memory, LFSR and gain entries. -/
def effect (i : Instr) (m : Memory) (x : Word) (g : Gains) : Memory × Word × Gains :=
  match i with
  | .halt => (m, x, g)
  | .importWire fmt count src dst => (loop count.toNat (importStep fmt src dst) m, x, g)
  | .exportWire fmt count src dst => (loop count.toNat (exportStep fmt src dst) m, x, g)
  | .silence fmt count dst => (loop count.toNat (silenceStep fmt dst) m, x, g)
  | .maxv fmt dst => (m.writeCanon dst.toNat (maxOf fmt), x, g)
  | .mix flags shift count src dst volume =>
    ((loop count.toNat (mixStep flags shift src dst volume) (m, x)).1,
      (loop count.toNat (mixStep flags shift src dst volume) (m, x)).2, g)
  | .comp fmt en count buf nch par =>
    ((loop (compFrames en count) (compFrame (kneeThreshold fmt par.knee) buf nch par) (m, g)).1, x,
      (loop (compFrames en count) (compFrame (kneeThreshold fmt par.knee) buf nch par) (m, g)).2)
  | .gaininit bank => (m, x, loop Config.maxChannels (fun c g => gainSet g bank.toNat c unityGain) g)
  | .fir count buf state => (firRun m count buf state, x, g)

/-- The state in which command `i` has had its effect and has not yet completed. -/
def affected (i : Instr) (s : State) : State :=
  { s with
    mem := (effect i s.mem s.lfsr s.gains).1
    lfsr := (effect i s.mem s.lfsr s.gains).2.1
    gains := (effect i s.mem s.lfsr s.gains).2.2 }

theorem exec_eq_commit {i : Instr} (checked : i ≠ .halt) (s : State) :
    exec i s = .next (s.commit (commandCheck i s) (affected i s)) := by
  cases i with
  | halt => exact absurd rfl checked
  | gaininit bank =>
    have check : commandCheck (.gaininit bank) s = fieldFault (.gaininit bank) := Option.or_none
    rw [check]
    rfl
  | importWire | exportWire | silence | maxv | mix | comp | fir => rfl

theorem exec_eq_advance {i : Instr} {s : State} (checked : i ≠ .halt) (passes : commandCheck i s = none) :
    exec i s = .next (affected i s).advance := by
  rw [exec_eq_commit checked, passes, commit_none]

theorem effect_raced (i : Instr) (m : Memory) (x : Word) (g : Gains) : (effect i m x g).1.raced = m.raced := by
  cases i with
  | halt | gaininit => rfl
  | importWire => exact importLoop_raced ..
  | exportWire => exact exportLoop_raced ..
  | silence => exact silenceLoop_raced ..
  | maxv => exact writeCanon_raced ..
  | mix => exact mixLoop_raced ..
  | comp => exact compLoop_raced ..
  | fir => exact firRun_raced ..

/-- No command makes the host race. -/
theorem affected_quiet {s : State} (quiet : s.quiet) (i : Instr) : (affected i s).mem.raced = [] :=
  (effect_raced ..).trans quiet

theorem completedTo_affected (i : Instr) (s : State) : s.completedTo (affected i s).advance :=
  completedTo_advance { sameRegisters_refl s with raced := effect_raced .. } rfl

theorem commandCheck_none_iff {i : Instr} {s : State} :
    commandCheck i s = none ↔ i.wf = true ∧ memoryCheck i s = none := by
  rw [commandCheck, Option.or_eq_none_iff, fieldFault_none_iff_wf]

/-! ## Memory checks that pass (R54, R101) -/

section Checks

/-- A check that is not made when there is nothing to do. -/
theorem guarded_none {nothing : Prop} [Decidable nothing] {check : Option FaultReport} :
    (if nothing then none else check) = none ↔ nothing ∨ check = none := by
  by_cases empty : nothing <;> simp [empty]

variable {c : Config} {fmt : Byte} {count src dst buf : Word}

theorem importCheck_none : importCheck c fmt count src dst = none ↔
    count = 0 ∨ dst.toNat % 8 = 0 ∧ src.toNat + count.toNat * fmtBytes fmt ≤ c.memSize ∧
      dst.toNat + count.toNat * 8 ≤ c.memSize := by
  simp only [importCheck, guarded_none, Option.or_eq_none_iff, checkAlign8_none, checkRange_none]

theorem exportCheck_none : exportCheck c fmt count src dst = none ↔
    count = 0 ∨ src.toNat % 8 = 0 ∧ src.toNat + count.toNat * 8 ≤ c.memSize ∧
      dst.toNat + count.toNat * fmtBytes fmt ≤ c.memSize := by
  simp only [exportCheck, guarded_none, Option.or_eq_none_iff, checkAlign8_none, checkRange_none]

theorem silenceCheck_none : silenceCheck c fmt count dst = none ↔
    count = 0 ∨ dst.toNat + count.toNat * fmtBytes fmt ≤ c.memSize := by
  simp only [silenceCheck, guarded_none, checkRange_none]

theorem maxvCheck_none : maxvCheck c dst = none ↔ dst.toNat % 8 = 0 ∧ dst.toNat + 8 ≤ c.memSize := by
  simp only [maxvCheck, Option.or_eq_none_iff, checkAlign8_none, checkRange_none]

theorem mixCheck_none {src dst : Stream} : mixCheck c count src dst = none ↔
    count = 0 ∨ (src.base.toNat % 8 = 0 ∧ dst.base.toNat % 8 = 0) ∧
      src.base.toNat + Stream.spanBytes src count ≤ c.memSize ∧
      dst.base.toNat + Stream.spanBytes dst count ≤ c.memSize := by
  simp only [mixCheck, guarded_none, Option.or_eq_none_iff, checkAlign8_none, checkRange_none]

theorem compCheck_none {en : Bool} {nch : Byte} : compCheck c en count buf nch = none ↔
    (en = false ∨ count = 0) ∨ buf.toNat % 8 = 0 ∧ buf.toNat + 8 * count.toNat * nch.toNat ≤ c.memSize := by
  simp only [compCheck, guarded_none, Option.or_eq_none_iff, checkAlign8_none, checkRange_none]

/-- What the checks of a filter that runs have found (R179). -/
theorem firCheck_none_active {m : Memory} {st : Word} {buf : Stream} (active : firActive m count st = true)
    (passes : firCheck c m count buf st = none) :
    buf.base.toNat + Stream.spanBytes buf count ≤ c.memSize ∧
      st.toNat + firBlockBytes (firLen m st.toNat) ≤ c.memSize := by
  obtain ⟨counted, kernel, enabled⟩ := firActive_iff.mp active
  rw [firCheck, if_neg counted, if_neg kernel, Option.or_eq_none_iff, Option.or_eq_none_iff] at passes
  obtain ⟨-, -, header⟩ := passes
  rw [firStateCheck, if_neg enabled] at header
  split at header
  · cases header
  split at header
  · cases header
  simp only [Option.or_eq_none_iff, checkRange_none] at header
  obtain ⟨-, buffer, block, -⟩ := header
  exact ⟨buffer, block⟩

end Checks

/-! ## Commands stay within memory (R45, R54) -/

/-- The words of a stream whose span lies in memory lie in memory. -/
theorem sampleAddr_in_memory {st : Stream} {count : Word} {size : Nat} (legal : st.wf = true)
    (inRange : count = 0 ∨ st.base.toNat + Stream.spanBytes st count ≤ size) :
    ∀ i < count.toNat, Stream.sampleAddr st i + 8 ≤ size := by
  intro i frame
  obtain rfl | inRange := inRange
  · exact absurd frame i.not_lt_zero
  · exact (sampleAddr_in_span (stream_channel legal) frame).2.trans inRange

/-- COMP's samples fill the buffer that its check allows for, or none of it when it is disabled. -/
theorem compDest_le (en : Bool) (count : Word) (nch : Byte) :
    8 * (compFrames en count * nch.toNat) ≤ 8 * count.toNat * nch.toNat := by
  have frames : compFrames en count ≤ count.toNat := by unfold compFrames; split <;> omega
  rw [Nat.mul_assoc]
  gcongr

theorem firRun_wf {c : Config} {m : Memory} {count : Word} {buf : Stream} {st : Word} (legal : buf.wf = true)
    (passes : firCheck c m count buf st = none) (canonical : m.wf c.memSize = true) :
    (firRun m count buf st).wf c.memSize = true := by
  cases active : firActive m count st with
  | false => rwa [firRun_inactive buf active]
  | true =>
    obtain ⟨buffer, block⟩ := firCheck_none_active active passes
    rw [firRun_active buf active]
    refine write_wf _ (firLoop_wf (firCheck_off active passes) canonical
      (sampleAddr_in_memory legal (.inr buffer)) block) ?_
    unfold firBlockBytes at block
    omega

/-- A command whose checks pass keeps the canonical form of memory: it writes only addresses the memory has. -/
theorem effect_wf {i : Instr} {s : State} (passes : commandCheck i s = none)
    (canonical : s.mem.wf s.config.memSize = true) :
    (effect i s.mem s.lfsr s.gains).1.wf s.config.memSize = true := by
  obtain ⟨legal, memory⟩ := commandCheck_none_iff.mp passes
  cases i with
  | halt | gaininit => exact canonical
  | importWire =>
    obtain rfl | ⟨-, -, inRange⟩ := importCheck_none.mp memory
    · exact canonical
    · exact importLoop_wf canonical (by omega)
  | exportWire =>
    obtain rfl | ⟨-, -, inRange⟩ := exportCheck_none.mp memory
    · exact canonical
    · exact exportLoop_wf canonical inRange
  | silence =>
    obtain rfl | inRange := silenceCheck_none.mp memory
    · exact canonical
    · exact silenceLoop_wf canonical inRange
  | maxv => exact writeCanon_wf _ canonical (maxvCheck_none.mp memory).2
  | mix _ _ _ _ dst =>
    simp only [Instr.wf, Bool.and_eq_true] at legal
    exact mixLoop_wf canonical (sampleAddr_in_memory legal.1.2 ((mixCheck_none.mp memory).imp id fun h => h.2.2))
  | comp _ en count buf nch =>
    obtain (rfl | rfl) | ⟨-, inRange⟩ := compCheck_none.mp memory
    · exact canonical
    · rw [effect, compFrames_zero]
      exact canonical
    · have := compDest_le en count nch
      exact compLoop_wf canonical (by omega)
  | fir => exact firRun_wf legal memory canonical

/-- The destination of a command whose checks pass lies in memory. -/
theorem destBytes_lt {i : Instr} {s : State} (passes : commandCheck i s = none) :
    ∀ a ∈ destBytes i s.mem, a < s.config.memSize := by
  obtain ⟨legal, memory⟩ := commandCheck_none_iff.mp passes
  intro a dest
  cases i with
  | halt | gaininit => exact absurd dest List.not_mem_nil
  | importWire =>
    obtain ⟨low, high⟩ := mem_byteRange.mp dest
    obtain rfl | ⟨-, -, inRange⟩ := importCheck_none.mp memory
    · exact absurd high (by simpa using low)
    · omega
  | exportWire =>
    obtain ⟨low, high⟩ := mem_byteRange.mp dest
    obtain rfl | ⟨-, -, inRange⟩ := exportCheck_none.mp memory
    · exact absurd high (by simpa using low)
    · omega
  | silence =>
    obtain ⟨low, high⟩ := mem_byteRange.mp dest
    obtain rfl | inRange := silenceCheck_none.mp memory
    · exact absurd high (by simpa using low)
    · omega
  | maxv =>
    obtain ⟨low, high⟩ := mem_byteRange.mp dest
    obtain ⟨-, inRange⟩ := maxvCheck_none.mp memory
    omega
  | mix _ _ _ _ dst =>
    obtain ⟨j, frame, low, high⟩ := mem_sampleBytes.mp dest
    simp only [Instr.wf, Bool.and_eq_true] at legal
    have := sampleAddr_in_memory legal.1.2 ((mixCheck_none.mp memory).imp id fun h => h.2.2) j frame
    omega
  | comp _ en count buf nch =>
    obtain ⟨low, high⟩ := mem_byteRange.mp dest
    have fits := compDest_le en count nch
    obtain (rfl | rfl) | ⟨-, inRange⟩ := compCheck_none.mp memory
    · exact absurd high (by simpa [compFrames] using low)
    · exact absurd high (by rw [compFrames_zero]; simpa using low)
    · omega
  | fir count buf st =>
    cases active : firActive s.mem count st with
    | false =>
      simp [destBytes, firDest, active] at dest
    | true =>
      obtain ⟨buffer, block⟩ := firCheck_none_active active memory
      unfold firBlockBytes at block
      rw [destBytes, firDest_active buf active, List.mem_append, mem_sampleBytes, mem_byteRange] at dest
      obtain ⟨j, frame, low, high⟩ | ⟨low, high⟩ := dest
      · have := sampleAddr_in_memory legal (.inr buffer) j frame
        omega
      · omega

/-! ## Every fault has a cause (R201) -/

/-- What a check reports, if anything, is a fault with a cause. -/
structure HasCause (check : Option FaultReport) : Prop where
  caused : ∀ f, check = some f → f.cause ≠ .none

theorem hasCause_none : HasCause none := ⟨fun _ nothing => nomatch nothing⟩

theorem hasCause_some {f : FaultReport} (caused : f.cause ≠ .none) : HasCause (some f) :=
  ⟨fun _ same => Option.some.inj same ▸ caused⟩

theorem HasCause.or {a b : Option FaultReport} (first : HasCause a) (second : HasCause b) : HasCause (a.or b) := by
  cases a with
  | none => exact second
  | some f => exact first

theorem HasCause.ite {p : Prop} [Decidable p] {a b : Option FaultReport} (first : HasCause a) (second : HasCause b) :
    HasCause (if p then a else b) := by
  split
  · exact first
  · exact second

theorem hasCause_fmtFault (fmt : Byte) : HasCause (fmtFault fmt) := .ite hasCause_none (hasCause_some Cause.noConfusion)

theorem hasCause_channelFault (legal : Bool) (w4 : Word) : HasCause (channelFault legal w4) :=
  .ite hasCause_none (hasCause_some Cause.noConfusion)

theorem hasCause_paramFault (legal : Bool) (k : Word) : HasCause (paramFault legal k) :=
  .ite hasCause_none (hasCause_some Cause.noConfusion)

theorem hasCause_checkAlign8 (a : Word) : HasCause (checkAlign8 a) :=
  .ite hasCause_none (hasCause_some Cause.noConfusion)

theorem hasCause_checkRange (c : Config) (a : Word) (n : Nat) : HasCause (checkRange c a n) :=
  .ite (hasCause_some Cause.noConfusion) hasCause_none

theorem hasCause_fieldFault (i : Instr) : HasCause (fieldFault i) := by
  cases i with
  | halt => exact hasCause_none
  | importWire | exportWire | silence | maxv => exact hasCause_fmtFault _
  | mix => exact (hasCause_channelFault ..).or (hasCause_paramFault ..)
  | comp => exact ((hasCause_fmtFault _).or (hasCause_channelFault ..)).or (hasCause_paramFault ..)
  | gaininit => exact hasCause_paramFault ..
  | fir => exact hasCause_channelFault ..

theorem hasCause_firStateCheck (c : Config) (count : Word) (buf : Stream) (st : Word) (n off : Nat) :
    HasCause (firStateCheck c count buf st n off) :=
  have caused : ∀ cause, cause ≠ .none → HasCause (some ⟨cause, st⟩) := fun _ present => hasCause_some present
  .ite hasCause_none (.ite (caused .firState Cause.noConfusion) (.ite (caused .firState Cause.noConfusion)
    ((hasCause_checkAlign8 _).or ((hasCause_checkRange ..).or ((hasCause_checkRange ..).or
      (.ite (caused .overlap Cause.noConfusion) hasCause_none))))))

theorem hasCause_memoryCheck (i : Instr) (s : State) : HasCause (memoryCheck i s) := by
  cases i with
  | halt | gaininit => exact hasCause_none
  | importWire | exportWire =>
    exact .ite hasCause_none ((hasCause_checkAlign8 _).or ((hasCause_checkRange ..).or (hasCause_checkRange ..)))
  | silence => exact .ite hasCause_none (hasCause_checkRange ..)
  | maxv => exact (hasCause_checkAlign8 _).or (hasCause_checkRange ..)
  | mix =>
    exact .ite hasCause_none (((hasCause_checkAlign8 _).or (hasCause_checkAlign8 _)).or
      ((hasCause_checkRange ..).or (hasCause_checkRange ..)))
  | comp => exact .ite hasCause_none ((hasCause_checkAlign8 _).or (hasCause_checkRange ..))
  | fir =>
    exact .ite hasCause_none (.ite hasCause_none ((hasCause_checkAlign8 _).or ((hasCause_checkRange ..).or
      (hasCause_firStateCheck ..))))

theorem hasCause_commandCheck (i : Instr) (s : State) : HasCause (commandCheck i s) :=
  (hasCause_fieldFault i).or (hasCause_memoryCheck i s)

theorem cause_of_decode_error {w : Words} {f : FaultReport} (rejected : decode w = .error f) : f.cause ≠ .none := by
  unfold decode at rejected
  split at rejected
  · cases rejected
    exact Cause.noConfusion
  · split at rejected
    · cases rejected
      exact Cause.noConfusion
    · cases rejected

/-! ## What the sequencer's turn answers (R92) -/

/-- The answers of a run's step past the boundary: a fault with its cause, the end at HALT, or a command that lies in
memory, passes its checks, has its effect and completes. -/
inductive RunAnswer (s : State) : State → Prop where
  | fault (f : FaultReport) (caused : f.cause ≠ .none) : RunAnswer s (s.takeFault f)
  | halt : RunAnswer s s.takeHalt
  | completes (i : Instr) (inRange : s.cmdPtr.toNat + 32 ≤ s.config.memSize) (passes : commandCheck i s = none) :
    RunAnswer s (affected i s).advance

theorem exec_answers {s : State} (inRange : s.cmdPtr.toNat + 32 ≤ s.config.memSize) (i : Instr) :
    ∃ t, exec i s = .next t ∧ RunAnswer s t := by
  by_cases halts : i = .halt
  · subst halts
    exact ⟨_, rfl, .halt⟩
  · cases passes : commandCheck i s with
    | none => exact ⟨_, exec_eq_advance halts passes, .completes i inRange passes⟩
    | some f => exact ⟨_, exec_of_commandCheck passes, .fault f ((hasCause_commandCheck i s).caused f passes)⟩

theorem runCommand_answers (s : State) : ∃ t, runCommand s = .next t ∧ RunAnswer s t := by
  obtain ⟨-, runs⟩ | ⟨inRange, ⟨f, rejected, runs⟩ | ⟨i, -, runs⟩⟩ := runCommand_cases s
  · exact ⟨_, runs, .fault _ Cause.noConfusion⟩
  · exact ⟨_, runs, .fault f (cause_of_decode_error rejected)⟩
  · rw [runs]
    exact exec_answers inRange i

end Sys2Proof.Proofs
end

section
/-! SUPPORT. The legal states (R26, R28, R30, R34, R36, R45): each operation of the sequencer and of the host keeps
them, and so the statements about reset and about every step. -/

namespace Sys2Proof.Proofs

open Sys2Proof.Machine Sys2Proof.Laws

variable {s : State}

/-- The schedule and the reply are the host's, and no clause speaks of them. -/
theorem inv_schedule (legal : s.Inv) (rest : List Turn) : State.Inv { s with schedule := rest } := { legal with }

theorem gainsLegal_unity : gainsLegal unityGains := fun b c => by
  rw [gainGet_unity]
  exact BitVec.le_refl _

/-! ## The ends of a run (R95 to R97) -/

/-- What every end of a run does: the sequencer is idle, and nothing of the run is in flight. -/
def ended (s : State) : State :=
  { s with busy := false, stopPending := false, mem := s.mem.endRun, boundaries := [], executing := false }

theorem inv_ended (legal : s.Inv) : (ended s).Inv :=
  { legal with
    memory := endRun_wf legal.memory legal.raced
    raced := fun _ none => absurd none List.not_mem_nil
    running := fun busy => absurd busy Bool.false_ne_true
    stopPending := fun pending => absurd pending Bool.false_ne_true
    executing := fun executing => absurd executing Bool.false_ne_true
    idle := fun _ => ⟨rfl, rfl, rfl⟩
    boundaries := fun _ none => absurd none List.not_mem_nil }

theorem inv_takeHalt (legal : s.Inv) (busy : s.busy = true) : s.takeHalt.Inv := by
  obtain ⟨-, fault, stopped, -, -⟩ := legal.running busy
  exact { inv_ended legal with
    oneEnd := by rw [takeHalt_done, takeHalt_fault, takeHalt_stopped, fault, stopped]; decide
    running := fun busy => absurd busy Bool.false_ne_true }

theorem inv_takeStop (legal : s.Inv) (busy : s.busy = true) : s.takeStop.Inv := by
  obtain ⟨done, fault, -, -, -⟩ := legal.running busy
  exact { inv_ended legal with
    oneEnd := by rw [takeStop_done, takeStop_fault, takeStop_stopped, done, fault]; decide
    running := fun busy => absurd busy Bool.false_ne_true }

theorem inv_takeFault (legal : s.Inv) (busy : s.busy = true) {f : FaultReport} (caused : f.cause ≠ .none) :
    (s.takeFault f).Inv := by
  obtain ⟨done, -, stopped, -, -⟩ := legal.running busy
  exact { inv_ended legal with
    oneEnd := by rw [takeFault_done, takeFault_fault, takeFault_stopped, done, stopped]; decide
    running := fun busy => absurd busy Bool.false_ne_true
    faultCause := fun _ => caused
    faultInfo := fun uncaused => absurd uncaused caused }

/-! ## Commands that complete (R94) -/

theorem gaininitLoop_legal {g : Gains} (legal : gainsLegal g) (bank : Byte) (n : Nat) :
    gainsLegal (loop n (fun c g => gainSet g bank.toNat c unityGain) g) :=
  loop_induction (fun _ g => gainsLegal g) legal fun _ _ _ kept => gainSet_legal kept (BitVec.le_refl _)

theorem effect_gains_legal (i : Instr) (m : Memory) (x : Word) {g : Gains} (legal : gainsLegal g) :
    gainsLegal (effect i m x g).2.2 := by
  cases i with
  | comp fmt _ _ _ _ par => exact compLoop_legal (kneeThreshold_nonneg fmt par.knee) legal
  | gaininit => exact gaininitLoop_legal legal _ Config.maxChannels
  | halt | importWire | exportWire | silence | maxv | mix | fir => exact legal

/-- A multiple of 32 is still one after 32 more, modulo 2^32 (R28, R94). -/
theorem next_descriptor_aligned {a : Word} (aligned : a.toNat % 32 = 0) : (a + 32).toNat % 32 = 0 := by
  rw [BitVec.toNat_add]
  change (a.toNat + 32) % 2 ^ 32 % 32 = 0
  omega

theorem inv_completes (legal : s.Inv) (busy : s.busy = true) {i : Instr} (passes : commandCheck i s = none) :
    (affected i s).advance.Inv := by
  have aligned := next_descriptor_aligned legal.cmdPtr
  have gains := effect_gains_legal i s.mem s.lfsr legal.gains
  exact { legal with
    memory := effect_wf passes legal.memory
    raced := (effect_raced i s.mem s.lfsr s.gains).symm ▸ legal.raced
    cmdPtr := aligned
    gains := gains
    executing := fun executing => absurd executing Bool.false_ne_true
    idle := fun idle => absurd (busy.symm.trans idle) Bool.noConfusion
    boundaries := List.forall_mem_cons.mpr ⟨⟨aligned, gains⟩, legal.boundaries⟩ }

/-! ## The sequencer (R90, R92) -/

theorem inv_runAnswer {t : State} (legal : s.Inv) (busy : s.busy = true) (answer : RunAnswer s t) : t.Inv := by
  cases answer with
  | fault f caused => exact inv_takeFault legal busy caused
  | halt => exact inv_takeHalt legal busy
  | completes i _ passes => exact inv_completes legal busy passes

theorem inv_sequencerStep {t : State} (legal : s.Inv) (stepped : sequencerStep s = .next t) : t.Inv := by
  obtain ⟨busy, -, -, stops⟩ | ⟨busy, -, runs⟩ | ⟨-, idles⟩ := sequencerStep_cases s
  · cases stops.symm.trans stepped
    exact inv_takeStop legal busy
  · obtain ⟨u, answered, answer⟩ := runCommand_answers s
    cases (runs.trans answered).symm.trans stepped
    exact inv_runAnswer legal busy answer
  · cases idles.symm.trans stepped
    exact legal

theorem inv_beginCommand (legal : s.Inv) : s.beginCommand.Inv := by
  obtain ⟨busy, -, -, stops⟩ | ⟨-, begins⟩ := beginCommand_cases s
  · rw [stops]
    exact inv_takeStop legal busy
  · rw [begins]
    exact { legal with executing := id }

/-! ## Resets (R230, R231) -/

/-- The bytes that a reset leaves unspecified are addresses the memory has. -/
theorem inFlightBytes_lt (s : State) : ∀ a ∈ inFlightBytes s, a < s.config.memSize := by
  intro a inFlight
  unfold inFlightBytes at inFlight
  split at inFlight
  · split at inFlight
    · exact absurd inFlight List.not_mem_nil
    · split at inFlight
      · next passes => exact destBytes_lt passes a inFlight
      · exact absurd inFlight List.not_mem_nil
  · exact absurd inFlight List.not_mem_nil

/-- The reset values of the registers are legal, whatever memory they come with that has nothing in flight. -/
theorem inv_of_reset {t : State} (registers : t.resetRegisters = t) (memory : t.mem.wf t.config.memSize = true)
    (raced : t.mem.raced = []) (log : t.mem.log = []) : t.Inv := by
  rw [← registers]
  exact {
    memory := memory
    raced := fun a racing => absurd (raced ▸ racing) List.not_mem_nil
    cmdPtr := rfl
    irqEn := BitVec.zero_and
    gainIdx := BitVec.zero_and
    gains := gainsLegal_unity
    oneEnd := ⟨rfl, rfl, rfl⟩
    running := fun busy => absurd busy Bool.false_ne_true
    stopPending := fun pending => absurd pending Bool.false_ne_true
    executing := fun executing => absurd executing Bool.false_ne_true
    faultCause := fun fault => absurd fault Bool.false_ne_true
    faultInfo := fun _ => rfl
    idle := fun _ => ⟨raced, log, rfl⟩
    boundaries := fun _ none => absurd none List.not_mem_nil }

theorem inv_resetStrobe (legal : s.Inv) : s.resetStrobe.Inv := by
  cases busy : s.busy with
  | false =>
    obtain ⟨raced, log, -⟩ := legal.idle busy
    have memory : s.resetStrobe.mem = s.mem := by rw [resetStrobe_mem, busy]; rfl
    exact inv_of_reset rfl (memory ▸ legal.memory) (memory ▸ raced) (memory ▸ log)
  | true =>
    have memory : s.resetStrobe.mem = (s.mem.cutShort s.wholeMemory (inFlightBytes s)).endRun := by
      rw [resetStrobe_mem, busy]; rfl
    exact inv_of_reset rfl (memory ▸ endRun_wf (cutShort_wf _ legal.memory (inFlightBytes_lt s)) legal.raced)
      (memory ▸ rfl) (memory ▸ rfl)

theorem inv_powerOn (s : State) : s.powerOn.Inv := inv_of_reset rfl rfl rfl rfl

/-- Settles O43: reset is the reset of its own registers over an empty memory. -/
theorem resetStateIsLegal : Obligations.ResetStateIsLegal := inv_of_reset rfl rfl rfl rfl

/-! ## The register window (R25 to R33) -/

theorem inv_startRun (legal : s.Inv) : s.startRun.Inv :=
  { legal with
    oneEnd := ⟨rfl, rfl, rfl⟩
    running := fun _ => ⟨rfl, rfl, rfl, rfl, rfl⟩
    stopPending := fun _ => rfl
    executing := fun executing => absurd executing Bool.false_ne_true
    faultCause := fun fault => absurd fault Bool.false_ne_true
    faultInfo := fun _ => rfl
    idle := fun idle => absurd idle.symm Bool.false_ne_true
    boundaries := List.forall_mem_singleton.mpr ⟨legal.cmdPtr, legal.gains⟩ }

theorem inv_stopRequest (legal : s.Inv) (stop : Bool) :
    (if stop && s.busy then { s with stopPending := true } else s).Inv := by
  split
  · next stops => exact { legal with stopPending := fun _ => (Bool.and_eq_true_iff.mp stops).2 }
  · exact legal

theorem inv_writeCtrl (legal : s.Inv) (v : Word) : (s.writeCtrl v).Inv := by
  have started : (if v.getLsbD 0 && !s.busy then s.startRun else s).Inv := by
    split
    · exact inv_startRun legal
    · exact legal
  unfold State.writeCtrl
  split
  · exact inv_resetStrobe legal
  · exact inv_stopRequest started _

theorem inv_writeStatus (legal : s.Inv) (v : Word) : (s.writeStatus v).Inv := by
  have cleared : ∀ {b c : Bool}, (b && c) = false → ∀ b' c' : Bool, ((b && b') && (c && c')) = false := by decide
  obtain ⟨doneFault, doneStopped, faultStopped⟩ := legal.oneEnd
  exact { legal with
    oneEnd := ⟨cleared doneFault .., cleared doneStopped .., cleared faultStopped ..⟩
    running := fun busy => by
      obtain ⟨done, fault, stopped, registers⟩ := legal.running busy
      rw [writeStatus_done, writeStatus_fault, writeStatus_stopped, done, fault, stopped]
      exact ⟨rfl, rfl, rfl, registers⟩
    faultCause := fun fault => legal.faultCause (Bool.and_eq_true_iff.mp fault).1 }

/-- A register write under a mask leaves the bits outside it 0. -/
theorem masked_and (v : Word) {mask reserved : Word} (disjoint : mask &&& reserved = 0) :
    v &&& mask &&& reserved = 0 := by
  rw [BitVec.and_assoc, disjoint]
  exact BitVec.and_zero

/-- CMD_PTR's mask leaves a multiple of 32 (R28). -/
theorem masked_aligned (v : Word) : (v &&& 0xFFFFFFE0).toNat % 32 = 0 := by
  have low := congrArg BitVec.toNat (masked_and v (mask := 0xFFFFFFE0) (reserved := 0x1F) rfl)
  rw [BitVec.toNat_and] at low
  exact (Nat.and_two_pow_sub_one_eq_mod _ 5).symm.trans low

theorem inv_writeGainData (legal : s.Inv) (v : Word) : (s.writeGainData v).Inv :=
  { legal with
    gains := gainSet_legal legal.gains (by
      split
      · assumption
      · exact BitVec.le_refl _) }

/-- During a run the writes of CMD_PTR, LFSR and GAIN_DATA are ignored (R39). -/
theorem inv_unless_busy {t : State} (legal : s.Inv) (written : t.Inv) : (if s.busy then s else t).Inv := by
  split
  · exact legal
  · exact written

theorem inv_writeRegister (legal : s.Inv) (offset : Nat) (v : Word) : (s.writeRegister offset v).Inv := by
  unfold State.writeRegister
  split
  · exact inv_writeCtrl legal v
  · exact inv_writeStatus legal v
  · exact { legal with irqEn := masked_and v rfl }
  · exact inv_unless_busy legal { legal with cmdPtr := masked_aligned v }
  · exact inv_unless_busy legal { legal with }
  · exact { legal with gainIdx := masked_and v rfl }
  · exact inv_unless_busy legal (inv_writeGainData legal v)
  · exact legal

/-! ## The host (R53, R58, R59) -/

theorem inv_afterAccess (legal : s.Inv) (reply : Reply) : (s.afterAccess reply).Inv := { legal with }

theorem inv_seenStatus (legal : s.Inv) (offset : Nat) : (s.seenStatus offset).Inv := by
  unfold State.seenStatus
  split
  · exact { legal with }
  · exact legal

/-- The addresses that race with the run after a host write of one byte. -/
theorem mem_hostWrite_raced {m : Memory} {busy : Bool} {a x : Nat} {b : Byte} :
    x ∈ (m.hostWrite busy a b).raced ↔ x ∈ m.raced ∨ (busy = true ∧ x = a) := by
  unfold Memory.hostWrite
  cases busy <;> by_cases known : a ∈ m.raced <;> simp [known, or_comm]
  rintro rfl
  exact known

theorem inv_hostWrite (legal : s.Inv) {a : Nat} (inRange : a < s.config.memSize) (b : Byte) :
    State.Inv { s with mem := s.mem.hostWrite s.busy a b } :=
  { legal with
    memory := hostWrite_wf _ _ legal.memory inRange
    raced := fun x racing => by
      obtain racing | ⟨-, rfl⟩ := mem_hostWrite_raced.mp racing
      · exact legal.raced x racing
      · exact inRange
    idle := fun idle => by
      obtain ⟨raced, rest⟩ := legal.idle idle
      refine ⟨List.eq_nil_iff_forall_not_mem.mpr fun x racing => ?_, rest⟩
      obtain racing | ⟨busy, -⟩ := mem_hostWrite_raced.mp racing
      · exact absurd (raced ▸ racing) List.not_mem_nil
      · exact absurd (busy.symm.trans idle) Bool.noConfusion }

theorem inv_hostAct {t : State} (legal : s.Inv) (a : HostAction) (acted : hostAct a s = .next t) : t.Inv := by
  cases a with
  | windowRead offset bytes =>
    simp only [hostAct] at acted
    split at acted
    · cases acted
      exact inv_afterAccess (inv_seenStatus legal _) _
    · cases acted
  | windowWrite offset bytes v =>
    simp only [hostAct] at acted
    split at acted
    · cases acted
      exact inv_afterAccess (inv_writeRegister legal _ v) _
    · cases acted
  | memRead addr =>
    simp only [hostAct] at acted
    split at acted
    · cases acted
      exact inv_afterAccess legal _
    · cases acted
  | memWrite addr v =>
    simp only [hostAct] at acted
    split at acted
    · next inRange =>
      cases acted
      exact inv_afterAccess (inv_hostWrite legal (of_decide_eq_true inRange) v) _
    · cases acted
  | powerOn =>
    cases acted
    exact inv_afterAccess (inv_powerOn s) _

/-! ## Every step (R242) -/

/-- Settles O44: whose turn it is decides the step, and each of the sequencer's turn, the boundary it passes and the
host's action keeps legality. -/
theorem everyStepKeepsLegality : Obligations.EveryStepKeepsLegality := by
  intro s t legal stepped
  unfold step turn at stepped
  split at stepped
  · exact inv_sequencerStep legal stepped
  · exact inv_sequencerStep (inv_schedule legal _) stepped
  · cases stepped
    exact inv_beginCommand (inv_schedule legal _)
  · exact inv_hostAct (inv_schedule legal _) _ stepped

end Sys2Proof.Proofs
end

section
/-! SUPPORT. The sequencer's step in a run (R90 to R98): the words it fetches, the check that fails first, the stop it
takes, and that a run in a small memory ends (R243); the statements about them. -/

namespace Sys2Proof.Proofs

open Sys2Proof.Machine Sys2Proof.Laws

/-! ## The words at CMD_PTR (R49(a), R92) -/

/-- Byte j of word k is byte 4 k + j of the words in memory order. -/
theorem wordBytes_getElem? (ws : List Word) (k : Nat) {j : Nat} (inWord : j < 4) :
    (ws.flatMap wordBytes)[4 * k + j]? = ws[k]?.bind fun w => (wordBytes w)[j]? := by
  induction ws generalizing k with
  | nil => rfl
  | cons w ws ih =>
    have four : (wordBytes w).length = 4 := rfl
    rw [List.flatMap_cons]
    cases k with
    | zero => rw [List.getElem?_append_left (by omega), Nat.mul_zero, Nat.zero_add]; rfl
    | succ k => rw [List.getElem?_append_right (by omega), four, List.getElem?_cons_succ, ← ih k]; congr 1; omega

/-- Four little-endian bytes read as the word they are the bytes of. -/
theorem read_wordBytes {m : Memory} {a : Nat} {w : Word} (key : Nat) (quiet : m.raced = [])
    (bytes : ∀ j < 4, (wordBytes w)[j]? = some (m.peek (a + j))) : m.read key a 4 = w.toNat := by
  have b0 : byte0 w = m.peek a := Option.some.inj (bytes 0 (by omega))
  have b1 : byte1 w = m.peek (a + 1) := Option.some.inj (bytes 1 (by omega))
  have b2 : byte2 w = m.peek (a + 1 + 1) := Option.some.inj (bytes 2 (by omega))
  have b3 : byte3 w = m.peek (a + 1 + 1 + 1) := Option.some.inj (bytes 3 (by omega))
  conv_rhs => rw [← pack_bytes w, toNat_pack, b0, b1, b2, b3]
  simp only [read_succ, read_zero, blockByte_quiet _ _ quiet]
  omega

theorem fetchWords_eq {s : State} {w : Words} (quiet : s.quiet)
    (bytes : ∀ k < 32, (w.toList.flatMap wordBytes)[k]? = some (s.mem.peek (s.cmdPtr.toNat + k))) :
    fetchWords s = w := by
  have word : ∀ (k : Nat) (v : Word), k < 8 → w.toList[k]? = some v → fetchWord s k = v := fun k v low found => by
    have four : ∀ j < 4, (wordBytes v)[j]? = some (s.mem.peek (s.cmdPtr.toNat + 4 * k + j)) := fun j inWord => by
      have byte := bytes (4 * k + j) (by omega)
      rw [wordBytes_getElem? _ _ inWord, found, ← Nat.add_assoc] at byte
      exact byte
    rw [fetchWord, read_wordBytes fetchKey quiet four, BitVec.ofNat_toNat, BitVec.setWidth_eq]
  rw [fetchWords, word 0 w.w0 (by omega) rfl, word 1 w.w1 (by omega) rfl, word 2 w.w2 (by omega) rfl,
    word 3 w.w3 (by omega) rfl, word 4 w.w4 (by omega) rfl, word 5 w.w5 (by omega) rfl, word 6 w.w6 (by omega) rfl,
    word 7 w.w7 (by omega) rfl]

/-- A descriptor in memory that decodes makes the step its command's. -/
theorem runCommand_decoded {s : State} {i : Instr} (inRange : s.cmdPtr.toNat + 32 ≤ s.config.memSize)
    (decodes : decode (fetchWords s) = .ok i) : runCommand s = exec i s := by
  obtain ⟨outside, -⟩ | ⟨-, ⟨f, rejected, -⟩ | ⟨i', decodes', runs⟩⟩ := runCommand_cases s
  · exact absurd inRange (Nat.not_le.mpr outside)
  · cases decodes.symm.trans rejected
  · cases decodes.symm.trans decodes'
    exact runs

/-- Settles O8: a fetching step is the decoded command's; and the words of 32 bytes that are an encoding decode to the
encoded command. -/
theorem stepRunsDecodedCommand : Obligations.StepRunsDecodedCommand := by
  intro s i fetching
  have runs : decode (fetchWords s) = .ok i → step s = exec i s := fun decodes =>
    (step_fetching fetching).trans (runCommand_decoded fetching.inRange decodes)
  refine ⟨runs, fun quiet bytes => runs ?_⟩
  rw [fetchWords_eq quiet bytes]
  exact decode_encode i

/-! ## Stops, idling and HALT (R90, R93, R95, R97) -/

theorem step_sequencer {s : State} (schedule : s.schedule = []) : step s = sequencerStep s := by
  simp only [step, turn, schedule]

theorem step_stop {s : State} (schedule : s.schedule = []) (busy : s.busy = true) (pending : s.stopPending = true)
    (boundary : s.executing = false) : step s = .next s.takeStop := by
  simp [step_sequencer schedule, sequencerStep, State.stopsHere, busy, pending, boundary]

theorem step_idle {s : State} (schedule : s.schedule = []) (idle : s.busy = false) : step s = .next s := by
  simp [step_sequencer schedule, sequencerStep, State.stopsHere, idle]

theorem step_running {s : State} (schedule : s.schedule = []) (busy : s.busy = true) (noStop : s.stopsHere = false) :
    step s = runCommand s := by
  simp [step_sequencer schedule, sequencerStep, noStop, busy]

/-- Settles O9: at a boundary the step is the stop; while a command executes it is the command, and one that completes
leaves the stop to the boundary it reaches. -/
theorem stopIsTakenAtBoundary : Obligations.StopIsTakenAtBoundary := by
  intro s schedule busy pending
  refine ⟨fun boundary => ?atBoundary, fun executing inRange i decodes => ?executing⟩
  case atBoundary =>
    exact ⟨_, step_stop schedule busy pending boundary, takeStop_busy s, takeStop_stopped s, takeStop_stopPending s,
      takeStop_cmdPtr s, takeStop_done s, takeStop_fault s, takeStop_faultCause s, takeStop_faultInfo s,
      takeStop_lfsr s, takeStop_gains s, takeStop_irqEn s, takeStop_gainIdx s, fun quiet a => endRun_peek a quiet⟩
  case executing =>
    have noStop : s.stopsHere = false := by rw [State.stopsHere, executing, Bool.not_true, Bool.and_false]
    have runs : step s = exec i s := (step_running schedule busy noStop).trans (runCommand_decoded inRange decodes)
    refine ⟨?halt, fun f fails => ?fault, fun checked passes => ?completes⟩
    case halt =>
      rintro rfl
      exact ⟨_, runs, takeHalt_busy s, takeHalt_done s, takeHalt_stopped s, takeHalt_stopPending s⟩
    case fault =>
      exact ⟨_, runs.trans (exec_of_commandCheck fails), takeFault_busy s f, takeFault_fault s f,
        takeFault_stopped s f, takeFault_stopPending s f, takeFault_faultCause s f⟩
    case completes =>
      have completed := exec_eq_advance checked passes
      have next := step_stop (s := (affected i s).advance) schedule busy pending rfl
      exact ⟨_, _, completed, runs.trans completed, completedTo_affected i s, next, rfl, rfl, rfl, rfl, rfl, rfl,
        fun quiet a => endRun_peek a (affected_quiet quiet i)⟩

/-- Settles O10: with BUSY = 0 there is no turn to take, and a descriptor out of memory is not fetched. -/
theorem sequencerIdlesOrFaultsWithoutFetch : Obligations.SequencerIdlesOrFaultsWithoutFetch := by
  refine fun s schedule => ⟨step_idle schedule, fun busy noStop outside => ?_⟩
  rw [step_running schedule busy noStop]
  obtain ⟨-, faults⟩ | ⟨inRange, -⟩ := runCommand_cases s
  · exact faults
  · exact absurd inRange (Nat.not_le.mpr outside)

/-- Settles O16: HALT is the end of a run with DONE, for which no host may have raced if memory is to stay. -/
theorem haltEndsTheRun : Obligations.HaltEndsTheRun := fun s =>
  ⟨_, rfl, takeHalt_busy s, takeHalt_done s, takeHalt_stopPending s, takeHalt_cmdPtr s, takeHalt_fault s,
    takeHalt_stopped s, takeHalt_faultCause s, takeHalt_faultInfo s, takeHalt_lfsr s, takeHalt_gains s,
    takeHalt_irqEn s, takeHalt_gainIdx s, takeHalt_config s, fun quiet a => endRun_peek a quiet⟩

/-! ## The first check that fails (R100, R101) -/

/-- Settles O12: a command commits its effect only under all of its checks. -/
theorem failedCheckIsPrecise : Obligations.FailedCheckIsPrecise := fun _ _ _ fails => exec_of_commandCheck fails

/-- With legal fields the first memory check that fails is the command's fault. -/
theorem exec_of_memoryCheck {i : Instr} {s : State} {f : FaultReport} (legal : i.wf = true)
    (fails : memoryCheck i s = some f) : exec i s = .next (s.takeFault f) :=
  exec_of_commandCheck (by rw [commandCheck, (fieldFault_none_iff_wf i).mpr legal, fails, Option.none_or])

section Order

variable {a : Word} {c : Config} {n : Nat}

theorem checkAlign8_or_misaligned (misaligned : a.toNat % 8 ≠ 0) (rest : Option FaultReport) :
    (checkAlign8 a).or rest = some ⟨.misaligned, a⟩ := by
  rw [checkAlign8_some misaligned, Option.some_or]

theorem checkAlign8_or_aligned (aligned : a.toNat % 8 = 0) (rest : Option FaultReport) :
    (checkAlign8 a).or rest = rest := by
  rw [(checkAlign8_none a).mpr aligned, Option.none_or]

theorem checkRange_or_outside (outside : c.memSize < a.toNat + n) (rest : Option FaultReport) :
    (checkRange c a n).or rest = some ⟨.access, a⟩ := by
  rw [checkRange_some outside, Option.some_or]

theorem checkRange_or_inside (inside : a.toNat + n ≤ c.memSize) (rest : Option FaultReport) :
    (checkRange c a n).or rest = rest := by
  rw [(checkRange_none ..).mpr inside, Option.none_or]

end Order

/-- Settles O14: the checks of each command stand in the order of the spans, each reached when those before it pass. -/
theorem spanChecksFaultInOrder : Obligations.SpanChecksFaultInOrder := by
  refine ⟨?wire, ?maxv, ?mix, ?comp⟩
  case wire =>
    intro fmt count src dst s legal counted
    refine ⟨fun misaligned => ?_, fun aligned outside => ?_, fun aligned inside outside => ?_, fun misaligned => ?_,
      fun aligned outside => ?_, fun aligned inside outside => ?_, fun outside => ?_⟩ <;>
      refine exec_of_memoryCheck legal ((if_neg counted).trans ?_)
    · exact checkAlign8_or_misaligned misaligned _
    · rw [checkAlign8_or_aligned aligned, checkRange_or_outside outside]
    · rw [checkAlign8_or_aligned aligned, checkRange_or_inside inside, checkRange_some (by omega)]
    · exact checkAlign8_or_misaligned misaligned _
    · rw [checkAlign8_or_aligned aligned, checkRange_or_outside (by omega)]
    · rw [checkAlign8_or_aligned aligned, checkRange_or_inside (by omega), checkRange_some outside]
    · exact checkRange_some outside
  case maxv =>
    intro fmt dst s legal
    refine ⟨fun misaligned => exec_of_memoryCheck legal (checkAlign8_or_misaligned misaligned _),
      fun aligned outside => exec_of_memoryCheck legal ?_⟩
    exact (checkAlign8_or_aligned aligned _).trans (checkRange_some outside)
  case mix =>
    intro flags shift count src dst volume s srcLegal dstLegal shiftLegal counted
    refine ⟨fun misaligned => ?_, fun aligned misaligned => ?_, fun srcAligned dstAligned outside => ?_,
      fun srcAligned dstAligned inside outside => ?_⟩ <;>
      refine exec_of_memoryCheck (mix_wf srcLegal dstLegal shiftLegal) ((if_neg counted).trans ?_)
    · rw [checkAlign8_or_misaligned misaligned, Option.some_or]
    · rw [checkAlign8_or_aligned aligned, checkAlign8_or_misaligned misaligned]
    · rw [checkAlign8_or_aligned srcAligned, checkAlign8_or_aligned dstAligned]
      exact checkRange_or_outside outside _
    · rw [checkAlign8_or_aligned srcAligned, checkAlign8_or_aligned dstAligned]
      exact (checkRange_or_inside inside _).trans (checkRange_some outside)
  case comp =>
    intro fmt count buf nch par s fmtLegal nchLegal parLegal counted
    refine ⟨fun misaligned => ?_, fun aligned outside => ?_⟩ <;>
      refine exec_of_memoryCheck (comp_wf fmtLegal nchLegal parLegal) ((if_neg (by simpa using counted)).trans ?_)
    · exact checkAlign8_or_misaligned misaligned _
    · rw [checkAlign8_or_aligned aligned, checkRange_some outside]

/-! ## A run in a small memory ends (R243) -/

/-- A step with no host action in it ends the run or moves CMD_PTR up to the next descriptor. -/
theorem step_ends_or_advances {s : State} (schedule : s.schedule = []) (busy : s.busy = true)
    (small : s.config.memSize < 2 ^ 32) :
    ∃ t, step s = .next t ∧ t.schedule = [] ∧
      (t.busy = false ∨ t.busy = true ∧ t.config = s.config ∧ t.cmdPtr.toNat = s.cmdPtr.toNat + 32 ∧
        s.cmdPtr.toNat + 32 ≤ s.config.memSize) := by
  rw [step_sequencer schedule]
  obtain ⟨-, -, -, stops⟩ | ⟨-, -, runs⟩ | ⟨idle, -⟩ := sequencerStep_cases s
  · exact ⟨_, stops, schedule, .inl rfl⟩
  · obtain ⟨t, answered, answer⟩ := runCommand_answers s
    refine ⟨t, runs.trans answered, ?_⟩
    cases answer with
    | fault | halt => exact ⟨schedule, .inl rfl⟩
    | completes i inRange =>
      refine ⟨schedule, .inr ⟨busy, rfl, ?_, inRange⟩⟩
      change (s.cmdPtr.toNat + 32) % 2 ^ 32 = s.cmdPtr.toNat + 32
      exact Nat.mod_eq_of_lt (by omega)
  · exact absurd (busy.symm.trans idle) Bool.noConfusion

theorem run_succ {s t : State} (stepped : step s = .next t) (n : Nat) :
    Host.Core.run core (n + 1) s = Host.Core.run core n t := by
  simp only [Host.Core.run, show core.step s = .next t from stepped]

/-- An idle block stays as it is. -/
theorem run_idle {s : State} (schedule : s.schedule = []) (idle : s.busy = false) (n : Nat) :
    Host.Core.run core n s = .next s := by
  induction n with
  | zero => rfl
  | succ n ih => exact (run_succ (step_idle schedule idle) n).trans ih

theorem endsWithin_succ {s t : State} {n : Nat} (stepped : step s = .next t) (ends : t.endsWithin n) :
    s.endsWithin (n + 1) := by
  obtain ⟨u, run, idle⟩ := ends
  exact ⟨u, (run_succ stepped n).trans run, idle⟩

/-- From a descriptor `n` steps of 32 bytes below the last that fits, `n + 1` steps are enough. -/
theorem endsWithin_of_memSize_lt {s : State} {n : Nat} (schedule : s.schedule = []) (busy : s.busy = true)
    (small : s.config.memSize < 2 ^ 32) (close : s.config.memSize < s.cmdPtr.toNat + 32 * (n + 1)) :
    s.endsWithin (n + 1) := by
  induction n generalizing s with
  | zero =>
    obtain ⟨t, stepped, -, idle | ⟨-, -, -, inRange⟩⟩ := step_ends_or_advances schedule busy small
    · exact endsWithin_succ stepped ⟨t, rfl, idle⟩
    · omega
  | succ n ih =>
    obtain ⟨t, stepped, schedule', idle | ⟨busy', config, cmdPtr, -⟩⟩ := step_ends_or_advances schedule busy small
    · exact endsWithin_succ stepped ⟨t, run_idle schedule' idle _, idle⟩
    · exact endsWithin_succ stepped (ih schedule' busy' (config ▸ small) (by rw [config]; omega))

/-- Settles O45: each step that does not end the run moves CMD_PTR up by 32, and it cannot wrap in so small a memory. -/
theorem runsEndInASmallMemory : Obligations.RunsEndInASmallMemory := fun _ schedule busy _ small =>
  endsWithin_of_memSize_lt schedule busy small (by omega)

end Sys2Proof.Proofs
end

section
/-! SUPPORT. The conversions between wire samples and canonical samples (R110 to R125): a signed or offset-binary
pattern as a number, a binary32 pattern as sign, exponent and magnitude, and the statements about ranges and round trips. -/

namespace Sys2Proof.Proofs

open Sys2Proof.Machine Sys2Proof.Laws

/-! ## The bias of an offset-binary pattern (R112) -/

theorem xor_two_pow_of_lt {b k : Nat} (small : b < 2 ^ k) : b ^^^ 2 ^ k = b + 2 ^ k := by
  have clear : ∀ j, k ≤ j → b.testBit j = false := fun j above =>
    Nat.testBit_lt_two_pow (small.trans_le (Nat.pow_le_pow_right two_pos above))
  refine Nat.eq_of_testBit_eq fun j => ?_
  rw [Nat.testBit_xor, Nat.testBit_two_pow, Nat.add_comm]
  obtain below | rfl | above := Nat.lt_trichotomy j k
  · simp [Nat.testBit_two_pow_add_gt below, below.ne']
  · simp [Nat.testBit_two_pow_add_eq]
  · have bound : 2 ^ k + b < 2 ^ j :=
      (show 2 ^ k + b < 2 ^ (k + 1) by rw [Nat.pow_succ]; omega).trans_le (Nat.pow_le_pow_right two_pos above)
    simp [Nat.testBit_lt_two_pow bound, clear j above.le, above.ne]

/-- Flipping the top bit adds the bias to a pattern below it and takes it from one above. -/
theorem xor_two_pow {b k : Nat} (pattern : b < 2 ^ (k + 1)) :
    b ^^^ 2 ^ k = if b < 2 ^ k then b + 2 ^ k else b - 2 ^ k := by
  rw [Nat.pow_succ] at pattern
  split
  · next small => exact xor_two_pow_of_lt small
  · next large =>
    have unflipped : b = (b - 2 ^ k) ^^^ 2 ^ k := by rw [xor_two_pow_of_lt (by omega)]; omega
    conv_lhs => rw [unflipped, Nat.xor_assoc, Nat.xor_self, Nat.xor_zero]

/-- The number whose two's-complement pattern is given. -/
theorem sext_eq {k v : Nat} (pattern : v < 2 ^ (k + 1)) :
    sext (k + 1) v = if v < 2 ^ k then (v : Int) else (v : Int) - 2 ^ (k + 1) := by
  rw [sext, BitVec.toInt_eq_toNat_cond, BitVec.toNat_ofNat, Nat.mod_eq_of_lt pattern]
  have half : 2 * v < 2 ^ (k + 1) ↔ v < 2 ^ k := by rw [Nat.pow_succ]; omega
  simp only [half, Nat.cast_pow, Nat.cast_ofNat]

/-! ## The clamp (R11) -/

theorem clamp_of_range {v lo hi : Int} (low : lo ≤ v) (high : v ≤ hi) : clamp v lo hi = v := by
  rw [clamp, if_neg (Int.not_lt.mpr low), if_neg (Int.not_lt.mpr high)]

theorem clamp_of_lt {v lo : Int} (below : v < lo) (hi : Int) : clamp v lo hi = lo := if_pos below

theorem clamp_of_gt {v lo hi : Int} (range : lo ≤ hi) (above : hi < v) : clamp v lo hi = hi := by
  rw [clamp, if_neg (by omega), if_pos above]

/-! ## Integer formats (R112, R117, R120) -/

section Integer

variable {fmt : Byte} {raw : Nat} {v : Int}

theorem fmtWidth_eq_succ (fmt : Byte) : fmtWidth fmt = fmtWidth fmt - 1 + 1 := by
  have := fmtBytes_pos fmt
  unfold fmtWidth
  omega

theorem two_pow_fmtWidth (fmt : Byte) : 2 ^ fmtWidth fmt = 2 ^ (fmtWidth fmt - 1) + 2 ^ (fmtWidth fmt - 1) := by
  conv_lhs => rw [fmtWidth_eq_succ, Nat.pow_succ, Nat.mul_two]

theorem maxOf_integer (integer : fmtFloat fmt = false) : maxOf fmt = ((2 ^ (fmtWidth fmt - 1) : Nat) : Int) - 1 := by
  simp [maxOf, integer]

theorem minOf_integer (integer : fmtFloat fmt = false) : minOf fmt = -((2 ^ (fmtWidth fmt - 1) : Nat) : Int) := by
  simp [minOf, integer]

/-- A pattern and its pattern without the bias: each is the other's, for they differ in the top bit alone. -/
def biased (fmt : Byte) (raw : Nat) : Nat := if fmtUnsigned fmt then raw ^^^ 2 ^ (fmtWidth fmt - 1) else raw

theorem biased_biased (fmt : Byte) (raw : Nat) : biased fmt (biased fmt raw) = raw := by
  unfold biased
  split
  · rw [Nat.xor_assoc, Nat.xor_self, Nat.xor_zero]
  · rfl

theorem biased_lt (pattern : raw < 2 ^ fmtWidth fmt) : biased fmt raw < 2 ^ fmtWidth fmt := by
  unfold biased
  split
  · exact Nat.xor_lt_two_pow pattern (Nat.pow_lt_pow_right Nat.one_lt_two (by have := fmtWidth_eq_succ fmt; omega))
  · exact pattern

theorem decodeInt_eq (fmt : Byte) (raw : Nat) : decodeInt fmt raw = sext (fmtWidth fmt) (biased fmt raw) := rfl

/-- R112 on a pattern of W bits: an unsigned pattern less the bias, or the two's-complement number. -/
theorem decodeInt_pattern (pattern : raw < 2 ^ fmtWidth fmt) :
    decodeInt fmt raw =
      if fmtUnsigned fmt then (raw : Int) - 2 ^ (fmtWidth fmt - 1)
      else if raw < 2 ^ (fmtWidth fmt - 1) then (raw : Int) else (raw : Int) - 2 ^ fmtWidth fmt := by
  have flipped := biased_lt pattern
  have width := two_pow_fmtWidth fmt
  rw [decodeInt_eq]
  rw [fmtWidth_eq_succ] at pattern flipped ⊢
  rw [sext_eq flipped, Nat.add_sub_cancel]
  cases unsigned : fmtUnsigned fmt with
  | false => simp [biased, unsigned]
  | true =>
    have bias : ((2 : Int) ^ (fmtWidth fmt - 1)) = ((2 ^ (fmtWidth fmt - 1) : Nat) : Int) := by push_cast; rfl
    have full : ((2 : Int) ^ (fmtWidth fmt - 1 + 1)) = ((2 ^ (fmtWidth fmt - 1 + 1) : Nat) : Int) := by push_cast; rfl
    simp only [biased, unsigned, if_true]
    rw [xor_two_pow pattern, bias, full]
    rw [Nat.pow_succ] at pattern ⊢
    split_ifs <;> omega

/-- Every import of an integer format is in the format's range, whatever bits lie above the pattern. -/
theorem decodeInt_range (integer : fmtFloat fmt = false) (raw : Nat) :
    minOf fmt ≤ decodeInt fmt raw ∧ decodeInt fmt raw ≤ maxOf fmt := by
  have low := BitVec.le_toInt (BitVec.ofNat (fmtWidth fmt) (biased fmt raw))
  have high := BitVec.toInt_lt (x := BitVec.ofNat (fmtWidth fmt) (biased fmt raw))
  rw [maxOf_integer integer, minOf_integer integer, decodeInt_eq, sext]
  push_cast
  omega

/-- The pattern of a number of the format's range, before the bias. -/
theorem encodeInt_eq (low : minOf fmt ≤ v) (high : v ≤ maxOf fmt) :
    encodeInt fmt v = biased fmt (v % 2 ^ fmtWidth fmt).toNat := by
  simp only [encodeInt, clamp_of_range low high]
  rfl

/-- The low W bits of a two's-complement number are its pattern. -/
theorem sext_emod (n v : Nat) : sext n v % 2 ^ n = ((v % 2 ^ n : Nat) : Int) := by
  have cast : (2 : Int) ^ n = ((2 ^ n : Nat) : Int) := by push_cast; rfl
  rw [sext, BitVec.toInt_eq_toNat_bmod, BitVec.toNat_ofNat, cast, Int.bmod_emod]
  push_cast
  exact Int.emod_emod_of_dvd _ dvd_rfl

/-- A number of the format's range is the number of its pattern. -/
theorem sext_of_range {k : Nat} (low : -((2 ^ k : Nat) : Int) ≤ v) (high : v < ((2 ^ k : Nat) : Int)) :
    sext (k + 1) (v % 2 ^ (k + 1)).toNat = v := by
  have full : ((2 : Int) ^ (k + 1)) = ((2 ^ k : Nat) : Int) + ((2 ^ k : Nat) : Int) := by push_cast; ring
  have nonneg : 0 ≤ v % 2 ^ (k + 1) := Int.emod_nonneg _ (by positivity)
  have below : v % 2 ^ (k + 1) < 2 ^ (k + 1) := Int.emod_lt_of_pos _ (by positivity)
  have wrapped : v % 2 ^ (k + 1) = if 0 ≤ v then v else v + 2 ^ (k + 1) := by
    split
    · exact Int.emod_eq_of_lt (by omega) (by omega)
    · rw [← Int.add_emod_right]
      exact Int.emod_eq_of_lt (by omega) (by omega)
  have nat : ((2 ^ (k + 1) : Nat) : Int) = 2 ^ (k + 1) := by push_cast; rfl
  rw [sext_eq (by omega), wrapped]
  split_ifs <;> omega

end Integer

/-- Settles O17: the imported number is in the format's range, and its low W bits are the pattern without its bias. -/
theorem integerFormatsRoundTrip : Obligations.IntegerFormatsRoundTrip := by
  intro fmt raw _ integer pattern
  obtain ⟨low, high⟩ := decodeInt_range integer raw
  rw [exportSample, importSample, integer, if_neg Bool.false_ne_true, if_neg Bool.false_ne_true, encodeInt_eq low high,
    decodeInt_eq, sext_emod, Int.toNat_natCast, Nat.mod_eq_of_lt (biased_lt pattern), biased_biased]

theorem importSample_integer {fmt : Byte} (integer : fmtFloat fmt = false) (raw : Nat) :
    importSample fmt raw = decodeInt fmt raw := by
  rw [importSample, integer, if_neg Bool.false_ne_true]

theorem importSample_float {fmt : Byte} (float : fmtFloat fmt = true) (raw : Nat) :
    importSample fmt raw = decodeF32 raw := by
  rw [importSample, float, if_pos rfl]

theorem exportSample_integer {fmt : Byte} (integer : fmtFloat fmt = false) (v : Int) :
    exportSample fmt v = encodeInt fmt v := by
  rw [exportSample, integer, if_neg Bool.false_ne_true]

theorem exportSample_float {fmt : Byte} (float : fmtFloat fmt = true) (v : Int) :
    exportSample fmt v = encodeF32 v := by
  rw [exportSample, float, if_pos rfl]

/-! ## binary32: import (R113) -/

/-- A left shift less a right shift, as one shift each way: both round toward minus infinity on a magnitude. -/
theorem shl_natCast (v a b : Nat) : shl (v : Int) ((a : Int) - b) = ((v * 2 ^ a / 2 ^ b : Nat) : Int) := by
  unfold shl
  split
  · obtain ⟨d, rfl⟩ := Nat.exists_eq_add_of_le (show b ≤ a by omega)
    rw [show (((b + d : Nat) : Int) - b).toNat = d by omega, Nat.pow_add, ← Nat.mul_assoc, Nat.mul_right_comm,
      Nat.mul_div_cancel _ (by positivity)]
    push_cast
    rfl
  · obtain ⟨d, rfl⟩ := Nat.exists_eq_add_of_le (show a ≤ b by omega)
    rw [show (-((a : Int) - ((a + d : Nat) : Int))).toNat = d by omega, Nat.pow_add, Nat.mul_comm v,
      Nat.mul_div_mul_left _ _ (by positivity), floorDiv_def]
    push_cast
    rfl

/-- The exponent field of a binary32 pattern. -/
def f32Exponent (raw : Nat) : Nat := raw / 2 ^ 23 % 2 ^ 8

/-- The magnitude of a normal binary32 pattern times 2^31, truncated. -/
def f32Magnitude (raw : Nat) : Nat := (2 ^ 23 + raw % 2 ^ 23) * 2 ^ f32Exponent raw / 2 ^ 119

theorem decodeF32_eq (raw : Nat) :
    decodeF32 raw =
      if f32Exponent raw = 0 then 0
      else if 127 ≤ f32Exponent raw then if raw.testBit 31 then -(2 ^ 31) else 2 ^ 31 - 1
      else if raw.testBit 31 then -(f32Magnitude raw : Int) else f32Magnitude raw := by
  rw [f32Magnitude, ← shl_natCast]
  rfl

theorem testBit_sign {raw : Nat} (pattern : raw < 2 ^ 32) : raw.testBit 31 = decide (2 ^ 31 ≤ raw) := by
  rw [Nat.testBit_eq_decide_div_mod_eq]
  exact decide_eq_decide.mpr (by omega)

/-- Below exponent 127 the magnitude is below 2^31, with 2^7 to spare at the top. -/
theorem f32Magnitude_le {raw : Nat} (finite : f32Exponent raw < 127) : f32Magnitude raw ≤ 2 ^ 31 - 2 ^ 7 := by
  have mantissa : 2 ^ 23 + raw % 2 ^ 23 ≤ 2 ^ 24 - 1 := by omega
  have scale : 2 ^ f32Exponent raw ≤ 2 ^ 126 := Nat.pow_le_pow_right two_pos (by omega)
  calc f32Magnitude raw ≤ (2 ^ 24 - 1) * 2 ^ 126 / 2 ^ 119 := Nat.div_le_div_right (Nat.mul_le_mul mantissa scale)
    _ = 2 ^ 31 - 2 ^ 7 := by norm_num

theorem decodeF32_range (raw : Nat) : -(2 ^ 31) ≤ decodeF32 raw ∧ decodeF32 raw ≤ 2 ^ 31 - 1 := by
  rw [decodeF32_eq]
  by_cases finite : f32Exponent raw < 127
  · have bound := f32Magnitude_le finite
    split_ifs <;> omega
  · split_ifs <;> omega

theorem maxOf_float {fmt : Byte} (float : fmtFloat fmt = true) : maxOf fmt = 2 ^ 31 - 1 := by
  rw [maxOf, float, if_pos rfl]
  rfl

theorem minOf_float {fmt : Byte} (float : fmtFloat fmt = true) : minOf fmt = -(2 ^ 31) := by
  rw [minOf, float, if_pos rfl]
  rfl

/-- Every import is in its format's range, whatever bits lie above the pattern (R114). -/
theorem importSample_range (fmt : Byte) (raw : Nat) :
    minOf fmt ≤ importSample fmt raw ∧ importSample fmt raw ≤ maxOf fmt := by
  cases float : fmtFloat fmt with
  | false =>
    rw [importSample_integer float]
    exact decodeInt_range float raw
  | true =>
    rw [importSample_float float, maxOf_float float, minOf_float float]
    exact decodeF32_range raw

/-- Settles O19: each conversion's formula, and the range that a two's-complement number of W bits, or a magnitude below
2^31, has. -/
theorem importedSamplesAreInRange : Obligations.ImportedSamplesAreInRange := by
  intro fmt raw _
  refine ⟨importSample_range fmt raw, fun integer pattern => ?integer, fun float pattern => ?float⟩
  case integer =>
    rw [importSample_integer integer]
    exact decodeInt_pattern pattern
  case float =>
    intro e magnitude
    have sign : raw.testBit 31 = true ↔ ¬raw < 2 ^ 31 := by rw [testBit_sign pattern, decide_eq_true_iff, Nat.not_lt]
    rw [importSample_float float, decodeF32_eq]
    simp only [sign, ite_not]
    rfl

/-! ## Clamping at the ends of the range (R120, R121, R123) -/

theorem minOf_le_maxOf (fmt : Byte) : minOf fmt ≤ maxOf fmt := by
  cases float : fmtFloat fmt with
  | false =>
    rw [maxOf_integer float, minOf_integer float]
    have : 0 < 2 ^ (fmtWidth fmt - 1) := by positivity
    omega
  | true => rw [maxOf_float float, minOf_float float]; norm_num

/-- What is exported depends on the clamped value alone. -/
theorem exportSample_of_clamp_eq {fmt : Byte} {v w : Int}
    (same : clamp v (minOf fmt) (maxOf fmt) = clamp w (minOf fmt) (maxOf fmt)) :
    exportSample fmt v = exportSample fmt w := by
  cases float : fmtFloat fmt with
  | false => rw [exportSample_integer float, exportSample_integer float, encodeInt, encodeInt, same]
  | true =>
    rw [minOf_float float, maxOf_float float] at same
    rw [exportSample_float float, exportSample_float float, encodeF32, encodeF32, same]

/-- An integer format's pattern of a number of its range imports as that number. -/
theorem decodeInt_encodeInt {fmt : Byte} {v : Int} (integer : fmtFloat fmt = false) (low : minOf fmt ≤ v)
    (high : v ≤ maxOf fmt) : decodeInt fmt (encodeInt fmt v) = v := by
  rw [encodeInt_eq low high, decodeInt_eq, biased_biased]
  obtain ⟨k, width⟩ : ∃ k, fmtWidth fmt = k + 1 := ⟨_, fmtWidth_eq_succ fmt⟩
  rw [minOf_integer integer, width, Nat.add_sub_cancel] at low
  rw [maxOf_integer integer, width, Nat.add_sub_cancel] at high
  rw [width]
  exact sext_of_range low (by omega)

/-- Settles O20: values beyond an end clamp to that end, which is a value of the range. -/
theorem exportClampsToTheRange : Obligations.ExportClampsToTheRange := by
  intro fmt v _
  have range := minOf_le_maxOf fmt
  refine ⟨fun above => exportSample_of_clamp_eq ?_, fun below => exportSample_of_clamp_eq ?_,
    fun integer low high => ?_⟩
  · rw [clamp_of_gt range above, clamp_of_range range le_rfl]
  · rw [clamp_of_lt below, clamp_of_range le_rfl range]
  · rw [exportSample_integer integer, importSample_integer integer, decodeInt_encodeInt integer low high]

/-! ## binary32: encoding (R121) -/

/-- The significand of a magnitude `n` with top bit `k`: truncated to 24 bits, the top one of them 2^23. -/
def f32Significand (n k : Nat) : Nat := n * 2 ^ 23 / 2 ^ k

theorem f32Significand_range {n k : Nat} (low : 2 ^ k ≤ n) (high : n < 2 ^ (k + 1)) :
    2 ^ 23 ≤ f32Significand n k ∧ f32Significand n k < 2 ^ 24 := by
  have positive : 0 < 2 ^ k := by positivity
  rw [Nat.pow_succ] at high
  refine ⟨(Nat.le_div_iff_mul_le positive).mpr ?_, (Nat.div_lt_iff_lt_mul positive).mpr ?_⟩
  · nlinarith
  · nlinarith

theorem encodeF32_zero : encodeF32 0 = 0x00000000 := by decide

theorem encodeF32_of_max_le {v : Int} (high : 2 ^ 31 - 1 ≤ v) : encodeF32 v = 0x3F800000 := by
  have clamped : clamp v (-(2 ^ 31)) (2 ^ 31 - 1) = 2 ^ 31 - 1 := by
    unfold clamp
    split_ifs <;> omega
  simp only [encodeF32, clamped]
  decide

theorem encodeF32_of_le_min {v : Int} (low : v ≤ -(2 ^ 31)) : encodeF32 v = 0xBF800000 := by
  have clamped : clamp v (-(2 ^ 31)) (2 ^ 31 - 1) = -(2 ^ 31) := by
    unfold clamp
    split_ifs <;> omega
  simp only [encodeF32, clamped]
  decide

/-- A value strictly between the extremes, not 0, whose magnitude has top bit `k`. -/
structure F32Interior (v : Int) (k : Nat) : Prop where
  low : -(2 ^ 31) < v
  high : v < 2 ^ 31 - 1
  top : 2 ^ k ≤ v.natAbs
  bound : v.natAbs < 2 ^ (k + 1)

section Interior

variable {v : Int} {k : Nat}

theorem F32Interior.ne_zero (interior : F32Interior v k) : v.natAbs ≠ 0 :=
  (Nat.lt_of_lt_of_le (by positivity) interior.top).ne'

theorem F32Interior.top_le (interior : F32Interior v k) : k ≤ 30 := by
  have below : v.natAbs < 2 ^ 31 := by
    have := interior.low
    have := interior.high
    omega
  exact Nat.lt_succ_iff.mp ((Nat.pow_lt_pow_iff_right Nat.one_lt_two).mp (interior.top.trans_lt below))

/-- Sign, biased exponent and truncated significand of the pattern (R121). -/
theorem encodeF32_interior (interior : F32Interior v k) :
    encodeF32 v = (if v < 0 then 2 ^ 31 else 0) + (k + 96) * 2 ^ 23 + (f32Significand v.natAbs k - 2 ^ 23) := by
  have nonzero := interior.ne_zero
  obtain ⟨low, high, top, bound⟩ := interior
  have log : v.natAbs.log2 = k := (Nat.log2_eq_iff nonzero).mpr ⟨top, bound⟩
  have magnitude : (absInt v).toNat = v.natAbs := by rw [absInt_eq_abs, Int.abs_eq_natAbs, Int.toNat_natCast]
  have shifted : shl (v.natAbs : Int) (23 - (k : Int)) = ((f32Significand v.natAbs k : Nat) : Int) :=
    shl_natCast v.natAbs 23 k
  rw [encodeF32, clamp_of_range low.le high.le, if_neg (by omega), if_neg (by omega), if_neg (by omega)]
  simp only [magnitude, log, shifted, Int.toNat_natCast]

/-- The exponent field of an interior value's pattern, which has 32 bits. -/
theorem encodeF32_interior_fields (interior : F32Interior v k) :
    encodeF32 v < 2 ^ 32 ∧ encodeF32 v / 2 ^ 23 % 2 ^ 8 = k + 96 := by
  obtain ⟨significand, narrow⟩ := f32Significand_range interior.top interior.bound
  have exponent := interior.top_le
  rw [encodeF32_interior interior]
  split_ifs <;> omega

end Interior

/-- Every value is 0, at or beyond an extreme, or interior. -/
theorem f32_cases (v : Int) : v = 0 ∨ 2 ^ 31 - 1 ≤ v ∨ v ≤ -(2 ^ 31) ∨ ∃ k, F32Interior v k := by
  by_cases zero : v = 0
  · exact .inl zero
  by_cases high : 2 ^ 31 - 1 ≤ v
  · exact .inr (.inl high)
  by_cases low : v ≤ -(2 ^ 31)
  · exact .inr (.inr (.inl low))
  obtain ⟨top, bound⟩ := (Nat.log2_eq_iff (Int.natAbs_ne_zero.mpr zero)).mp rfl
  exact .inr (.inr (.inr ⟨_, by omega, by omega, top, bound⟩))

/-- Settles O21: the three special values and the interior ones, whose pattern has its fields side by side. -/
theorem exportedFloatsAreNormal : Obligations.ExportedFloatsAreNormal := by
  intro v
  refine ⟨?patterns, ?zero, encodeF32_of_max_le, encodeF32_of_le_min, ?interior,
    fun _ float => exportSample_float float v⟩
  case patterns =>
    obtain rfl | high | low | ⟨k, interior⟩ := f32_cases v
    · exact ⟨by rw [encodeF32_zero]; norm_num, .inl encodeF32_zero⟩
    · exact ⟨by rw [encodeF32_of_max_le high]; norm_num, .inr (.inl (encodeF32_of_max_le high))⟩
    · exact ⟨by rw [encodeF32_of_le_min low]; norm_num, .inr (.inr (.inl (encodeF32_of_le_min low)))⟩
    · obtain ⟨pattern, exponent⟩ := encodeF32_interior_fields interior
      have := interior.top_le
      exact ⟨pattern, .inr (.inr (.inr (by omega)))⟩
  case zero =>
    rintro rfl
    exact encodeF32_zero
  case interior =>
    intro k _ low high top bound
    rw [Int.abs_eq_natAbs] at top bound ⊢
    have interior : F32Interior v k := ⟨low, high, by exact_mod_cast top, by exact_mod_cast bound⟩
    have significand := (f32Significand_range interior.top interior.bound).1
    rw [encodeF32_interior interior, Nat.cast_add, Nat.cast_sub significand, f32Significand]
    push_cast
    rfl

/-! ## The round trip of a binary32 pattern (R115, R125) -/

section RoundTrip

variable {raw : Nat}

/-- Below exponent 96 the magnitude is less than one canonical step. -/
theorem f32Magnitude_eq_zero (small : f32Exponent raw < 96) : f32Magnitude raw = 0 := by
  have mantissa : 2 ^ 23 + raw % 2 ^ 23 < 2 ^ 24 := by omega
  have scale : 2 ^ f32Exponent raw ≤ 2 ^ 95 := Nat.pow_le_pow_right two_pos (by omega)
  refine Nat.div_eq_of_lt ?_
  calc (2 ^ 23 + raw % 2 ^ 23) * 2 ^ f32Exponent raw < 2 ^ 24 * 2 ^ 95 :=
        Nat.mul_lt_mul_of_lt_of_le mantissa scale (by positivity)
    _ = 2 ^ 119 := by norm_num

/-- From exponent 96 on the magnitude's top bit is the exponent less 96. -/
theorem f32Magnitude_top {k : Nat} (exponent : f32Exponent raw = k + 96) :
    2 ^ k ≤ f32Magnitude raw ∧ f32Magnitude raw < 2 ^ (k + 1) := by
  have scale : (2 : Nat) ^ (k + 96) = 2 ^ k * 2 ^ 96 := Nat.pow_add ..
  have positive : 0 < 2 ^ k := by positivity
  have narrow : raw % 2 ^ 23 < 2 ^ 23 := Nat.mod_lt _ (by positivity)
  have double : 2 ^ (k + 1) = 2 ^ k * 2 := Nat.pow_succ ..
  rw [f32Magnitude, exponent, scale, double]
  refine ⟨(Nat.le_div_iff_mul_le (by positivity)).mpr ?_, (Nat.div_lt_iff_lt_mul (by positivity)).mpr ?_⟩
  · calc 2 ^ k * 2 ^ 119 = 2 ^ 23 * (2 ^ k * 2 ^ 96) := by ring
      _ ≤ (2 ^ 23 + raw % 2 ^ 23) * (2 ^ k * 2 ^ 96) := Nat.mul_le_mul_right _ (Nat.le_add_right ..)
  · calc (2 ^ 23 + raw % 2 ^ 23) * (2 ^ k * 2 ^ 96) < (2 ^ 23 + 2 ^ 23) * (2 ^ k * 2 ^ 96) :=
          Nat.mul_lt_mul_of_pos_right (by omega) (by positivity)
      _ = 2 ^ k * 2 * 2 ^ 119 := by ring

/-- The significand survives the truncation to a canonical sample exactly when no bit of it falls below the last. -/
theorem significand_f32Magnitude {k : Nat} (exponent : f32Exponent raw = k + 96) :
    f32Significand (f32Magnitude raw) k = 2 ^ 23 + raw % 2 ^ 23 ↔
      (2 ^ 23 + raw % 2 ^ 23) % 2 ^ (119 - f32Exponent raw) = 0 := by
  rw [f32Significand, f32Magnitude, exponent]
  generalize 2 ^ 23 + raw % 2 ^ 23 = m
  obtain above | below := Nat.le_total 23 k
  · obtain ⟨d, rfl⟩ := Nat.exists_eq_add_of_le above
    have lossless : m * 2 ^ (23 + d + 96) / 2 ^ 119 * 2 ^ 23 / 2 ^ (23 + d) = m := by
      rw [show 23 + d + 96 = d + 119 by omega, Nat.pow_add 2 d 119, ← Nat.mul_assoc m,
        Nat.mul_div_cancel _ (by positivity), Nat.mul_assoc, ← Nat.pow_add, Nat.add_comm d,
        Nat.mul_div_cancel _ (by positivity)]
    rw [lossless, show 119 - (23 + d + 96) = 0 by omega, Nat.pow_zero, Nat.mod_one]
    simp
  · obtain ⟨d, bits⟩ := Nat.exists_eq_add_of_le below
    have truncated : m * 2 ^ (k + 96) / 2 ^ 119 * 2 ^ 23 / 2 ^ k = m / 2 ^ d * 2 ^ d := by
      rw [show 119 = d + (k + 96) by omega, Nat.pow_add 2 d, Nat.mul_div_mul_right _ _ (by positivity), bits,
        Nat.pow_add 2 k, Nat.mul_comm (2 ^ k), ← Nat.mul_assoc, Nat.mul_div_cancel _ (by positivity)]
    rw [truncated, show 119 - (k + 96) = d by omega, ← Nat.dvd_iff_mod_eq_zero, ← Nat.dvd_iff_div_mul_eq]

/-- The interior value that a pattern with exponent 96 to 126 imports as. -/
theorem decodeF32_interior {k : Nat} (exponent : f32Exponent raw = k + 96) (finite : k ≤ 30) :
    F32Interior (decodeF32 raw) k ∧ (decodeF32 raw).natAbs = f32Magnitude raw ∧
      (decodeF32 raw < 0 ↔ raw.testBit 31 = true) := by
  obtain ⟨top, bound⟩ := f32Magnitude_top exponent
  have spare := f32Magnitude_le (raw := raw) (by omega)
  have positive : 0 < 2 ^ k := by positivity
  have value : decodeF32 raw = if raw.testBit 31 then -(f32Magnitude raw : Int) else f32Magnitude raw := by
    rw [decodeF32_eq, if_neg (by omega), if_neg (by omega)]
  have magnitude : (decodeF32 raw).natAbs = f32Magnitude raw := by rw [value]; split <;> omega
  refine ⟨⟨?_, ?_, magnitude ▸ top, magnitude ▸ bound⟩, magnitude, ?_⟩
  · rw [value]; split <;> omega
  · rw [value]; split <;> omega
  · rw [value]
    split_ifs with sign
    · exact ⟨fun _ => sign, fun _ => by omega⟩
    · exact ⟨fun negative => by omega, fun set => absurd set sign⟩

theorem roundTrip_interior {k : Nat} (pattern : raw < 2 ^ 32) (exponent : f32Exponent raw = k + 96) (finite : k ≤ 30) :
    encodeF32 (decodeF32 raw) = raw ↔ (2 ^ 23 + raw % 2 ^ 23) % 2 ^ (119 - f32Exponent raw) = 0 := by
  obtain ⟨interior, magnitude, sign⟩ := decodeF32_interior exponent finite
  have significand := (f32Significand_range interior.top interior.bound).1
  rw [encodeF32_interior interior, ← significand_f32Magnitude exponent]
  rw [magnitude] at significand ⊢
  simp only [sign, testBit_sign pattern, decide_eq_true_eq]
  unfold f32Exponent at exponent
  split_ifs <;> omega

end RoundTrip

/-- Settles O18: zeros, subnormals and magnitudes below a canonical step import as 0, patterns from 1.0 on as an
extreme, and the others keep all but the significand's bits below the last canonical one. -/
theorem floatRoundTripIsCanonicalExact : Obligations.FloatRoundTripIsCanonicalExact := by
  intro raw pattern e
  change encodeF32 (decodeF32 raw) = raw ↔ raw = 0x00000000 ∨ raw = 0x3F800000 ∨ raw = 0xBF800000 ∨
    (96 ≤ f32Exponent raw ∧ f32Exponent raw ≤ 126 ∧ (2 ^ 23 + raw % 2 ^ 23) % 2 ^ (119 - f32Exponent raw) = 0)
  have field : f32Exponent raw = raw / 2 ^ 23 % 2 ^ 8 := rfl
  by_cases small : f32Exponent raw < 96
  · have zero : decodeF32 raw = 0 := by
      rw [decodeF32_eq, f32Magnitude_eq_zero small]
      split_ifs <;> omega
    rw [zero, encodeF32_zero]
    omega
  by_cases large : 127 ≤ f32Exponent raw
  · have extreme : decodeF32 raw = if raw.testBit 31 then -(2 ^ 31) else 2 ^ 31 - 1 := by
      rw [decodeF32_eq, if_neg (by omega), if_pos large]
    rw [extreme, testBit_sign pattern]
    simp only [decide_eq_true_eq]
    split
    · rw [encodeF32_of_le_min le_rfl]
      omega
    · rw [encodeF32_of_max_le le_rfl]
      omega
  · rw [roundTrip_interior (k := f32Exponent raw - 96) pattern (by omega) (by omega)]
    omega

end Sys2Proof.Proofs
end

section
/-! SUPPORT. The CODEC commands (R116, R124, R130, R134): what each element writes and what it leaves, and the
statements about IMPORT, EXPORT, SILENCE and MAXV. -/

namespace Sys2Proof.Proofs

open Sys2Proof.Machine Sys2Proof.Laws

/-- What no iteration after number `i` changes is as iteration `i` left it. -/
theorem loop_settled {α β : Type} {n i : Nat} {f : Nat → α → α} {x : α} (g : α → β) (done : i < n)
    (kept : ∀ j, i < j → j < n → g (f j (loop j f x)) = g (loop j f x)) :
    g (loop n f x) = g (f i (loop i f x)) := by
  induction n with
  | zero => exact absurd done i.not_lt_zero
  | succ n ih =>
    obtain earlier | rfl := Nat.lt_succ_iff_lt_or_eq.mp done
    · rw [loop_succ, kept n earlier n.lt_succ_self]
      exact ih earlier fun j later below => kept j later (below.trans n.lt_succ_self)
    · rfl

/-- The step counter numbers the free values, which no read of a quiet memory draws. -/
theorem tick_readCanon {m : Memory} (quiet : m.raced = []) (key a : Nat) :
    m.tick.readCanon key a = m.readCanon key a := readCanon_congr quiet quiet fun _ _ _ => rfl

theorem tick_readWire {m : Memory} (quiet : m.raced = []) (key : Nat) (fmt : Byte) (a : Nat) :
    readWire m.tick key fmt a = readWire m key fmt a := readWire_congr quiet quiet fun _ _ _ => rfl

/-! ## IMPORT (R116) -/

section ImportElements

variable {fmt : Byte} {count src dst : Word} {s : State}

theorem fmtWidth_le (fmt : Byte) : fmtWidth fmt ≤ 32 := by
  have := fmtBytes_le fmt
  unfold fmtWidth
  omega

/-- A format's range is far inside that of a canonical sample. -/
theorem format_range (fmt : Byte) : -2 ^ 63 ≤ minOf fmt ∧ maxOf fmt < 2 ^ 63 := by
  cases float : fmtFloat fmt with
  | false =>
    have width := fmtWidth_le fmt
    have bound : 2 ^ (fmtWidth fmt - 1) ≤ 2 ^ 31 := Nat.pow_le_pow_right two_pos (by omega)
    rw [maxOf_integer float, minOf_integer float]
    omega
  | true =>
    rw [maxOf_float float, minOf_float float]
    norm_num

theorem wrap64_importSample (fmt : Byte) (raw : Nat) : wrap64 (importSample fmt raw) = importSample fmt raw := by
  obtain ⟨low, high⟩ := importSample_range fmt raw
  obtain ⟨floor, ceiling⟩ := format_range fmt
  exact wrap64_of_range (floor.trans low) (high.trans_lt ceiling)

/-- The elements of an IMPORT are words written at rising addresses. -/
theorem importLoop_eq_writeWords (fmt : Byte) (src dst : Word) (n : Nat) (m : Memory) :
    loop n (importStep fmt src dst) m =
      writeWords (fun i => dst.toNat + 8 * i)
        (fun i m' => importSample fmt (readWire m' (i + 1) fmt (src.toNat + i * fmtBytes fmt))) n m := rfl

theorem importStep_readCanon {m : Memory} (quiet : m.raced = []) (i : Nat) :
    (importStep fmt src dst i m).readCanon 0 (dst.toNat + 8 * i) =
      importSample fmt (readWire m 0 fmt (src.toNat + i * fmtBytes fmt)) := by
  rw [importStep, readCanon_writeCanon_same _ _ _ quiet, wrap64_importSample,
    readWire_congr (key := 0) quiet quiet fun _ _ _ => rfl]

theorem importStep_sameOutside (i : Nat) (m : Memory) :
    m.sameOutside (byteRange (dst.toNat + 8 * i) 8) (importStep fmt src dst i m) :=
  fun _ outside => peek_writeCanon_other (outside_byteRange outside)

theorem importWire_passes (legal : fmtWf fmt = true) (aligned : dst.toNat % 8 = 0)
    (srcInRange : src.toNat + count.toNat * fmtBytes fmt ≤ s.config.memSize)
    (dstInRange : dst.toNat + 8 * count.toNat ≤ s.config.memSize) :
    commandCheck (.importWire fmt count src dst) s = none :=
  commandCheck_none_iff.mpr ⟨legal, importCheck_none.mpr (.inr ⟨aligned, srcInRange, by omega⟩)⟩

end ImportElements

/-- Settles O22: M i is the memory after `i` elements, each of which writes one converted word. -/
theorem importRunsInElementOrder : Obligations.ImportRunsInElementOrder := by
  intro fmt count src dst s legal quiet aligned srcInRange dstInRange
  have passes := importWire_passes legal aligned srcInRange dstInRange
  let M := fun i => loop i (importStep fmt src dst) s.mem
  have quietBefore : ∀ i, (M i).raced = [] := fun i => (importLoop_raced ..).trans quiet
  exact ⟨_, exec_eq_advance Instr.noConfusion passes, completedTo_affected _ s, rfl, rfl, M, rfl,
    fun a => tick_peek _ a, fun i _ => ⟨importStep_readCanon (quietBefore i) i, importStep_sameOutside i (M i)⟩⟩

/-- Settles O23: no element writes a byte that a later one reads, so each converts the sample the command found. -/
theorem importConvertsEverySample : Obligations.ImportConvertsEverySample := by
  intro fmt count src dst s legal quiet aligned srcInRange dstInRange apart
  have passes := importWire_passes legal aligned srcInRange dstInRange
  refine ⟨_, exec_eq_advance Instr.noConfusion passes, completedTo_affected _ s, rfl, rfl, fun i below => ?_,
    fun x outside => importLoop_frame (outside_byteRange outside)⟩
  have source := wire_offset (b := fmtBytes fmt) below
  rw [advance_mem, tick_readCanon (affected_quiet quiet _)]
  change (loop count.toNat (importStep fmt src dst) s.mem).readCanon 0 (dst.toNat + 8 * i) = _
  rw [importLoop_eq_writeWords, writeWords_readCanon (addr := fun i => dst.toNat + 8 * i) quiet (fun _ _ _ => by omega)
    below, wrap64_importSample]
  congr 1
  exact readWire_congr quiet ((writeWords_raced ..).trans quiet) fun x low high =>
    writeWords_frame fun j earlier => by omega

/-! ## EXPORT (R124) -/

section ExportElements

variable {fmt : Byte} {count src dst : Word} {s : State}

/-- A float format has four bytes (R70). -/
theorem fmtBytes_float : ∀ fmt : Byte, fmtWf fmt = true → fmtFloat fmt = true → fmtBytes fmt = 4 := by
  decide +kernel

theorem two_pow_width_eq (fmt : Byte) : 2 ^ fmtWidth fmt = 256 ^ fmtBytes fmt := by
  rw [fmtWidth, Nat.pow_mul]

theorem encodeInt_lt (fmt : Byte) (v : Int) : encodeInt fmt v < 2 ^ fmtWidth fmt := by
  have positive : (0 : Int) < 2 ^ fmtWidth fmt := by positivity
  have nonneg := Int.emod_nonneg (clamp v (minOf fmt) (maxOf fmt)) positive.ne'
  have below := Int.emod_lt_of_pos (clamp v (minOf fmt) (maxOf fmt)) positive
  have cast : ((2 ^ fmtWidth fmt : Nat) : Int) = 2 ^ fmtWidth fmt := by push_cast; rfl
  exact biased_lt (raw := (clamp v (minOf fmt) (maxOf fmt) % 2 ^ fmtWidth fmt).toNat) (by omega)

/-- A converted sample is a pattern of its format's width. -/
theorem exportSample_lt (legal : fmtWf fmt = true) (v : Int) : exportSample fmt v < 256 ^ fmtBytes fmt := by
  cases float : fmtFloat fmt with
  | false =>
    rw [exportSample_integer float, ← two_pow_width_eq]
    exact encodeInt_lt fmt v
  | true =>
    rw [exportSample_float float, fmtBytes_float fmt legal float]
    exact (exportedFloatsAreNormal v).1.1

theorem exportStep_readWire {m : Memory} (legal : fmtWf fmt = true) (quiet : m.raced = []) (i : Nat) :
    readWire (exportStep fmt src dst i m) 0 fmt (dst.toNat + i * fmtBytes fmt) =
      exportSample fmt (m.readCanon 0 (src.toNat + 8 * i)) := by
  rw [exportStep, readWire_writeWire_same _ _ _ _ quiet, Nat.mod_eq_of_lt (exportSample_lt legal _),
    readCanon_key quiet (i + 1) 0]

theorem exportStep_sameOutside (i : Nat) (m : Memory) :
    m.sameOutside (byteRange (dst.toNat + i * fmtBytes fmt) (fmtBytes fmt)) (exportStep fmt src dst i m) :=
  fun _ outside => peek_writeWire_other (outside_byteRange outside)

/-- No later element writes the bytes of an earlier sample. -/
theorem exportLoop_readWire {n i : Nat} {m : Memory} (quiet : m.raced = []) (written : i < n) :
    readWire (loop n (exportStep fmt src dst) m) 0 fmt (dst.toNat + i * fmtBytes fmt) =
      readWire (exportStep fmt src dst i (loop i (exportStep fmt src dst) m)) 0 fmt
        (dst.toNat + i * fmtBytes fmt) := by
  have stepQuiet : (loop (i + 1) (exportStep fmt src dst) m).raced = [] := (exportLoop_raced ..).trans quiet
  refine readWire_congr stepQuiet ((exportLoop_raced ..).trans quiet) fun x low high => ?_
  refine loop_settled (fun m : Memory => m.peek x) written fun j later _ => ?_
  have := wire_offset (b := fmtBytes fmt) later
  exact peek_writeWire_other (.inl (by omega))

/-- An element's source word is still the one the command found: the destination starts at or before the source and
grows no faster, or lies after it. -/
theorem exportLoop_readCanon {n i : Nat} {m : Memory} (quiet : m.raced = []) (below : i < n)
    (apart : src.toNat + 8 * n ≤ dst.toNat ∨ dst.toNat ≤ src.toNat) :
    (loop i (exportStep fmt src dst) m).readCanon 0 (src.toNat + 8 * i) = m.readCanon 0 (src.toNat + 8 * i) := by
  have narrow : i * fmtBytes fmt ≤ i * 8 := Nat.mul_le_mul_left i ((fmtBytes_le fmt).trans (by norm_num))
  exact readCanon_congr quiet ((exportLoop_raced ..).trans quiet) fun x low high => exportLoop_frame (by omega)

theorem exportWire_passes (legal : fmtWf fmt = true) (aligned : src.toNat % 8 = 0)
    (srcInRange : src.toNat + 8 * count.toNat ≤ s.config.memSize)
    (dstInRange : dst.toNat + count.toNat * fmtBytes fmt ≤ s.config.memSize) :
    commandCheck (.exportWire fmt count src dst) s = none :=
  commandCheck_none_iff.mpr ⟨legal, exportCheck_none.mpr (.inr ⟨aligned, by omega, dstInRange⟩)⟩

end ExportElements

/-- Settles O24: M i is the memory after `i` elements, each of which writes one converted sample. -/
theorem exportRunsInElementOrder : Obligations.ExportRunsInElementOrder := by
  intro fmt count src dst s legal quiet aligned srcInRange dstInRange
  have passes := exportWire_passes legal aligned srcInRange dstInRange
  let M := fun i => loop i (exportStep fmt src dst) s.mem
  have quietBefore : ∀ i, (M i).raced = [] := fun i => (exportLoop_raced ..).trans quiet
  exact ⟨_, exec_eq_advance Instr.noConfusion passes, completedTo_affected _ s, rfl, rfl, M, rfl,
    fun a => tick_peek _ a, fun i _ => ⟨exportStep_readWire legal (quietBefore i) i, exportStep_sameOutside i (M i)⟩⟩

/-- Settles O25: each sample is the one its element wrote, from a source word that no element before it touched. -/
theorem exportConvertsEverySample : Obligations.ExportConvertsEverySample := by
  intro fmt count src dst s legal quiet aligned srcInRange dstInRange apart
  have passes := exportWire_passes legal aligned srcInRange dstInRange
  refine ⟨_, exec_eq_advance Instr.noConfusion passes, completedTo_affected _ s, rfl, rfl, fun i below => ?_,
    fun x outside => exportLoop_frame (outside_byteRange outside)⟩
  rw [advance_mem, tick_readWire (affected_quiet quiet _)]
  calc readWire (loop count.toNat (exportStep fmt src dst) s.mem) 0 fmt (dst.toNat + i * fmtBytes fmt)
      = _ := exportLoop_readWire quiet below
    _ = _ := exportStep_readWire legal ((exportLoop_raced ..).trans quiet) i
    _ = _ := by rw [exportLoop_readCanon quiet below apart]

/-! ## SILENCE (R130, R131) -/

section Silence

variable {fmt : Byte} {k : Nat}

theorem fmtUnsigned_float : ∀ fmt : Byte, fmtWf fmt = true → fmtFloat fmt = true → fmtUnsigned fmt = false := by
  decide +kernel

/-- The zero pattern: the bias of an unsigned format, and 0 of any other. -/
theorem exportSample_zero (legal : fmtWf fmt = true) :
    exportSample fmt 0 = if fmtUnsigned fmt then 2 ^ (8 * fmtBytes fmt - 1) else 0 := by
  cases float : fmtFloat fmt with
  | false =>
    have low : minOf fmt ≤ 0 := by rw [minOf_integer float]; exact Int.neg_nonpos_of_nonneg (Int.natCast_nonneg _)
    rw [exportSample_integer float, encodeInt_eq low (maxOf_nonneg fmt), Int.zero_emod, Int.toNat_zero, biased,
      Nat.zero_xor]
    rfl
  | true =>
    rw [exportSample_float float, fmtUnsigned_float fmt legal float, encodeF32_zero, if_neg Bool.false_ne_true]

theorem peek_writeWire_byte {m : Memory} {a raw : Nat} (inSample : k < fmtBytes fmt) :
    (writeWire m fmt a raw).peek (a + k) =
      BitVec.ofNat 8 (raw / 256 ^ (if fmtBigEndian fmt then fmtBytes fmt - 1 - k else k)) := by
  cases big : fmtBigEndian fmt with
  | false => rw [writeWire, big]; exact peek_write_byte inSample
  | true => rw [writeWire, big]; exact peek_writeBE_byte inSample

/-- The bias of `b` bytes is 0x80 in the most significant of them. -/
theorem bias_byte {b j : Nat} (inSample : j < b) :
    BitVec.ofNat 8 (2 ^ (8 * b - 1) / 256 ^ j) = if j = b - 1 then 0x80#8 else 0x00#8 := by
  have quotient : 2 ^ (8 * b - 1) / 256 ^ j = 2 ^ (8 * b - 1 - 8 * j) := by
    rw [show 256 = 2 ^ 8 by norm_num, ← Nat.pow_mul, Nat.pow_div (by omega) two_pos]
  rw [quotient]
  split
  · next top => subst top; rw [show 8 * b - 1 - 8 * (b - 1) = 7 by omega]; rfl
  · next lower =>
    obtain ⟨e, exponent⟩ := Nat.exists_eq_add_of_le (show 8 ≤ 8 * b - 1 - 8 * j by omega)
    apply BitVec.eq_of_toNat_eq
    rw [exponent, Nat.pow_add, BitVec.toNat_ofNat, Nat.mul_mod_right]
    rfl

/-- Byte `k` of the zero pattern in memory order (R131). -/
theorem zeroPattern_byte (legal : fmtWf fmt = true) (inSample : k < fmtBytes fmt) :
    BitVec.ofNat 8 (exportSample fmt 0 / 256 ^ (if fmtBigEndian fmt then fmtBytes fmt - 1 - k else k)) =
      if fmtUnsigned fmt = true ∧ k = (if fmtBigEndian fmt then 0 else fmtBytes fmt - 1) then 0x80#8 else 0x00#8 := by
  have index : (if fmtBigEndian fmt then fmtBytes fmt - 1 - k else k) < fmtBytes fmt := by split <;> omega
  rw [exportSample_zero legal]
  cases fmtUnsigned fmt with
  | false => simp
  | true =>
    rw [if_pos rfl, bias_byte index]
    refine if_congr ?_ rfl rfl
    cases fmtBigEndian fmt <;> simp only [if_true, if_false, Bool.false_eq_true, true_and]
    omega

end Silence

/-- Settles O26: a sample's bytes are the zero pattern's, and no later sample covers them. -/
theorem silenceWritesTheZeroPattern : Obligations.SilenceWritesTheZeroPattern := by
  intro fmt count dst s legal inRange
  have passes : commandCheck (.silence fmt count dst) s = none :=
    commandCheck_none_iff.mpr ⟨legal, silenceCheck_none.mpr (.inr inRange)⟩
  refine ⟨_, exec_eq_advance Instr.noConfusion passes, completedTo_affected _ s, rfl, rfl,
    fun i below k inSample => ?_, fun x outside => silenceLoop_frame (outside_byteRange outside)⟩
  calc (loop count.toNat (silenceStep fmt dst) s.mem).peek (dst.toNat + i * fmtBytes fmt + k)
      = (silenceStep fmt dst i (loop i (silenceStep fmt dst) s.mem)).peek (dst.toNat + i * fmtBytes fmt + k) :=
        loop_settled (fun m : Memory => m.peek _) below fun j later _ => by
          have := wire_offset (b := fmtBytes fmt) later
          exact peek_writeWire_other (.inl (by omega))
    _ = _ := peek_writeWire_byte inSample
    _ = _ := zeroPattern_byte legal inSample

/-! ## MAXV (R118, R134) -/

/-- `max_of` as a natural number. -/
theorem maxOf_natCast (fmt : Byte) :
    maxOf fmt = (((if fmt.getLsbD 4 then 2 ^ 31 - 1 else 2 ^ (8 * fmtBytes fmt - 1) - 1 : Nat)) : Int) := by
  cases float : fmtFloat fmt with
  | false =>
    rw [maxOf_integer float, show fmt.getLsbD 4 = false from float, if_neg Bool.false_ne_true,
      Nat.cast_sub Nat.one_le_two_pow]
    rfl
  | true =>
    rw [maxOf_float float, show fmt.getLsbD 4 = true from float, if_pos rfl]
    norm_num

/-- Byte `k` of a canonical word that holds a natural number. -/
theorem peek_writeCanon_byte {m : Memory} {a n k : Nat} (int64 : n < 2 ^ 63) (inWord : k < 8) :
    (m.writeCanon a n).peek (a + k) = BitVec.ofNat 8 (n / 256 ^ k) := by
  have pattern : ((n : Int) % 2 ^ 64).toNat = n := by omega
  rw [Memory.writeCanon, pattern]
  exact peek_write_byte inWord

/-- Settles O27: the format's maximum is a natural number below 2^63, written as one word. -/
theorem maxvWritesTheMaximum : Obligations.MaxvWritesTheMaximum := by
  intro fmt dst s legal aligned inRange
  have passes : commandCheck (.maxv fmt dst) s = none :=
    commandCheck_none_iff.mpr ⟨legal, maxvCheck_none.mpr ⟨aligned, inRange⟩⟩
  refine ⟨_, exec_eq_advance Instr.noConfusion passes, completedTo_affected _ s, rfl, rfl, fun k inWord => ?_,
    fun x outside => peek_writeCanon_other (outside_byteRange outside)⟩
  change (s.mem.writeCanon dst.toNat (maxOf fmt)).peek (dst.toNat + k) = _
  have ceiling := (format_range fmt).2
  rw [maxOf_natCast] at ceiling ⊢
  exact peek_writeCanon_byte (by omega) inWord

end Sys2Proof.Proofs
end

section
/-! SUPPORT. MIX on streams that share no word (R143, R146, R147): the word that each frame leaves, and the statements
about the copy, the accumulate law and the generator. -/

namespace Sys2Proof.Proofs

open Sys2Proof.Machine Sys2Proof.Laws

section Mix

variable {flags : MixFlags} {shift : Byte} {count : Word} {src dst : Stream} {volume : Word} {s : State} {i n : Nat}

theorem mix_passes (srcLegal : src.wf = true) (dstLegal : dst.wf = true) (shiftLegal : shiftWf shift = true)
    (srcAligned : src.base.toNat % 8 = 0) (dstAligned : dst.base.toNat % 8 = 0)
    (srcInRange : src.base.toNat + 8 * count.toNat * src.nch.toNat ≤ s.config.memSize)
    (dstInRange : dst.base.toNat + 8 * count.toNat * dst.nch.toNat ≤ s.config.memSize) :
    commandCheck (.mix flags shift count src dst volume) s = none :=
  commandCheck_none_iff.mpr ⟨mix_wf srcLegal dstLegal shiftLegal,
    mixCheck_passes srcAligned dstAligned srcInRange dstInRange⟩

/-! ## The word a frame leaves (R145) -/

/-- Later frames write later words, so word `i` of the destination is as frame `i` left it. -/
theorem mixFrames_readCanon_dst (dstLegal : dst.wf = true) (quiet : s.quiet) (written : i < n) :
    (mixFrames flags shift src dst volume s n).1.readCanon 0 (Stream.sampleAddr dst i) =
      (mixStep flags shift src dst volume i (mixFrames flags shift src dst volume s i)).1.readCanon 0
        (Stream.sampleAddr dst i) := by
  refine readCanon_congr (mixFrames_quiet quiet (i + 1)) (mixFrames_quiet quiet n) fun x low high => ?_
  refine loop_settled (fun p : Memory × Word => p.1.peek x) written fun j later _ => ?_
  have := sampleAddr_rising dstLegal later
  exact peek_writeCanon_other (by omega)

/-- Frame `i` finds its source word as the command found it, where the streams share no word. -/
theorem mixFrames_readCanon_src (quiet : s.quiet) (apart : Stream.apart src dst n) (frame : i < n) :
    (mixFrames flags shift src dst volume s i).1.readCanon 0 (Stream.sampleAddr src i) =
      s.mem.readCanon 0 (Stream.sampleAddr src i) :=
  readCanon_congr quiet (mixFrames_quiet quiet i) fun x low high =>
    mixLoop_frame fun j earlier => by
      have := apart i frame j (earlier.trans frame)
      omega

/-! ## The generator (R143) -/

theorem mix_lfsr {t : State} (passes : commandCheck (.mix flags shift count src dst volume) s = none)
    (executed : exec (.mix flags shift count src dst volume) s = .next t) :
    t.lfsr = if flags.dither && !flags.mute then lfsrStep^[count.toNat] s.lfsr else s.lfsr := by
  cases (exec_mix passes).symm.trans executed
  exact mixLoop_lfsr ..

theorem lfsrStep_iterate_zero (n : Nat) : lfsrStep^[n] 0 = 0 := Function.iterate_fixed (by decide) n

end Mix

/-- Settles O31: the loop steps the generator once a frame or never, and state 0 is a fixed point of the step. -/
theorem mixStepsTheGenerator : Obligations.MixStepsTheGenerator := by
  intro flags shift count src dst volume s t passes executed
  have generator := mix_lfsr passes executed
  refine ⟨fun dither mute => ?steps, fun still => ?still, fun zero => ?zero⟩
  case steps =>
    rw [dither, mute] at generator
    exact generator
  case still =>
    rw [generator, if_neg]
    obtain dither | mute := still
    · simp [dither]
    · simp [mute]
  case zero =>
    rw [generator, zero, lfsrStep_iterate_zero, ite_self]

/-- A frame of `copy` writes the source word itself: the product with 1 is not shifted, and an int64 is its own wrap. -/
theorem copyStep_readCanon {src dst : Stream} {p : Memory × Word} {i : Nat} (quiet : p.1.raced = []) :
    (mixStep { assign := true, invert := false, mute := false, dither := false } 0 src dst 1 i p).1.readCanon 0
      (Stream.sampleAddr dst i) = p.1.readCanon 0 (Stream.sampleAddr src i) := by
  obtain ⟨low, high⟩ := readCanon_range p.1 0 (Stream.sampleAddr src i)
  have volume : volumeOf 1 = 1 := by decide
  have shift : shiftOf 0 = 0 := by decide
  rw [mixStep_readCanon quiet, ← wrap64_eq_bmod, shift, volume]
  simp only [mixTerm, shl, Bool.false_eq_true, if_false, if_true, le_refl, Int.toNat_zero, pow_zero, mul_one, zero_add]
  exact wrap64_of_range low high

/-- Settles O29: each destination word is as its frame left it, and its frame found the source word unchanged. -/
theorem copyCopiesTheStream : Obligations.CopyCopiesTheStream := by
  intro count src dst s srcLegal dstLegal quiet srcAligned dstAligned srcInRange dstInRange apart
  have passes : commandCheck (Instr.copyStream count src dst) s = none :=
    mix_passes srcLegal dstLegal (by decide) srcAligned dstAligned srcInRange dstInRange
  have executed := exec_mix passes
  refine ⟨_, executed, completedTo_affected (Instr.copyStream count src dst) s, mix_lfsr passes executed, rfl,
    fun i frame => ?_, fun x outside => mixLoop_frame (outside_sampleBytes outside)⟩
  rw [advance_mem, tick_readCanon (mixFrames_quiet quiet _), mixFrames_readCanon_dst dstLegal quiet frame,
    copyStep_readCanon (mixFrames_quiet quiet _), mixFrames_readCanon_src quiet apart frame]

/-! ## The accumulate law (R146) -/

/-- Loops whose iterations agree on what the first of them reaches. -/
theorem loop_congr_reached {α : Type} {n : Nat} {f g : Nat → α → α} {x : α}
    (agree : ∀ i < n, f i (loop i f x) = g i (loop i f x)) : loop n f x = loop n g x := by
  induction n with
  | zero => rfl
  | succ n ih =>
    rw [loop_succ, loop_succ, agree n n.lt_succ_self, ih fun i below => agree i (below.trans n.lt_succ_self)]

theorem readCanon_eq_zero {m : Memory} {a : Nat} (key : Nat) (quiet : m.raced = [])
    (zeros : ∀ k < 8, m.peek (a + k) = 0) : m.readCanon key a = 0 := by
  have bytes : ∀ n b, (∀ k < n, m.peek (b + k) = 0) → m.read key b n = 0 := fun n => by
    induction n with
    | zero => exact fun _ _ => rfl
    | succ n ih =>
      intro b zeros
      have rest := ih (b + 1) fun k below => by
        rw [Nat.add_assoc, Nat.add_comm 1]
        exact zeros (k + 1) (Nat.succ_lt_succ below)
      have first := zeros 0 n.succ_pos
      rw [Nat.add_zero] at first
      rw [read_succ, rest, blockByte_quiet _ _ quiet, first]
      rfl
  rw [Memory.readCanon, bytes 8 a zeros]
  rfl

/-- Into a word that is 0 a frame accumulates what it would overwrite it with. -/
theorem mixStep_accumulate {flags : MixFlags} {shift : Byte} {src dst : Stream} {volume : Word} {i : Nat}
    {p : Memory × Word} (zero : p.1.readCanon (2 * i + 2) (Stream.sampleAddr dst i) = 0) :
    mixStep { flags with assign := false } shift src dst volume i p =
      mixStep { flags with assign := true } shift src dst volume i p := by
  simp only [mixStep, zero, ite_self]
  rfl

/-- Settles O30: frame `i` finds its destination word still 0, so the two commands are the same loop. -/
theorem mixAccumulateLaw : Obligations.MixAccumulateLaw := by
  intro flags shift count src dst volume s srcLegal dstLegal shiftLegal quiet srcAligned dstAligned srcInRange
    dstInRange _ zeros
  have passes : ∀ f : MixFlags, commandCheck (.mix f shift count src dst volume) s = none := fun _ =>
    mix_passes srcLegal dstLegal shiftLegal srcAligned dstAligned srcInRange dstInRange
  have same : mixFrames { flags with assign := false } shift src dst volume s count.toNat =
      mixFrames { flags with assign := true } shift src dst volume s count.toNat := by
    refine loop_congr_reached fun i frame => mixStep_accumulate ?_
    refine readCanon_eq_zero _ (mixFrames_quiet quiet i) fun k below => ?_
    rw [← zeros i frame k below]
    refine mixLoop_frame fun j earlier => ?_
    have := sampleAddr_rising dstLegal earlier
    omega
  refine ⟨_, _, exec_mix (passes _), exec_mix (passes _), ?_, fun a => ?_⟩
  · exact congrArg Prod.snd same
  · rw [advance_mem, advance_mem, tick_peek, tick_peek]
    exact congrArg (fun p : Memory × Word => p.1.peek a) same

end Sys2Proof.Proofs
end

section
/-! SUPPORT. COMP and GAININIT over whole buffers (R160 to R165): what a written sample is once the command has ended, a
sample that comes back as it was, and the statements about disabled, transparent, bounded and consecutive blocks. -/

namespace Sys2Proof.Proofs

open Sys2Proof.Machine Sys2Proof.Laws

/-! ## Bytes of a word that is read (R12) -/

theorem read_byte (m : Memory) (key a : Nat) {n k : Nat} (inRange : k < n) :
    BitVec.ofNat 8 (m.read key a n / 256 ^ k) = m.blockByte key (a + k) := by
  induction n generalizing a k with
  | zero => exact absurd inRange k.not_lt_zero
  | succ n ih =>
    have byte := (m.blockByte key a).isLt
    rw [read_succ]
    cases k with
    | zero =>
      apply BitVec.eq_of_toNat_eq
      rw [Nat.pow_zero, Nat.div_one, BitVec.toNat_ofNat, Nat.add_mul_mod_self_left, Nat.mod_eq_of_lt byte, Nat.add_zero]
    | succ k =>
      rw [Nat.pow_succ', ← Nat.div_div_eq_div_mul, Nat.add_mul_div_left _ _ (by norm_num), Nat.div_eq_of_lt byte,
        Nat.zero_add, ih (a + 1) (Nat.lt_of_succ_lt_succ inRange), Nat.add_assoc, Nat.add_comm 1]

/-- The bytes of a canonical word as a read of it gives them. -/
theorem readCanon_pattern (m : Memory) (key a : Nat) : (m.readCanon key a % 2 ^ 64).toNat = m.read key a 8 := by
  have bound : m.read key a 8 < 2 ^ 64 := (read_lt m key a 8).trans_eq (by norm_num)
  rw [Memory.readCanon, sext_emod, Int.toNat_natCast, Nat.mod_eq_of_lt bound]

/-- Writing back the word that was read changes no byte. -/
theorem peek_writeCanon_readCanon {m : Memory} (quiet : m.raced = []) (key a x : Nat) :
    (m.writeCanon a (m.readCanon key a)).peek x = m.peek x := by
  rw [Memory.writeCanon, readCanon_pattern]
  by_cases inWord : a ≤ x ∧ x < a + 8
  · obtain ⟨k, rfl⟩ := Nat.exists_eq_add_of_le inWord.1
    rw [peek_write_byte (by omega), read_byte m key a (by omega), blockByte_quiet _ _ quiet]
  · exact peek_write_other (by omega)

/-- Memories that hold the same bytes hold the same bytes after the same write. -/
theorem peek_writeCanon_congr {m m' : Memory} (same : ∀ x, m'.peek x = m.peek x) (a : Nat) (v : Int) (x : Nat) :
    (m'.writeCanon a v).peek x = (m.writeCanon a v).peek x := by
  by_cases inWord : a ≤ x ∧ x < a + 8
  · obtain ⟨k, rfl⟩ := Nat.exists_eq_add_of_le inWord.1
    rw [Memory.writeCanon, Memory.writeCanon, peek_write_byte (by omega), peek_write_byte (by omega)]
  · rw [peek_writeCanon_other (by omega), peek_writeCanon_other (by omega), same]

section Comp

variable {t : Int} {fmt : Byte} {en : Bool} {count buf : Word} {nch : Byte} {par : CompParams} {s : State}

theorem comp_passes (fmtLegal : fmtWf fmt = true) (nchLegal : nchWf nch = true) (parLegal : par.wf = true)
    (inRange : en = false ∨ buf.toNat % 8 = 0 ∧ buf.toNat + 8 * count.toNat * nch.toNat ≤ s.config.memSize) :
    commandCheck (.comp fmt en count buf nch par) s = none :=
  commandCheck_none_iff.mpr ⟨comp_wf fmtLegal nchLegal parLegal, compCheck_none.mpr (inRange.imp .inl id)⟩

/-! ## A buffer after its last sample -/

theorem compSamples_sameOutside (s : State) (n : Nat) :
    s.mem.sameOutside (byteRange buf.toNat (8 * n)) (compSamples t buf nch par s n).1 := by
  intro x outside
  have away := outside_byteRange outside
  refine loop_fixed (fun p : Memory × Gains => p.1.peek x) fun j p below => ?_
  simp only [compSampleStep, compStep, Nat.div_add_mod']
  exact peek_writeCanon_other (by omega)

/-- Later samples have later words, so word `j` is as sample `j` left it. -/
theorem compSamples_readCanon {n j : Nat} (quiet : s.quiet) (written : j < n) :
    (compSamples t buf nch par s n).1.readCanon 0 (buf.toNat + 8 * j) =
      (compSampleStep t buf nch par j (compSamples t buf nch par s j)).1.readCanon 0 (buf.toNat + 8 * j) := by
  have quietAfter : ∀ n, (compSamples t buf nch par s n).1.raced = [] := fun n => (compSamples_raced s n).trans quiet
  refine readCanon_congr (quietAfter (j + 1)) (quietAfter n) fun x low high => ?_
  refine loop_settled (fun p : Memory × Gains => p.1.peek x) written fun k later _ => ?_
  simp only [compSampleStep, compStep, Nat.div_add_mod']
  exact peek_writeCanon_other (by omega)

/-! ## Transparency (R161) -/

theorem relaxGain_unity (decay : Nat) : relaxGain decay unityInt = unityInt := by
  rw [relaxGain, Int.sub_self, floorDiv_def, Int.zero_ediv, Int.add_zero]

/-- From unity and with a sample at most the threshold the gain does not move. -/
theorem movedGain_unity {p : Memory × Gains} {j : Nat}
    (unity : gainGet p.2 par.bank.toNat (j % nch.toNat) = unityGain)
    (below : |p.1.readCanon 0 (buf.toNat + 8 * j)| ≤ t) : movedGain t buf nch par j p = unityInt := by
  rw [movedGain, attackGain_eq, if_neg (Int.not_lt.mpr below), unity, unityGain_toNat]

/-- Such a sample is multiplied by unity and written back, and its entry relaxes from unity to unity. -/
theorem compSampleStep_transparent {p : Memory × Gains} {j : Nat} (quiet : p.1.raced = [])
    (unity : gainGet p.2 par.bank.toNat (j % nch.toNat) = unityGain)
    (below : |p.1.readCanon 0 (buf.toNat + 8 * j)| ≤ t) (bank : par.bank.toNat < 16) (channel : j % nch.toNat < 64) :
    (∀ x, (compSampleStep t buf nch par j p).1.peek x = p.1.peek x) ∧
      ∀ b c, gainGet (compSampleStep t buf nch par j p).2 b c = gainGet p.2 b c := by
  have product : floorDiv (p.1.readCanon 0 (buf.toNat + 8 * j) * unityInt) unityInt =
      p.1.readCanon 0 (buf.toNat + 8 * j) := Int.mul_ediv_cancel _ (by decide)
  rw [compSampleStep_eq quiet, movedGain_unity unity below, product, relaxGain_unity]
  refine ⟨peek_writeCanon_readCanon quiet 0 _, fun b c => ?_⟩
  by_cases own : b = par.bank.toNat ∧ c = j % nch.toNat
  · obtain ⟨rfl, rfl⟩ := own
    rw [gainGet_gainSet_same _ bank channel, unity]
    decide
  · exact gainGet_gainSet_other _ (by omega)

theorem compSamples_succ (t : Int) (buf : Word) (nch : Byte) (par : CompParams) (s : State) (n : Nat) :
    compSamples t buf nch par s (n + 1) = compSampleStep t buf nch par n (compSamples t buf nch par s n) := rfl

/-- From unity entries and with no sample above the threshold no sample and no entry changes. -/
theorem compSamples_transparent {n : Nat} (quiet : s.quiet) (nchLegal : nchWf nch = true) (parLegal : par.wf = true)
    (unity : ∀ c < nch.toNat, gainGet s.gains par.bank.toNat c = unityGain)
    (below : ∀ j < n, |s.mem.readCanon 0 (buf.toNat + 8 * j)| ≤ t) :
    (∀ x, (compSamples t buf nch par s n).1.peek x = s.mem.peek x) ∧
      ∀ b c, gainGet (compSamples t buf nch par s n).2 b c = gainGet s.gains b c := by
  induction n with
  | zero => exact ⟨fun _ => rfl, fun _ _ => rfl⟩
  | succ n ih =>
    obtain ⟨memory, gains⟩ := ih fun j earlier => below j (earlier.trans n.lt_succ_self)
    have quietBefore : (compSamples t buf nch par s n).1.raced = [] := (compSamples_raced s n).trans quiet
    obtain ⟨bank, channel⟩ := comp_entry_bounds nchLegal parLegal n
    have positive : 0 < nch.toNat := by
      simp only [nchWf, Bool.and_eq_true, decide_eq_true_eq] at nchLegal
      exact nchLegal.1
    have sample : (compSamples t buf nch par s n).1.readCanon 0 (buf.toNat + 8 * n) =
        s.mem.readCanon 0 (buf.toNat + 8 * n) := readCanon_congr quiet quietBefore fun x _ _ => memory x
    obtain ⟨memory', gains'⟩ := compSampleStep_transparent (t := t) (buf := buf) (nch := nch) (j := n) quietBefore
      ((gains _ _).trans (unity _ (Nat.mod_lt n positive))) (by rw [sample]; exact below n n.lt_succ_self) bank channel
    rw [compSamples_succ]
    exact ⟨fun x => (memory' x).trans (memory x), fun b c => (gains' b c).trans (gains b c)⟩

/-! ## The bound (R162) -/

/-- With ATTACK = 0 the gain moves to its target at once, and a gain that legal or lower keeps the product at the
threshold. -/
theorem attackZero_product_le {g a : Int} (threshold : 0 ≤ t) (nonneg : 0 ≤ g) (legal : g ≤ unityInt) :
    |a| * attackGain t 0 g a ≤ t * 2 ^ 31 := by
  have unity : unityInt = 2 ^ 31 := rfl
  rw [attackGain_eq, pow_zero, Int.ediv_one, sub_sub_cancel]
  split
  · next above =>
    calc |a| * min g (t * 2 ^ 31 / |a|) ≤ |a| * (t * 2 ^ 31 / |a|) :=
          mul_le_mul_of_nonneg_left (min_le_right ..) (abs_nonneg a)
      _ ≤ t * 2 ^ 31 := Int.mul_ediv_self_le (threshold.trans_lt above).ne'
  · next below => exact mul_le_mul (not_lt.mp below) (unity ▸ legal) nonneg threshold

/-- Rounding the product toward minus infinity keeps it within a bound that is an integer. -/
theorem abs_floor_product_le {a g : Int} (nonneg : 0 ≤ g) (bounded : |a| * g ≤ t * 2 ^ 31) :
    |a * g / 2 ^ 31| ≤ t := by
  have magnitude : |a * g| ≤ t * 2 ^ 31 := by rw [abs_mul, abs_of_nonneg nonneg]; exact bounded
  obtain ⟨low, high⟩ := abs_le.mp magnitude
  exact abs_le.mpr ⟨by omega, by omega⟩

theorem movedGain_product_le {p : Memory × Gains} (threshold : 0 ≤ t) (legal : gainsLegal p.2)
    (attack : par.attack = 0) (j : Nat) :
    |p.1.readCanon 0 (buf.toNat + 8 * j) * movedGain t buf nch par j p / 2 ^ 31| ≤ t := by
  refine abs_floor_product_le (movedGain_legal threshold legal j).1 ?_
  rw [movedGain, attack]
  exact attackZero_product_le threshold (Int.natCast_nonneg _) (legal_toNat (legal _ _))

/-! ## Consecutive blocks (R164) -/

/-- Loops over two ranges of indices keep what every pair of their iterations keeps. -/
theorem loop_simulation {α β : Type} {n : Nat} {f : Nat → α → α} {g : Nat → β → β} {x : α} {y : β}
    (R : α → β → Prop) (start : R x y) (kept : ∀ i a b, R a b → R (f i a) (g i b)) : R (loop n f x) (loop n g y) := by
  induction n with
  | zero => exact start
  | succ n ih => exact kept n _ _ ih

/-- Quiet memories with the same bytes, and the same gain banks: what a COMP can tell apart. -/
structure SameSamples (p q : Memory × Gains) : Prop where
  quiet : p.1.raced = [] ∧ q.1.raced = []
  memory : ∀ x, p.1.peek x = q.1.peek x
  gains : p.2 = q.2

/-- A sample does the same as number `j` of the second block and as number `m × NCH + j` of both blocks together. -/
theorem SameSamples.step {p q : Memory × Gains} (same : SameSamples p q) {buf2 : Word} {m : Nat}
    (next : buf2.toNat = buf.toNat + 8 * (m * nch.toNat)) (j : Nat) :
    SameSamples (compSampleStep t buf2 nch par j p) (compSampleStep t buf nch par (m * nch.toNat + j) q) := by
  obtain ⟨⟨quietP, quietQ⟩, memory, gains⟩ := same
  have address : buf2.toNat + 8 * j = buf.toNat + 8 * (m * nch.toNat + j) := by omega
  have channel : (m * nch.toNat + j) % nch.toNat = j % nch.toNat := Nat.mul_add_mod_self_right ..
  have sample : p.1.readCanon 0 (buf2.toNat + 8 * j) = q.1.readCanon 0 (buf.toNat + 8 * (m * nch.toNat + j)) := by
    rw [address]
    exact readCanon_congr quietQ quietP fun x _ _ => memory x
  have moved : movedGain t buf2 nch par j p = movedGain t buf nch par (m * nch.toNat + j) q := by
    rw [movedGain, movedGain, sample, channel, gains]
  refine ⟨⟨(compSampleStep_raced ..).trans quietP, (compSampleStep_raced ..).trans quietQ⟩, fun x => ?_, ?_⟩
  · rw [compSampleStep_eq quietP, compSampleStep_eq quietQ, sample, moved, address]
    exact peek_writeCanon_congr memory _ _ x
  · rw [compSampleStep_eq quietP, compSampleStep_eq quietQ, moved, channel, gains]

/-- The samples of both blocks are those of the first and then those of the second. -/
theorem sameSamples_blocks {buf2 : Word} {c1 c2 : Nat} {u : State}
    (next : buf2.toNat = buf.toNat + 8 * (c1 * nch.toNat))
    (first : SameSamples (u.mem, u.gains) (compSamples t buf nch par s (c1 * nch.toNat))) :
    SameSamples (compSamples t buf2 nch par u (c2 * nch.toNat))
      (compSamples t buf nch par s ((c1 + c2) * nch.toNat)) := by
  rw [compSamples, compSamples, Nat.add_mul, loop_add]
  exact loop_simulation SameSamples first fun j p q same => same.step next j

end Comp

/-- Settles O33: a disabled COMP makes no memory check and has no frames. -/
theorem disabledCompChangesNothing : Obligations.DisabledCompChangesNothing := by
  intro fmt count buf nch par s fmtLegal nchLegal parLegal
  exact ⟨_, exec_eq_advance Instr.noConfusion (comp_passes fmtLegal nchLegal parLegal (.inl rfl)),
    completedTo_affected _ s, rfl, rfl, fun _ => rfl⟩

/-- Settles O34: sample after sample memory and entries are those the command found, so the next is transparent too. -/
theorem compBelowTheKneeIsTransparent : Obligations.CompBelowTheKneeIsTransparent := by
  intro fmt count buf nch par s fmtLegal nchLegal parLegal quiet aligned inRange unity below
  have passes := comp_passes (en := true) fmtLegal nchLegal parLegal (.inr ⟨aligned, inRange⟩)
  obtain ⟨memory, gains⟩ := compSamples_transparent quiet nchLegal parLegal unity below
  exact ⟨_, exec_comp_enabled passes,
    completedTo_advance { sameRegisters_refl s with raced := compSamples_raced s _ } rfl, gains, memory⟩

/-- Settles O35: each word is as its sample left it, and that product is at most the threshold. -/
theorem compWithAttackZeroIsBounded : Obligations.CompWithAttackZeroIsBounded := by
  intro fmt count buf nch par s fmtLegal nchLegal parLegal attack quiet legal aligned inRange
  have passes := comp_passes (en := true) fmtLegal nchLegal parLegal (.inr ⟨aligned, inRange⟩)
  have threshold := kneeThreshold_nonneg fmt par.knee
  refine ⟨_, exec_comp_enabled passes,
    completedTo_advance { sameRegisters_refl s with raced := compSamples_raced s _ } rfl, fun j inBuffer => ?_,
    compSamples_sameOutside s _⟩
  have legalBefore := compSamples_legal (buf := buf) (nch := nch) (par := par) threshold legal j
  rw [advance_mem, tick_readCanon ((compSamples_raced s _).trans quiet), compSamples_readCanon quiet inBuffer,
    compSampleStep_readCanon threshold ((compSamples_raced s j).trans quiet) legalBefore]
  exact movedGain_product_le threshold legalBefore attack j

/-- Settles O36: disabled, neither does anything; enabled, the second command's samples are the last ones of the one
over both blocks, from a memory with the same bytes. -/
theorem compBlocksConcatenate : Obligations.CompBlocksConcatenate := by
  intro fmt en c1 c2 c buf buf2 nch par s fmtLegal nchLegal parLegal quiet aligned both next inRange
  have whole : buf.toNat + 8 * ((c1.toNat + c2.toNat) * nch.toNat) ≤ s.config.memSize := by
    rw [← both, ← Nat.mul_assoc]
    exact inRange
  rw [Nat.add_mul] at whole
  have passes : ∀ (n a : Word) (u : State), a.toNat % 8 = 0 → u.config = s.config →
      a.toNat + 8 * (n.toNat * nch.toNat) ≤ s.config.memSize →
      commandCheck (.comp fmt en n a nch par) u = none := fun n a u aligned config fits =>
    comp_passes fmtLegal nchLegal parLegal (.inr ⟨aligned, by rw [config, Nat.mul_assoc]; exact fits⟩)
  have passes1 := passes c1 buf s aligned rfl (by omega)
  have passesBoth := passes c buf s aligned rfl (by rw [both, Nat.add_mul]; omega)
  cases en with
  | false =>
    have passes2 := passes c2 buf2 (affected (.comp fmt false c1 buf nch par) s).advance (by omega) rfl (by omega)
    exact ⟨_, _, _, exec_eq_advance Instr.noConfusion passes1, exec_eq_advance Instr.noConfusion passes2,
      exec_eq_advance Instr.noConfusion passesBoth, rfl, fun _ => rfl⟩
  | true =>
    obtain ⟨t1, first, config, samples⟩ : ∃ t1, exec (.comp fmt true c1 buf nch par) s = .next t1 ∧
        t1.config = s.config ∧ SameSamples (t1.mem, t1.gains)
          (compSamples (kneeThreshold fmt par.knee) buf nch par s (c1.toNat * nch.toNat)) :=
      ⟨_, exec_comp_enabled passes1, rfl,
        ⟨(compSamples_raced s _).trans quiet, (compSamples_raced s _).trans quiet⟩, fun _ => rfl, rfl⟩
    have passes2 := passes c2 buf2 t1 (by omega) config (by omega)
    obtain ⟨-, memory, gains⟩ := sameSamples_blocks (c2 := c2.toNat) next samples
    rw [← both] at memory gains
    exact ⟨_, _, _, first, exec_comp_enabled passes2, exec_comp_enabled passesBoth, gains, memory⟩

/-- Settles O37: 64 entries of the bank are set to unity, and no other. -/
theorem gaininitSetsTheBankToUnity : Obligations.GaininitSetsTheBankToUnity := by
  intro bank s legal
  have passes : commandCheck (.gaininit bank) s = none := commandCheck_none_iff.mpr ⟨decide_eq_true legal, rfl⟩
  have entry : ∀ b c, gainGet (affected (.gaininit bank) s).gains b c =
      if b = bank.toNat ∧ c < 64 then unityGain else gainGet s.gains b c := fun b c =>
    gaininitLoop_get (Nat.lt_succ_of_le legal) le_rfl
  refine ⟨_, exec_eq_advance Instr.noConfusion passes, completedTo_affected _ s, rfl, fun c below => ?_,
    fun b c other => ?_, fun _ => rfl⟩
  · exact (entry _ c).trans (if_pos ⟨rfl, below⟩)
  · exact (entry b c).trans (if_neg fun own => other own.1)

end Sys2Proof.Proofs
end

section
/-! SUPPORT. FIR over any number of blocks (R179, R181 to R183): the order of its checks, what one frame leaves whether
it completes a block or not, what the last write of OFF leaves, and the statements about checks, filtering and delay. -/

namespace Sys2Proof.Proofs

open Sys2Proof.Machine Sys2Proof.Laws

/-! ## The order of the checks (R179) -/

theorem isPowerOfTwo_iff {n : Nat} : isPowerOfTwo n = true ↔ ∃ k, n = 2 ^ k := by
  constructor
  · intro power
    simp only [isPowerOfTwo, Bool.and_eq_true, beq_iff_eq] at power
    exact ⟨_, power.2.symm⟩
  · rintro ⟨k, rfl⟩
    exact isPowerOfTwo_two_pow k

section Checks

variable {c : Config} {m : Memory} {count st : Word} {buf : Stream} {n off : Nat}

/-- With a header in memory the checks of what it says come next. -/
theorem firCheck_header (counted : count ≠ 0) (kernel : st ≠ 0) (aligned : st.toNat % 8 = 0)
    (header : st.toNat + 8 ≤ c.memSize) :
    firCheck c m count buf st = firStateCheck c count buf st (firLen m st.toNat) (firOff m st.toNat) := by
  rw [firCheck, if_neg counted, if_neg kernel, checkAlign8_or_aligned aligned, checkRange_or_inside header]

theorem firStateCheck_illegal (enabled : n ≠ 0) (illegal : (∀ k, n ≠ 2 ^ k) ∨ 65536 < n ∨ n ≤ off) :
    firStateCheck c count buf st n off = some ⟨.firState, st⟩ := by
  rw [firStateCheck, if_neg enabled]
  split
  · rfl
  · next legalLength =>
    obtain ⟨power, short⟩ := not_or.mp legalLength
    obtain ⟨k, power⟩ := isPowerOfTwo_iff.mp (Bool.eq_true_of_not_eq_false power)
    obtain noPower | long | late := illegal
    · exact absurd power (noPower k)
    · exact absurd long short
    · exact if_pos late

theorem firStateCheck_legal (power : ∃ k, n = 2 ^ k) (short : n ≤ 65536) (offset : off < n) :
    firStateCheck c count buf st n off =
      (checkAlign8 buf.base).or ((checkRange c buf.base (Stream.spanBytes buf count)).or
        ((checkRange c st (firBlockBytes n)).or
          (if firOverlap buf count st n then some ⟨.overlap, st⟩ else none))) := by
  have legalLength : ¬(isPowerOfTwo n = false ∨ Config.firMaxLen < n) := by
    rw [isPowerOfTwo_iff.mpr power]
    simpa [Config.firMaxLen] using short
  rw [firStateCheck, if_neg (by omega), if_neg legalLength, if_neg (by omega)]

theorem firOverlap_of_shared (shared : ∃ a, (st.toNat ≤ a ∧ a < st.toNat + (8 + 28 * n)) ∧
    buf.base.toNat ≤ a ∧ a < buf.base.toNat + Stream.spanBytes buf count) : firOverlap buf count st n = true := by
  obtain ⟨a, ⟨low, high⟩, low', high'⟩ := shared
  exact Bool.and_eq_true_iff.mpr ⟨decide_eq_true (by omega), decide_eq_true (by unfold firBlockBytes; omega)⟩

end Checks

/-- Settles O39: header, state, buffer, block and overlap, each reached when those before it pass. -/
theorem firChecksInOrder : Obligations.FirChecksInOrder := by
  intro count buf st s legal counted kernel n off span faults
  have fails : ∀ f, firCheck s.config s.mem count buf st = some f →
      exec (.fir count buf st) s = .next (s.takeFault f) := fun _ => exec_of_memoryCheck (i := .fir count buf st) legal
  refine ⟨fun misaligned => fails _ ?_, fun aligned => ⟨fun outside => fails _ ?_, fun header enabled => ?_⟩⟩
  · rw [firCheck, if_neg counted, if_neg kernel, checkAlign8_or_misaligned misaligned]
  · rw [firCheck, if_neg counted, if_neg kernel, checkAlign8_or_aligned aligned, checkRange_or_outside outside]
  have check := firCheck_header (m := s.mem) (buf := buf) counted kernel aligned header
  refine ⟨fun illegal => fails _ (check.trans (firStateCheck_illegal enabled illegal)), fun power short offset => ?_⟩
  rw [firStateCheck_legal power short offset] at check
  refine ⟨fun misaligned => fails _ (check.trans (checkAlign8_or_misaligned misaligned _)), fun bufAligned => ?_⟩
  rw [checkAlign8_or_aligned bufAligned] at check
  refine ⟨fun outside => fails _ (check.trans (checkRange_or_outside outside _)), fun bufInRange => ?_⟩
  rw [checkRange_or_inside (n := Stream.spanBytes buf count) bufInRange] at check
  refine ⟨fun outside => fails _ (check.trans (checkRange_or_outside outside _)), fun inRange shared => ?_⟩
  rw [checkRange_or_inside (n := firBlockBytes (firLen s.mem st.toNat)) inRange,
    if_pos (firOverlap_of_shared shared)] at check
  exact fails _ check

/-! ## One frame (R182, R183) -/

/-- The block that frame `i` completes has the frame's sample at its offset and the words of IN elsewhere. -/
def completedInput (buf : Stream) (st o i : Nat) (m : Memory) (j : Nat) : Int :=
  if j = o then m.readCanon 0 (Stream.sampleAddr buf i) else m.readCanon 0 (firIn st j)

/-- What a frame's completed block adds into the output history (R181). -/
def completedOutput (buf : Stream) (st n o i : Nat) (m : Memory) (j : Nat) : Int :=
  (∑ k ∈ Finset.range n, ∑ l ∈ Finset.range n,
    if k + l = j then (m.read 0 (firCoeff st n k) 4 : Int).bmod (2 ^ 32) * completedInput buf st o i m l else 0) /
      2 ^ 30

/-- Frame `i` at offset `o` takes memory `m` to `m'`. -/
structure FirFrame (buf : Stream) (st n o i : Nat) (m m' : Memory) : Prop where
  output : m'.readCanon 0 (Stream.sampleAddr buf i) = m.readCanon 0 (firOut st n o)
  input : m'.readCanon 0 (firIn st o) = m.readCanon 0 (Stream.sampleAddr buf i)
  within : o + 1 ≠ n →
    m.sameOutside (byteRange (Stream.sampleAddr buf i) 8 ++ byteRange (firIn st o) 8) m'
  completes : o + 1 = n →
    (∀ j < n, m'.readCanon 0 (firOut st n j) =
      (m.readCanon 0 (firOut st n (n + j)) + completedOutput buf st n o i m j).bmod (2 ^ 64)) ∧
    (∀ j < n, m'.readCanon 0 (firOut st n (n + j)) = (completedOutput buf st n o i m (n + j)).bmod (2 ^ 64)) ∧
    m.sameOutside (byteRange (Stream.sampleAddr buf i) 8 ++ byteRange (firIn st o) 8 ++
      byteRange (firOut st n 0) (16 * n)) m'

section Frame

variable {buf : Stream} {st n o i : Nat} {m : Memory}

theorem firReceive_raced (buf : Stream) (st i : Nat) (m : Memory) (o : Nat) :
    (firReceive buf st i m o).raced = m.raced := writeCanon_raced ..

theorem firReceive_frame {x : Nat} (outside : x < firIn st o ∨ firIn st o + 8 ≤ x) :
    (firReceive buf st i m o).peek x = m.peek x := peek_writeCanon_other outside

/-- The word the frame puts into IN is its sample, an int64. -/
theorem firReceive_readIn (quiet : m.raced = []) :
    (firReceive buf st i m o).readCanon 0 (firIn st o) = m.readCanon 0 (Stream.sampleAddr buf i) := by
  obtain ⟨low, high⟩ := readCanon_range m 0 (Stream.sampleAddr buf i)
  rw [firReceive, readCanon_writeCanon_same _ _ _ quiet, readCanon_key quiet (i + 2) 0, wrap64_of_range low high]

theorem firReceive_readCanon_other {a : Nat} (key : Nat) (quiet : m.raced = [])
    (apart : a + 8 ≤ firIn st o ∨ firIn st o + 8 ≤ a) :
    (firReceive buf st i m o).readCanon key a = m.readCanon 0 a :=
  readCanon_congr quiet ((firReceive_raced ..).trans quiet) fun x low high => firReceive_frame (by omega)

/-- The sum over the block that has just been completed, in terms of the memory before the frame. -/
theorem convOut_firReceive (quiet : m.raced = []) (offset : o < n) (j : Nat) :
    convOut n (readCoeff (firReceive buf st i m o) (i + 2) st n) (readIn (firReceive buf st i m o) (i + 2) st) j =
      completedOutput buf st n o i m j := by
  have quietAfter : (firReceive buf st i m o).raced = [] := (firReceive_raced ..).trans quiet
  refine convOut_eq_sum (fun k inKernel => ?_) (fun l inBlock => ?_) j
  · exact readCoeff_eq_bmod _ quietAfter quiet fun x low high =>
      firReceive_frame (by unfold firCoeff at low; unfold firIn; omega)
  · rw [readIn, completedInput]
    split
    · next own => rw [own, readCanon_key quietAfter (i + 2) 0, firReceive_readIn quiet]
    · exact firReceive_readCanon_other _ quiet (by unfold firIn; omega)

/-- The word a frame returns stood in OUT at its offset when the frame began. -/
theorem readOut_firReceive (quiet : m.raced = []) (offset : o < n) :
    readOut (firReceive buf st i m o) (i + 2) st n o = m.readCanon 0 (firOut st n o) :=
  firReceive_readCanon_other _ quiet (by unfold firOut firIn; omega)

/-- The frame's last write, the word returned in the sample's place, leaves the state block alone. -/
theorem emitted_readCanon {m' : Memory} {a : Nat} (y : Int) (quiet : m'.raced = []) (low : st ≤ a)
    (high : a + 8 ≤ st + (8 + 28 * n))
    (apart : Stream.sampleAddr buf i + 8 ≤ st ∨ st + (8 + 28 * n) ≤ Stream.sampleAddr buf i) :
    (m'.writeCanon (Stream.sampleAddr buf i) y).readCanon 0 a = m'.readCanon 0 a :=
  readCanon_congr quiet ((writeCanon_raced ..).trans quiet) fun x above below => peek_writeCanon_other (by omega)

theorem emitted_readSample {m' : Memory} {a : Nat} (quiet : m'.raced = []) :
    (m'.writeCanon (Stream.sampleAddr buf i) (m.readCanon 0 a)).readCanon 0 (Stream.sampleAddr buf i) =
      m.readCanon 0 a := by
  obtain ⟨low, high⟩ := readCanon_range m 0 a
  rw [readCanon_writeCanon_same _ _ _ quiet, wrap64_of_range low high]

theorem firStep_frame (quiet : m.raced = []) (offset : o < n)
    (apart : Stream.sampleAddr buf i + 8 ≤ st ∨ st + (8 + 28 * n) ≤ Stream.sampleAddr buf i) :
    FirFrame buf st n o i m (firStep buf st n i (m, o)).1 := by
  have received : (firReceive buf st i m o).raced = [] := (firReceive_raced ..).trans quiet
  by_cases completes : o + 1 = n
  · rw [firStep_completing completes, readOut_firReceive quiet offset]
    have blockQuiet : (firBlock (i + 2) st n (firReceive buf st i m o)).raced = [] := (firBlock_raced ..).trans received
    refine ⟨emitted_readSample blockQuiet, ?_, fun within => absurd completes within, fun _ => ⟨fun j inBlock => ?_,
      fun j inBlock => ?_, fun x outside => ?_⟩⟩
    · rw [emitted_readCanon _ blockQuiet (by unfold firIn; omega) (by unfold firIn; omega) apart,
        firBlock_readIn received offset, firReceive_readIn quiet]
    · rw [emitted_readCanon _ blockQuiet (by unfold firOut; omega) (by unfold firOut; omega) apart,
        firBlock_readOut_low received inBlock, convOut_firReceive quiet offset,
        firReceive_readCanon_other 0 quiet (by unfold firOut firIn; omega)]
    · rw [emitted_readCanon _ blockQuiet (by unfold firOut; omega) (by unfold firOut; omega) apart,
        firBlock_readOut_high received inBlock, convOut_firReceive quiet offset]
    · simp only [List.mem_append, not_or] at outside
      obtain ⟨⟨sample, input⟩, output⟩ := outside
      have history := outside_byteRange output
      unfold firOut at history
      rw [peek_writeCanon_other (outside_byteRange sample), firBlock_frame (by omega),
        firReceive_frame (outside_byteRange input)]
  · rw [firStep_within completes, readOut_firReceive quiet offset]
    refine ⟨emitted_readSample received, ?_, fun _ x outside => ?_, fun completing => absurd completing completes⟩
    · rw [emitted_readCanon _ received (by unfold firIn; omega) (by unfold firIn; omega) apart, firReceive_readIn quiet]
    · rw [List.mem_append, not_or] at outside
      obtain ⟨sample, input⟩ := outside
      rw [peek_writeCanon_other (outside_byteRange sample), firReceive_frame (outside_byteRange input)]

theorem firStep_offset (m : Memory) (offset : o < n) : (firStep buf st n i (m, o)).2 = (o + 1) % n := by
  by_cases completes : o + 1 = n
  · rw [firStep_completing completes, completes, Nat.mod_self]
  · rw [firStep_within completes, Nat.mod_eq_of_lt (by omega)]

end Frame

/-! ## The frames of a command -/

/-- Memory and OFF after `i` frames from memory `m` and offset `off`. -/
def firFrames (buf : Stream) (st n : Nat) (m : Memory) (off i : Nat) : Memory × Nat :=
  loop i (firStep buf st n) (m, off)

section Frames

variable {buf : Stream} {st n off c i : Nat} {m : Memory}

theorem firFrames_zero (buf : Stream) (st n : Nat) (m : Memory) (off : Nat) :
    firFrames buf st n m off 0 = (m, off) := rfl

theorem firFrames_succ (buf : Stream) (st n : Nat) (m : Memory) (off i : Nat) :
    firFrames buf st n m off (i + 1) = firStep buf st n i (firFrames buf st n m off i) := rfl

theorem firFrames_quiet (quiet : m.raced = []) (i : Nat) : (firFrames buf st n m off i).1.raced = [] :=
  (firLoop_raced ..).trans quiet

theorem firFrames_offset (offset : off < n) (i : Nat) : (firFrames buf st n m off i).2 = (off + i) % n := by
  induction i with
  | zero => exact (Nat.mod_eq_of_lt offset).symm
  | succ i ih =>
    rw [firFrames_succ, show firFrames buf st n m off i = ((firFrames buf st n m off i).1, (off + i) % n) from
      Prod.ext rfl ih, firStep_offset _ (Nat.mod_lt _ (by omega)), Nat.mod_add_mod, Nat.add_assoc]

theorem firFrames_frame (quiet : m.raced = []) (offset : off < n) (apart : FramesApart buf st n c) (frame : i < c) :
    FirFrame buf st n ((off + i) % n) i (firFrames buf st n m off i).1 (firFrames buf st n m off (i + 1)).1 := by
  rw [firFrames_succ, show firFrames buf st n m off i = ((firFrames buf st n m off i).1, (off + i) % n) from
    Prod.ext rfl (firFrames_offset offset i)]
  exact firStep_frame (firFrames_quiet quiet i) (Nat.mod_lt _ (by omega)) (apart i frame)

/-- Later frames write later words of the stream, so word `i` is as frame `i` left it. -/
theorem firFrames_readSample (quiet : m.raced = []) (offset : off < n) (legal : buf.wf = true)
    (apart : FramesApart buf st n c) (frame : i < c) :
    (firFrames buf st n m off c).1.readCanon 0 (Stream.sampleAddr buf i) =
      (firFrames buf st n m off (i + 1)).1.readCanon 0 (Stream.sampleAddr buf i) := by
  refine readCanon_congr (firFrames_quiet quiet (i + 1)) (firFrames_quiet quiet c) fun x low high => ?_
  refine loop_settled (fun p : Memory × Nat => p.1.peek x) frame fun j later below => ?_
  have rising := sampleAddr_rising legal later
  have away := apart i frame
  simp only [firStep]
  rw [peek_writeCanon_other (by omega)]
  exact firSample_frame (firLoop_off offset) (by omega)

/-- A sample that no frame has reached is as the command found it. -/
theorem firFrames_readSample_ahead (quiet : m.raced = []) (offset : off < n) (legal : buf.wf = true)
    (apart : FramesApart buf st n c) {j : Nat} (ahead : i ≤ j) (frame : j < c) :
    (firFrames buf st n m off i).1.readCanon 0 (Stream.sampleAddr buf j) =
      m.readCanon 0 (Stream.sampleAddr buf j) := by
  refine readCanon_congr quiet (firFrames_quiet quiet i) fun x low high => ?_
  have away := apart j frame
  refine firLoop_frame offset (fun k earlier => ?_) (by omega)
  have := sampleAddr_rising legal (earlier.trans_le ahead)
  omega

/-- Before the first block completes, OUT is as the command found it. -/
theorem firFrames_readOut (quiet : m.raced = []) (legal : buf.wf = true) (within : off + i < n)
    (apart : FramesApart buf st n i) {j : Nat} (inBlock : j < n) :
    (firFrames buf st n m off i).1.readCanon 0 (firOut st n j) = m.readCanon 0 (firOut st n j) := by
  obtain ⟨-, part⟩ := firLoop_blockPart quiet legal within apart
  refine readCanon_congr quiet (firFrames_quiet quiet i) fun x low high => ?_
  unfold firOut at low high
  exact part.frame x (by omega) (apart.outside (by omega) (by omega))

/-- N and H are as the command found them. -/
theorem firFrames_kernel (offset : off < n) (apart : FramesApart buf st n c) (frame : i ≤ c) {x : Nat} (low : st ≤ x)
    (high : x < st + (8 + 28 * n)) (unwritten : x < st + 8 ∨ st + 8 + 24 * n ≤ x) :
    (firFrames buf st n m off i).1.peek x = m.peek x :=
  firLoop_frame offset ((apart.mono frame).outside low high) unwritten

end Frames

/-! ## The whole command (R183) -/

section Run

variable {buf : Stream} {count st : Word} {m : Memory}

theorem firRun_frames (active : firActive m count st = true) :
    firRun m count buf st =
      (firFrames buf st.toNat (firLen m st.toNat) m (firOff m st.toNat) count.toNat).1.write (st.toNat + 4) 4
        (firFrames buf st.toNat (firLen m st.toNat) m (firOff m st.toNat) count.toNat).2 := firRun_active buf active

/-- The last write, of OFF, leaves every word but its own. -/
theorem firRun_readCanon (active : firActive m count st = true) (quiet : m.raced = []) {a : Nat}
    (apart : a + 8 ≤ st.toNat + 4 ∨ st.toNat + 8 ≤ a) :
    (firRun m count buf st).tick.readCanon 0 a =
      (firFrames buf st.toNat (firLen m st.toNat) m (firOff m st.toNat) count.toNat).1.readCanon 0 a := by
  rw [tick_readCanon ((firRun_raced ..).trans quiet), firRun_frames active]
  exact readCanon_congr (firFrames_quiet quiet _) ((write_raced ..).trans (firFrames_quiet quiet _)) fun x low high =>
    peek_write_other (by omega)

theorem firRun_len (active : firActive m count st = true) (quiet : m.raced = [])
    (offset : firOff m st.toNat < firLen m st.toNat)
    (apart : FramesApart buf st.toNat (firLen m st.toNat) count.toNat) :
    firLen (firRun m count buf st).tick st.toNat = firLen m st.toNat := by
  refine read_congr quiet ((firRun_raced ..).trans quiet) fun x low high => ?_
  rw [tick_peek, firRun_frames active, peek_write_other (by omega)]
  exact firFrames_kernel offset apart le_rfl (by omega) (by omega) (by omega)

theorem firRun_off (active : firActive m count st = true) (quiet : m.raced = [])
    (offset : firOff m st.toNat < firLen m st.toNat) (short : firLen m st.toNat ≤ 65536) :
    firOff (firRun m count buf st).tick st.toNat = (firOff m st.toNat + count.toNat) % firLen m st.toNat := by
  have below := Nat.mod_lt (firOff m st.toNat + count.toNat) (Nat.zero_lt_of_lt offset)
  rw [firRun_frames active, firOff_write (firFrames_quiet quiet _), firFrames_offset offset]
  exact Nat.mod_eq_of_lt (below.trans (by omega))

end Run

/-- Settles O40: M i is the memory after `i` frames; the last write, of OFF, lies in no word that the statement reads
but OFF itself. -/
theorem firFiltersInPlace : Obligations.FirFiltersInPlace := by
  intro count buf st k s legal counted kernel quiet n off span power short offset aligned bufAligned bufInRange
    inRange apart
  have passes := firCheck_passes power short offset aligned bufAligned bufInRange inRange apart
  have active := firActive_iff.mpr ⟨counted, kernel, Nat.ne_zero_of_lt offset⟩
  have framesApart : FramesApart buf st.toNat n count.toNat := framesApart_of_spans legal apart
  let M := fun i => (firFrames buf st.toNat n s.mem off i).1
  refine ⟨_, exec_fir legal passes, completedTo_fir count st buf s, rfl, rfl,
    firRun_len active quiet offset framesApart, firRun_off active quiet offset short, fun i frame within => ?lag,
    fun x outside => ?outside, M, rfl, fun x outside => ?last, fun i frame => ?frame⟩
  case lag =>
    have away := framesApart i frame
    rw [advance_mem, firRun_readCanon active quiet (by omega),
      firFrames_readSample quiet offset legal framesApart frame,
      (firFrames_frame quiet offset framesApart frame).output, Nat.mod_eq_of_lt within]
    exact firFrames_readOut quiet legal within (framesApart.mono frame.le) within
  case outside =>
    rw [← firDest_active buf active] at outside
    exact firRun_sameOutside passes x outside
  case last =>
    rw [advance_mem, tick_peek, firRun_frames active]
    exact peek_write_other (outside_byteRange outside)
  case frame =>
    obtain ⟨output, input, within, completes⟩ := firFrames_frame quiet offset framesApart frame
    exact ⟨output, input, within, completes⟩

/-! ## The unit kernel of length 1 (R185) -/

section Unit

variable {buf : Stream} {st c : Nat} {m : Memory}

/-- Of one coefficient and one sample there is one product, on index 0. -/
theorem completedOutput_one (i j : Nat) :
    completedOutput buf st 1 0 i m j =
      (if 0 = j then (m.read 0 (firCoeff st 1 0) 4 : Int).bmod (2 ^ 32) * m.readCanon 0 (Stream.sampleAddr buf i)
        else 0) / 2 ^ 30 := by
  rw [completedOutput, Finset.sum_range_one, Finset.sum_range_one, completedInput, if_pos rfl]

/-- The coefficient 2^30 is 1 in the kernel's format, so its product is the sample. -/
theorem completedOutput_unit (unit : m.read 0 (firCoeff st 1 0) 4 = 2 ^ 30) (i : Nat) :
    completedOutput buf st 1 0 i m 0 = m.readCanon 0 (Stream.sampleAddr buf i) := by
  have coefficient : ((2 ^ 30 : Nat) : Int).bmod (2 ^ 32) = 2 ^ 30 := by decide
  rw [completedOutput_one, if_pos rfl, unit, coefficient]
  exact Int.mul_ediv_cancel_left _ (by norm_num)

theorem completedOutput_upper (i : Nat) : completedOutput buf st 1 0 i m 1 = 0 := by
  rw [completedOutput_one, if_neg (by decide), Int.zero_ediv]

/-- With the unit kernel a frame leaves its sample in OUT[0] and 0 in OUT[1], which was 0. -/
theorem FirFrame.unit {i : Nat} {m' : Memory} (frame : FirFrame buf st 1 0 i m m')
    (unit : m.read 0 (firCoeff st 1 0) 4 = 2 ^ 30) (upper : m.readCanon 0 (firOut st 1 1) = 0) :
    m'.readCanon 0 (firOut st 1 0) = m.readCanon 0 (Stream.sampleAddr buf i) ∧
      m'.readCanon 0 (firOut st 1 1) = 0 := by
  obtain ⟨low, high, -⟩ := frame.completes rfl
  obtain ⟨floor, ceiling⟩ := readCanon_range m 0 (Stream.sampleAddr buf i)
  constructor
  · rw [low 0 Nat.one_pos, upper, completedOutput_unit unit, zero_add, ← wrap64_eq_bmod, wrap64_of_range floor ceiling]
  · rw [high 0 Nat.one_pos, completedOutput_upper, Int.zero_bmod]

/-- After each frame OUT[0] is the frame's sample and OUT[1] is 0 again. -/
theorem firFrames_unit (quiet : m.raced = []) (legal : buf.wf = true) (apart : FramesApart buf st 1 c)
    (unit : m.read 0 (firCoeff st 1 0) 4 = 2 ^ 30) (upper : m.readCanon 0 (firOut st 1 1) = 0) {i : Nat}
    (frame : i ≤ c) :
    (firFrames buf st 1 m 0 i).1.readCanon 0 (firOut st 1 0) =
        (if i = 0 then m.readCanon 0 (firOut st 1 0) else m.readCanon 0 (Stream.sampleAddr buf (i - 1))) ∧
      (firFrames buf st 1 m 0 i).1.readCanon 0 (firOut st 1 1) = 0 := by
  induction i with
  | zero =>
    rw [firFrames_zero, if_pos rfl]
    exact ⟨rfl, upper⟩
  | succ i ih =>
    obtain ⟨-, upperBefore⟩ := ih (Nat.le_of_succ_le frame)
    have kernel : (firFrames buf st 1 m 0 i).1.read 0 (firCoeff st 1 0) 4 = 2 ^ 30 :=
      (read_congr quiet (firFrames_quiet quiet i) fun x low high => by
        unfold firCoeff at low high
        exact firFrames_kernel Nat.one_pos apart (Nat.le_of_succ_le frame) (by omega) (by omega) (by omega)).trans unit
    have step := firFrames_frame quiet Nat.one_pos apart frame
    rw [Nat.mod_one] at step
    obtain ⟨sample, upperAfter⟩ := step.unit kernel upperBefore
    refine ⟨?_, upperAfter⟩
    rw [sample, if_neg i.succ_ne_zero, Nat.add_sub_cancel]
    exact firFrames_readSample_ahead quiet Nat.one_pos legal apart le_rfl frame

end Unit

/-- Settles O42: every frame completes a block of one sample, whose product waits in OUT[0] for the next frame. -/
theorem firUnitKernelDelaysByOne : Obligations.FirUnitKernelDelaysByOne := by
  intro count buf st s legal counted kernel quiet span length offset unit upper aligned bufAligned bufInRange inRange
    apart
  have passes : firCheck s.config s.mem count buf st = none :=
    firCheck_passes (k := 0) length (by omega) (by omega) aligned bufAligned bufInRange
      (by rw [length]; exact inRange) (by rw [length]; exact apart)
  have active := firActive_iff.mpr ⟨counted, kernel, length.trans_ne Nat.one_ne_zero⟩
  have framesApart : FramesApart buf st.toNat 1 count.toNat := framesApart_of_spans legal apart
  have positive : 0 < count.toNat := Nat.pos_of_ne_zero fun zero => counted (BitVec.eq_of_toNat_eq zero)
  refine ⟨_, exec_fir legal passes, completedTo_fir count st buf s, fun i frame => ?_, ?_⟩
  · have away := framesApart i frame
    rw [advance_mem, firRun_readCanon active quiet (a := Stream.sampleAddr buf i) (by omega), length, offset,
      firFrames_readSample quiet Nat.one_pos legal framesApart frame,
      (firFrames_frame quiet Nat.one_pos framesApart frame).output, Nat.mod_one]
    exact (firFrames_unit quiet legal framesApart unit upper frame.le).1
  · rw [advance_mem, firRun_readCanon active quiet (a := firOut st.toNat 1 0) (by unfold firOut; omega), length, offset,
      (firFrames_unit quiet legal framesApart unit upper le_rfl).1, if_neg positive.ne']

end Sys2Proof.Proofs
end

section
/-! SUPPORT. The register window and the resets (R23 to R40, R230 to R232): what each write leaves of a run, what reads
give back, what a reset leaves of memory, and the statements about them. -/

namespace Sys2Proof.Proofs

open Sys2Proof.Machine Sys2Proof.Laws

variable {s : State}

/-! ## Resets (R230 to R232) -/

theorem statusWord_idle (busy : s.busy = false) (done : s.done = false) (fault : s.fault = false)
    (stopped : s.stopped = false) (pending : s.stopPending = false) : s.statusWord = 0 := by
  rw [State.statusWord, busy, done, fault, stopped, pending]
  decide

theorem defined_atPowerOn (epoch draws a : Nat) : (Memory.atPowerOn epoch draws).defined a = false := rfl

/-- Settles O46: power-on gives the reset values over a memory that lists no byte. -/
theorem powerOnResetsEverything : Obligations.PowerOnResetsEverything := fun s =>
  ⟨_, rfl, rfl, statusWord_idle rfl rfl rfl rfl rfl, powerOn_irqEn s, powerOn_cmdPtr s, powerOn_faultCause s,
    powerOn_faultInfo s, powerOn_lfsr s, powerOn_gainIdx s, gainGet_unity,
    powerOn_busy s, powerOn_done s, powerOn_fault s, powerOn_stopped s, powerOn_stopPending s, rfl, rfl, fun a => defined_atPowerOn _ _ a⟩

theorem writeRegister_ctrl_reset {v : Word} (reset : v.getLsbD 2 = true) :
    s.writeRegister 0x04 v = s.resetStrobe := by
  change s.writeCtrl v = _
  rw [State.writeCtrl, if_pos reset]

/-- Settles O47: the write is the strobe, and at a boundary or while idle no command has bytes in flight. -/
theorem resetStrobeResetsAllButMemory : Obligations.ResetStrobeResetsAllButMemory := by
  intro s v reset
  rw [writeRegister_ctrl_reset reset]
  refine ⟨statusWord_idle rfl rfl rfl rfl rfl, resetStrobe_irqEn s, resetStrobe_cmdPtr s, resetStrobe_faultCause s,
    resetStrobe_faultInfo s, resetStrobe_lfsr s, resetStrobe_gainIdx s, gainGet_unity, rfl,
    resetStrobe_config s, fun quiet boundary a => ?_⟩
  exact resetStrobe_peek quiet (by rw [inFlightBytes_boundary boundary]; exact List.not_mem_nil)

/-- The bytes in flight are the destination of the command at CMD_PTR, if it decodes and passes its checks. -/
theorem mem_inFlightBytes (busy : s.busy = true) (executing : s.executing = true) {a : Nat} :
    a ∈ inFlightBytes s ↔ ∃ i, s.cmdPtr.toNat + 32 ≤ s.config.memSize ∧ decode (fetchWords s) = .ok i ∧
      commandCheck i s = none ∧ a ∈ destBytes i s.mem := by
  have range : fetchInRange s = true ↔ s.cmdPtr.toNat + 32 ≤ s.config.memSize := decide_eq_true_iff
  rw [inFlightBytes, busy, executing, Bool.and_self, Bool.true_and]
  by_cases inRange : s.cmdPtr.toNat + 32 ≤ s.config.memSize
  · rw [if_pos (range.mpr inRange)]
    cases decode (fetchWords s) with
    | error f => simp
    | ok i => by_cases passes : commandCheck i s = none <;> simp [inRange, passes]
  · rw [if_neg (mt range.mp inRange)]
    simp [inRange]

/-- Settles O48: the strobe changes and undefines exactly the bytes in flight. -/
theorem midCommandResetKeepsOtherBytes : Obligations.MidCommandResetKeepsOtherBytes := by
  intro s v quiet busy executing reset
  rw [writeRegister_ctrl_reset reset]
  refine ⟨fun a => ?kept, fun i a cut => ?undefined, statusWord_idle rfl rfl rfl rfl rfl, resetStrobe_irqEn s,
    resetStrobe_cmdPtr s, resetStrobe_faultCause s, resetStrobe_faultInfo s, resetStrobe_lfsr s,
    resetStrobe_gainIdx s, gainGet_unity, rfl, resetStrobe_executing s⟩
  case kept =>
    by_cases inFlight : a ∈ inFlightBytes s
    · exact .inr ((mem_inFlightBytes busy executing).mp inFlight)
    · exact .inl (resetStrobe_peek quiet inFlight)
  case undefined =>
    rw [resetStrobe_mem, if_pos busy]
    exact not_defined_cutShort _ _ ((mem_inFlightBytes busy executing).mpr ⟨i, cut⟩)

/-! ## CTRL and STATUS (R25, R26) -/

/-- Settles O50: during a run only STOP is looked at, and while idle a write without START leaves no run to stop. -/
theorem strobesAreIgnoredOutOfTurn : Obligations.StrobesAreIgnoredOutOfTurn := by
  intro s v noReset
  refine ⟨fun busy noStop => ?_, fun idle noStart => ?_, fun busy stop => ?_⟩
  · rw [writeRegister_ctrl_busy noReset busy, noStop, if_neg Bool.false_ne_true]
  · change s.writeCtrl v = s
    simp only [State.writeCtrl, noReset, noStart, idle, Bool.false_and, Bool.and_false, Bool.false_eq_true, if_false]
  · rw [writeRegister_ctrl_busy noReset busy, stop, if_pos rfl]

theorem bitAt_getLsbD (b : Bool) {pos : Nat} (inWord : pos < 32) (k : Nat) :
    (bitAt b pos).getLsbD k = (k == pos && b) := by
  have one : ((1 : Word) <<< pos).getLsbD k = (k == pos) := by
    change (BitVec.twoPow 32 pos).getLsbD k = _
    rw [BitVec.getLsbD_twoPow, decide_eq_true inWord, Bool.true_and, beq_eq_decide]
    exact decide_eq_decide.mpr eq_comm
  cases b with
  | false => simp [bitAt]
  | true => rw [bitAt, if_pos rfl, one, Bool.and_true]

theorem statusWord_getLsbD (s : State) (k : Nat) :
    s.statusWord.getLsbD k =
      (k == 0 && s.busy || k == 1 && s.done || k == 2 && s.fault || k == 3 && s.stopped ||
        k == 4 && s.stopPending) := by
  simp only [State.statusWord, BitVec.getLsbD_or, bitAt_getLsbD _ (show 0 < 32 by norm_num),
    bitAt_getLsbD _ (show 1 < 32 by norm_num), bitAt_getLsbD _ (show 2 < 32 by norm_num),
    bitAt_getLsbD _ (show 3 < 32 by norm_num), bitAt_getLsbD _ (show 4 < 32 by norm_num)]

/-- Settles O51: the five bits stand at their positions, and a write of 1 clears the three that can be written. -/
theorem statusIsWriteOneToClear : Obligations.StatusIsWriteOneToClear := by
  intro s v k
  change s.statusWord.getLsbD k = _ ∧ (s.writeStatus v).statusWord.getLsbD k = (s.statusWord.getLsbD k && _)
  refine ⟨statusWord_getLsbD s k, ?_⟩
  rw [statusWord_getLsbD, statusWord_getLsbD]
  match k with
  | 0 | 1 | 2 | 3 | 4 | k + 5 => simp

/-! ## Writes during a run (R39) -/

/-- What a command computes from, and BUSY: states that agree on these run the same command to the same end. -/
structure SameRun (s w : State) : Prop where
  config : w.config = s.config
  cmdPtr : w.cmdPtr = s.cmdPtr
  lfsr : w.lfsr = s.lfsr
  gains : w.gains = s.gains
  mem : w.mem = s.mem
  busy : w.busy = s.busy

theorem SameRun.commandCheck_same {w : State} (same : SameRun s w) (i : Instr) :
    commandCheck i w = commandCheck i s := by
  have memory : memoryCheck i w = memoryCheck i s := by
    cases i with
    | fir => rw [memoryCheck, same.config, same.mem]; rfl
    | halt | maxv | gaininit | importWire | exportWire | silence | mix | comp =>
      simp only [memoryCheck, same.config]
  rw [commandCheck, memory]
  rfl

/-- The checks and the effect of a command are functions of what the two states share. -/
theorem SameRun.exec_same {w : State} (same : SameRun s w) (i : Instr) {t : State} (executed : exec i s = .next t) :
    ∃ u, exec i w = .next u ∧ SameRun t u := by
  obtain ⟨config, cmdPtr, lfsr, gains, mem, busy⟩ := same
  by_cases halts : i = .halt
  · subst halts
    cases executed
    exact ⟨_, rfl, config, cmdPtr, lfsr, gains, congrArg Memory.endRun mem, rfl⟩
  rw [exec_eq_commit halts] at executed
  cases executed
  refine ⟨_, exec_eq_commit halts w, ?_⟩
  rw [SameRun.commandCheck_same ⟨config, cmdPtr, lfsr, gains, mem, busy⟩]
  cases commandCheck i s with
  | some f => exact ⟨config, cmdPtr, lfsr, gains, congrArg Memory.endRun mem, rfl⟩
  | none =>
    have effects : effect i w.mem w.lfsr w.gains = effect i s.mem s.lfsr s.gains := by rw [mem, lfsr, gains]
    exact ⟨config, congrArg (· + 32) cmdPtr, congrArg (fun e => e.2.1) effects, congrArg (fun e => e.2.2) effects,
      congrArg (fun e => e.1.tick) effects, busy⟩

theorem ite_busy (busy : s.busy = true) (t : State) : (if s.busy then s else t) = s := if_pos busy

/-- During a run a write of a register but CTRL leaves what the run computes from, and a pending stop. -/
theorem writeRegister_sameRun (busy : s.busy = true) {offset : Nat} (other : offset ≠ 0x04) (v : Word) :
    SameRun s (s.writeRegister offset v) ∧ (s.writeRegister offset v).stopPending = s.stopPending := by
  simp only [State.writeRegister, ite_busy busy]
  split
  · exact absurd rfl other
  all_goals exact ⟨⟨rfl, rfl, rfl, rfl, rfl, rfl⟩, rfl⟩

theorem writeRegister_irqEn (busy : s.busy = true) {offset : Nat} (other : offset ≠ 0x04) (v : Word) :
    (s.writeRegister offset v).irqEn = if offset = 0x0C then v &&& 0x0000000E else s.irqEn := by
  by_cases own : offset = 0x0C
  · subst own
    rfl
  · simp only [State.writeRegister, ite_busy busy, if_neg own]
    split
    · exact absurd rfl other
    · rfl
    · exact absurd rfl own
    all_goals rfl

theorem writeRegister_gainIdx (busy : s.busy = true) {offset : Nat} (other : offset ≠ 0x04) (v : Word) :
    (s.writeRegister offset v).gainIdx = if offset = 0x20 then v &&& 0x00000F3F else s.gainIdx := by
  by_cases own : offset = 0x20
  · subst own
    rfl
  · simp only [State.writeRegister, ite_busy busy, if_neg own]
    split
    · exact absurd rfl other
    any_goals rfl
    exact absurd rfl own

/-- Settles O52: the write leaves what a command computes from, so the next command does the same. -/
theorem busyProtectsTheRun : Obligations.BusyProtectsTheRun := by
  intro s offset v busy other
  obtain ⟨same, pending⟩ := writeRegister_sameRun busy other v
  refine ⟨⟨same.cmdPtr, same.lfsr, same.gains, same.mem, same.busy.trans busy, pending⟩,
    writeRegister_irqEn busy other v, writeRegister_gainIdx busy other v, fun i t executed => ?_⟩
  obtain ⟨u, executed', sameAfter⟩ := same.exec_same i executed
  exact ⟨u, executed', sameAfter.cmdPtr, sameAfter.lfsr, sameAfter.gains, sameAfter.mem, sameAfter.busy⟩

/-! ## Reading back (R24, R27 to R32, R37) -/

/-- The mask of a CMD_PTR write takes the low five bits away (R28). -/
theorem masked_eq_div_mul (v : Word) : v &&& 0xFFFFFFE0 = v / 32 * 32 := by
  have aligned := masked_aligned v
  have quotient : (v &&& 0xFFFFFFE0).toNat / 32 = v.toNat / 32 := by
    have bound := v.isLt
    calc (v &&& 0xFFFFFFE0).toNat / 32 = v.toNat / 2 ^ 5 &&& 0xFFFFFFE0 / 2 ^ 5 := by
          rw [BitVec.toNat_and]
          exact Nat.and_div_two_pow (a := v.toNat) (b := 0xFFFFFFE0) (n := 5)
      _ = v.toNat / 2 ^ 5 % 2 ^ 27 := Nat.and_two_pow_sub_one_eq_mod _ 27
      _ = v.toNat / 32 := Nat.mod_eq_of_lt (by omega)
  apply BitVec.eq_of_toNat_eq
  rw [BitVec.toNat_mul, BitVec.toNat_udiv]
  change _ = v.toNat / 32 * 32 % 2 ^ 32
  omega

theorem readRegister_cmdPtr_idle (idle : s.busy = false) : s.readRegister 0x10 = s.cmdPtr := by
  change s.visibleBoundary.cmdPtr = _
  rw [visibleBoundary_idle idle]
  rfl

theorem readRegister_lfsr_idle (idle : s.busy = false) : s.readRegister 0x1C = s.lfsr := by
  change s.visibleBoundary.lfsr = _
  rw [visibleBoundary_idle idle]
  rfl

/-- Settles O53: reads of idle registers show the registers, and FAULT_CAUSE shows its code. -/
theorem registersReadBack : Obligations.RegistersReadBack := by
  refine ⟨fun s => ⟨rfl, ?codes⟩, fun s v idle => ⟨?cmdPtr, rfl, rfl, ?lfsr, rfl, rfl, rfl, rfl, rfl⟩⟩
  case codes =>
    intro p listed cause
    change (causeCode s.faultCause).setWidth 32 = p.2
    rw [cause]
    clear cause
    revert p
    decide
  case cmdPtr =>
    have written : s.writeRegister 0x10 v = { s with cmdPtr := v &&& 0xFFFFFFE0 } := by
      simp [State.writeRegister, idle]
    rw [written]
    exact (readRegister_cmdPtr_idle (s := { s with cmdPtr := v &&& 0xFFFFFFE0 }) idle).trans (masked_eq_div_mul v)
  case lfsr =>
    have written : s.writeRegister 0x1C v = { s with lfsr := v } := by simp [State.writeRegister, idle]
    rw [written]
    exact readRegister_lfsr_idle (s := { s with lfsr := v }) idle

/-- Settles O55: no register stands at 0x28 or above. -/
theorem reservedOffsetsReadZero : Obligations.ReservedOffsetsReadZero := by
  intro s offset v low _
  obtain ⟨k, rfl⟩ := Nat.exists_eq_add_of_le' low
  exact ⟨rfl, rfl⟩

end Sys2Proof.Proofs
end

section
/-! SUPPORT. The host's accesses (R38, R40, R53, R58, R59): which window accesses are made, what a read during a run
shows, what a write of memory races with and what a read of it returns, and the statements about them. -/

namespace Sys2Proof.Proofs

open Sys2Proof.Machine Sys2Proof.Laws

variable {s : State}

/-! ## Window accesses (R38) -/

theorem sameBlock_afterAccess (s : State) (reply : Reply) : s.sameBlock (s.afterAccess reply) :=
  ⟨rfl, rfl, rfl, rfl, rfl, rfl, rfl, rfl, rfl, rfl, rfl, rfl, rfl, rfl, rfl, rfl, rfl, fun _ => ⟨rfl, rfl⟩⟩

/-- What a STATUS read shows the host of memory is no part of the block. -/
theorem sameBlock_seenStatus (s : State) (offset : Nat) (reply : Reply) :
    s.sameBlock ((s.seenStatus offset).afterAccess reply) := by
  unfold State.seenStatus
  split
  · exact ⟨rfl, rfl, rfl, rfl, rfl, rfl, rfl, rfl, rfl, rfl, rfl, rfl, rfl, rfl, rfl, rfl, rfl, fun _ => ⟨rfl, rfl⟩⟩
  · exact sameBlock_afterAccess s reply

theorem step_host {a : HostAction} {rest : List Turn} (schedule : s.schedule = .host a :: rest) :
    step s = hostAct a { s with schedule := rest } := by
  simp only [step, turn, schedule]

theorem hostAct_windowRead {offset : BitVec 6} (aligned : offset.toNat % 4 = 0) (s : State) :
    hostAct (.windowRead offset 4) s =
      .next ((s.seenStatus offset.toNat).afterAccess (.word (s.readRegister offset.toNat))) := by
  simp [hostAct, windowAccessDefined, aligned]

theorem hostAct_windowWrite {offset : BitVec 6} (aligned : offset.toNat % 4 = 0) (v : Word) (s : State) :
    hostAct (.windowWrite offset 4 v) s = .next ((s.writeRegister offset.toNat v).afterAccess .none) := by
  simp [hostAct, windowAccessDefined, aligned]

/-- Settles O56: an access is made where its width and offset are defined, and refused elsewhere. -/
theorem oddWindowAccessIsRefused : Obligations.OddWindowAccessIsRefused := by
  intro s offset bytes v
  refine ⟨fun odd => ?refused, fun width aligned => ?made, fun a rest schedule => step_host schedule⟩
  case refused =>
    have undefined : windowAccessDefined offset bytes = false := by
      simp only [windowAccessDefined, Bool.and_eq_false_iff, beq_eq_false_iff_ne]
      exact odd
    simp only [hostAct, undefined, Bool.false_eq_true, if_false, and_self]
  case made =>
    subst width
    exact ⟨⟨_, hostAct_windowRead aligned s, rfl, sameBlock_seenStatus s _ _⟩,
      ⟨_, hostAct_windowWrite aligned v s, rfl, sameBlock_afterAccess _ _⟩⟩

/-! ## Reads during a run (R40) -/

theorem visibleBoundary_mem (busy : s.busy = true) (reached : s.boundaries ≠ []) :
    s.visibleBoundary ∈ s.boundaries := by
  have index : Config.boundaryPick s.mem.draws % s.boundaries.length < s.boundaries.length :=
    Nat.mod_lt _ (List.length_pos_iff.mpr reached)
  rw [State.visibleBoundary, if_pos busy, List.getElem?_eq_getElem index]
  exact List.getElem_mem index

/-- Settles O58: the three reads look at one and the same boundary, START leaves one, and completing adds the one
reached. -/
theorem readsDuringARunShowABoundary : Obligations.ReadsDuringARunShowABoundary := by
  refine ⟨fun s busy reached => ⟨_, visibleBoundary_mem busy reached, rfl, rfl, rfl⟩, startRun_boundaries,
    fun i s t checked passes executed => ?_⟩
  cases (exec_eq_advance checked passes).symm.trans executed
  rfl

/-! ## Accesses to memory (R53, R58, R59) -/

theorem hostAct_memWrite {addr : Word} (inMemory : addr.toNat < s.config.memSize) (v : Byte) :
    hostAct (.memWrite addr v) s =
      .next (State.afterAccess { s with mem := s.mem.hostWrite s.busy addr.toNat v } .none) :=
  if_pos (decide_eq_true inMemory)

theorem hostAct_memRead {addr : Word} (inMemory : addr.toNat < s.config.memSize) :
    hostAct (.memRead addr) s = .next (s.afterAccess (.byte (s.wholeMemory.hostRead addr.toNat))) :=
  if_pos (decide_eq_true inMemory)

/-- Settles O59: the write sets its byte and records it as racing, and the end of a run scrambles only what both
wrote. -/
theorem hostWritesRaceOnlyWhereTheRunWrites : Obligations.HostWritesRaceOnlyWhereTheRunWrites := by
  refine ⟨fun s addr v inMemory => ?_, fun m a oneSided => endRun_peek_other ?_⟩
  · exact ⟨_, hostAct_memWrite inMemory v, hostWrite_peek_same _ s.busy _ v,
      fun a other => hostWrite_peek_other s.busy v other, rfl, rfl, rfl, rfl, rfl, rfl, rfl, rfl, rfl, rfl, rfl,
      rfl, rfl, fun a => mem_hostWrite_raced (b := v)⟩
  · refine oneSided.imp (fun quiet => ?_) fun unwritten => ?_
    · simpa using quiet
    · simpa [Memory.runWrote] using unwritten

/-- A STATUS read that shows BUSY = 0 leaves nothing of a run unseen. -/
theorem hostAct_statusRead (idle : s.busy = false) :
    hostAct (.windowRead 0x08 4) s =
      .next (State.afterAccess { s with mem := s.mem.acknowledge } (.word s.statusWord)) := by
  have seen : s.seenStatus 0x08 = { s with mem := s.mem.acknowledge } := if_pos ⟨rfl, idle⟩
  rw [← seen]
  exact hostAct_windowRead (by decide) s

/-- Where no command executes and no write of a run is unseen, a read gives the byte the memory holds. -/
theorem hostAct_memRead_settled {addr : Word} (boundary : s.executing = false) (log : s.mem.log = [])
    (unseen : s.mem.unseen = []) (inMemory : addr.toNat < s.config.memSize) :
    hostAct (.memRead addr) s = .next (s.afterAccess (.byte (s.mem.peek addr.toNat))) := by
  rw [hostAct_memRead inMemory, wholeMemory_boundary boundary, hostRead_settled _ log unseen]

/-- While a command that completes executes, the memory looked at is the one the command leaves. -/
theorem wholeMemory_executing {i : Instr} {w : State} (busy : s.busy = true) (executing : s.executing = true)
    (inRange : s.cmdPtr.toNat + 32 ≤ s.config.memSize) (decodes : decode (fetchWords s) = .ok i)
    (passes : commandCheck i s = none) (checked : i ≠ .halt) (executed : exec i s = .next w) :
    s.wholeMemory = { w.mem with draws := s.mem.draws } := by
  have runs : runCommand s = .next w := (runCommand_decoded inRange decodes).trans executed
  cases (exec_eq_advance checked passes).symm.trans executed
  simp only [State.wholeMemory, executing, runs, if_true]
  exact if_pos busy

/-- Settles O60: after STATUS nothing of a run is left unseen, so the read is settled; during a command it is one of the
values held by the memory the command leaves. -/
theorem hostSeesMemoryAfterStatus : Obligations.HostSeesMemoryAfterStatus := by
  refine ⟨fun s addr rest idle boundary log inMemory schedule => ?after,
    fun s w i addr busy executing quiet inRange decodes passes checked executed inMemory => ?during⟩
  case after =>
    exact ⟨_, _, (step_host schedule).trans (hostAct_statusRead idle), rfl,
      (step_host rfl).trans (hostAct_memRead_settled boundary log rfl inMemory), rfl⟩
  case during =>
    have whole := wholeMemory_executing busy executing inRange decodes passes checked executed
    have raced : w.mem.raced = [] := by
      cases (exec_eq_advance checked passes).symm.trans executed
      exact affected_quiet quiet i
    have held : s.wholeMemory.hostRead addr.toNat ∈ s.wholeMemory.held addr.toNat :=
      hostRead_held (.inl (by rw [whole]; simp [raced]))
    refine ⟨_, _, hostAct_memRead inMemory, rfl, fun a => tick_peek _ a, ?_⟩
    rw [whole] at held ⊢
    obtain present | past := List.mem_cons.mp held
    · exact .inl present
    · obtain ⟨e, logged, value⟩ := List.mem_map.mp past
      obtain ⟨logged, own⟩ := List.mem_filter.mp logged
      exact .inr ⟨e, logged, eq_of_beq own, value.symm⟩

end Sys2Proof.Proofs
end
